-- ==== Sys2Proof/Word.lean ====
section
/-! DEFINITION. The words of PNGFRE: the byte of SRC and CHK, the 32-bit register word, the sample. -/

namespace Sys2Proof

/-- A byte of the SRC or CHK space and of the line buffers (rule R6). -/
abbrev Byte := BitVec 8

/-- A host-visible register, a SRC or CHK address, a command word (rule R6). -/
abbrev Word := BitVec 32

/-- A DST sample value, at most 16 bits (rules R6, R44). -/
abbrev Sample := BitVec 16

end Sys2Proof
end

