-- ==== Sys2Proof/Config.lean ====
section
/-! DEFINITION. What an implementation fixes (the two capacities of rule R7) and the values the spec leaves open. -/

namespace Sys2Proof

/-- A capacity that is bounded: a natural number, at least 1 (rule R7). -/
structure Capacity where
  size : Nat
  atLeastOne : 1 ≤ size
  deriving DecidableEq, Repr

/-- The two parameters of rule R7, each a natural number of at least 1 or unbounded (`none`). They are arguments of the model: a state
carries them, no step changes them, and a claim over every state holds for every choice of them. -/
structure Params where
  /-- `MAXSTRIDE`: capacity in bytes of each line buffer. -/
  maxStride : Option Capacity
  /-- `MAXSAMPLES`: capacity of the DST space in samples. -/
  maxSamples : Option Capacity
  deriving DecidableEq, Repr

/-- The free values of the line buffers where they are unspecified: after a scanline fault, after a reset, and between
commands after a finished DECODE (rules R145, R99, R170; 93_implementation_defined.md U4). DESIGN CHOICE, safe: log 12. -/
opaque Config.freeLine : Nat → List Byte

/-- The free value a host read of a DST cell that nothing has written returns: such a cell holds any value
(93_implementation_defined.md U2). DESIGN CHOICE, safe: log 5. -/
opaque Config.freeCell : Nat → Sample

end Sys2Proof
end

