-- ==== Sys2Proof/Syntax.lean ====
section
/-! DEFINITION. The operations of PNGFRE: one constructor of `Instr` per row of the opcode table, and the names
of the encoded fields (filter type, bit depth, interlace method, colour type). -/

namespace Sys2Proof

/-- The filter type `FT` of a scanline record (rule R64). -/
inductive FilterType where
  | none
  | sub
  | up
  | avg
  | paeth
  deriving DecidableEq, Repr

/-- The bit depth `FMT.BD`, which selects the unpack mode (rule R66). -/
inductive Depth where
  | d1
  | d2
  | d4
  | d8
  | d16
  deriving DecidableEq, Repr

/-- The interlace method `FMT.IL` (rule R66). -/
inductive InterlaceMode where
  | none
  | adam7
  deriving DecidableEq, Repr

/-- The colour type `FMT.CT`, an operand of DECODE and not an operation (rules R68, R93). -/
inductive ColorType where
  | grayscale
  | rgb
  | palette
  | grayscaleAlpha
  | rgba
  deriving DecidableEq, Repr

/-- The sixteen operations of the opcode table. A scanline record carries its filtered bytes (format S, rule R63);
the commands and the modes have implicit operands (rules R61, R66). -/
inductive Instr where
  /-- `NOP`, command word 0 (rule R98). -/
  | nop
  /-- `RESET`, command word 1 (rule R99). -/
  | reset
  /-- `CRCCHK`, command word 2 (rule R82). -/
  | crcchk
  /-- `DECODE`, command word 3 (rule R91). -/
  | decode
  /-- `NONE`, filter type 0 (rule R109). -/
  | recNone (filt : List Byte)
  /-- `SUB`, filter type 1 (rule R110). -/
  | recSub (filt : List Byte)
  /-- `UP`, filter type 2 (rule R111). -/
  | recUp (filt : List Byte)
  /-- `AVG`, filter type 3 (rule R113). -/
  | recAvg (filt : List Byte)
  /-- `PAETH`, filter type 4 (rule R114). -/
  | recPaeth (filt : List Byte)
  /-- `UNPK1`, bit depth 1 (rule R125). -/
  | unpk1
  /-- `UNPK2`, bit depth 2 (rule R126). -/
  | unpk2
  /-- `UNPK4`, bit depth 4 (rule R127). -/
  | unpk4
  /-- `UNPK8`, bit depth 8 (rule R128). -/
  | unpk8
  /-- `UNPK16`, bit depth 16 (rule R129). -/
  | unpk16
  /-- `ILNONE`, interlace method 0 (rule R137). -/
  | ilNone
  /-- `ILADAM7`, interlace method 1 (rule R138). -/
  | ilAdam7
  deriving DecidableEq, Repr

/-- The operations a DECODE runs in its data path, by what its stages fetch: a scanline record, the depth field, the
interlace field (rules R91, R105). -/
inductive DatapathOp where
  | filter (t : FilterType) (filt : List Byte)
  | unpack (d : Depth)
  | interlace (m : InterlaceMode)
  deriving DecidableEq, Repr

end Sys2Proof
end

