-- ==== Sys2Proof/Machine/State.lean ====
section
/-! DEFINITION. The state of one PNGFRE with the three data spaces and the host's side of the port, as plain data; the
reasons a step can stop; the state after reset. -/

namespace Sys2Proof.Machine

/-! ## Registers -/

/-- The host-visible registers that hold something (rules R14 to R30). `ID` is hard-wired and `CMD` holds nothing, so
neither is here (rules R12, R13); reserved bits read 0 and have no storage (rules R14, R15, R19, R23). -/
structure Regs where
  /-- `STATUS.DONE`, bit 0 (rule R14). -/
  done : Bool
  /-- `STATUS.FAULT`, bit 1 (rule R14). -/
  fault : Bool
  /-- `STATUS.CRCOK`, bit 2 (rule R14). -/
  crcOk : Bool
  /-- `FCODE[7:0]` (rule R15). -/
  fcode : BitVec 8
  /-- `FINFO` (rule R16). -/
  finfo : Word
  /-- `WIDTH` (rule R17). -/
  width : Word
  /-- `HEIGHT` (rule R18). -/
  height : Word
  /-- `FMT[24:0]` (rule R19). -/
  fmt : BitVec 25
  /-- `PALSIZE` (rule R21). -/
  palsize : Word
  /-- `SLEN` (rule R22). -/
  slen : Word
  /-- `SPOS` (rule R20). -/
  spos : Word
  /-- `PASS[2:0]` (rule R23). -/
  pass : BitVec 3
  /-- `ROW` (rule R24). -/
  row : Word
  /-- `CLEN` (rule R25). -/
  clen : Word
  /-- `CPOS` (rule R26). -/
  cpos : Word
  /-- `CTYPE` (rule R27). -/
  ctype : Word
  /-- `CLENGTH` (rule R28). -/
  clength : Word
  /-- `CCRC` (rule R29). -/
  ccrc : Word
  /-- `CSTORED` (rule R30). -/
  cstored : Word
  deriving DecidableEq, Repr

/-! ## Hidden state -/

/-- The unpacker's bit cursor `(bytePosition, bitsConsumedInCurrentByte)` (rule R32). -/
structure BitCursor where
  bytePos : Nat
  bitsUsed : Nat
  deriving DecidableEq, Repr

/-- The configuration latch of DECODE (rule R92). -/
structure Latch where
  bd : Byte
  ct : Byte
  il : Byte
  palp : Bool
  w : Word
  h : Word
  ps : Word
  n : Word
  deriving DecidableEq, Repr

/-- One entry `(pno, xo, yo, xs, ys)` of a pass list (rules R91, R131, R137). -/
structure Pass where
  pno : Nat
  xo : Nat
  yo : Nat
  xs : Nat
  ys : Nat
  deriving DecidableEq, Repr

/-- Where a DECODE stands (rules R91, R105). DEDUCED: log 7. -/
inductive Stage where
  /-- No command is in progress: the block waits for the host (rule R171). -/
  | idle
  /-- The configuration check has passed; the interlace mode gives the pass list next. -/
  | passes
  /-- The scanline record at `SPOS` is fetched and reconstructed next. -/
  | record
  /-- The reconstructed row in `CUR` is unpacked and checked next. -/
  | unpack
  /-- The unpacked row is scattered and the record committed next. -/
  | place
  deriving DecidableEq, Repr

/-- The state no host transaction reads (rules R31 to R33, R91, R92). -/
structure Pipe where
  /-- `PREV`: the reconstructed row before this one in the pass (rule R31). -/
  prev : List Byte
  /-- `CUR`: the row being reconstructed (rule R31). -/
  cur : List Byte
  /-- The unpacker's bit cursor (rule R32). -/
  bitCursor : BitCursor
  /-- The CRC accumulator (rule R33). -/
  crcAcc : Word
  /-- The latched operands (rule R92). -/
  latch : Latch
  /-- `C`, the channels per pixel (rules R91, R93). -/
  chan : Nat
  /-- The tuple of the current pass (rule R91). -/
  geo : Pass
  /-- The passes still to come (rule R91). -/
  later : List Pass
  /-- `py`, the pass-local row (rule R91). -/
  py : Nat
  /-- The unpacked row, between the unpacker and the scatter unit (rule R105); empty between commands (rule R51). -/
  samples : List Sample
  /-- Where the DECODE stands. -/
  stage : Stage
  deriving DecidableEq, Repr

/-! ## The data spaces -/

/-- A byte space, SRC or CHK: the listed bytes by rising address; an unlisted byte reads 0 (rules R41, R42, log 4). -/
abbrev Memory := List Host.Cell

/-- The DST space: the written cells by rising cell number; an unlisted cell was never written (rules R43, R44, log 5). -/
abbrev DstMem := List (Nat × Sample)

/-- One transaction on the DST write port (rule R44). -/
structure DstWrite where
  idx : Nat
  value : Sample
  wide : Bool
  deriving DecidableEq, Repr

/-! ## The host's side -/

/-- What the host does between commands (rules R11, R40, R170). -/
inductive HostAction where
  /-- `RegRead(n)` (rule R11). -/
  | regRead (n : Nat)
  /-- `RegWrite(n, v)` (rule R11). -/
  | regWrite (n : Nat) (v : Word)
  /-- The host puts a byte into the SRC space (rule R40). -/
  | srcWrite (a : Word) (b : Byte)
  /-- The host puts a byte into the CHK space (rule R40). -/
  | chkWrite (a : Word) (b : Byte)
  /-- The host puts a value into a DST cell (rule R96: "whatever the host left there"). -/
  | dstWrite (idx : Nat) (v : Sample)
  /-- The host reads a DST cell (rule R40). -/
  | dstRead (idx : Nat)
  /-- Power-on reset (rule R170). -/
  | powerOn
  deriving DecidableEq, Repr

/-- One PNGFRE, its three spaces and its host. -/
structure State where
  /-- The arguments of the model (rule R7, log 6). -/
  params : Params
  /-- The host-visible registers. -/
  regs : Regs
  /-- The hidden state. -/
  pipe : Pipe
  /-- The SRC space (rule R41). -/
  src : Memory
  /-- The CHK space (rule R42). -/
  chk : Memory
  /-- The DST space (rule R43). -/
  dst : DstMem
  /-- The transactions the block issued on the DST write port, latest first (rules R44, R51, log 10). -/
  dstLog : List DstWrite
  /-- The host's actions not yet taken, next first (rule R11, log 9). -/
  pending : List HostAction
  /-- The words returned to the host, latest first (rule R11, log 10). -/
  replies : List Word
  /-- How many free values have been taken (log 12). -/
  unspec : Nat
  deriving DecidableEq, Repr

/-! ## Reasons to stop -/

/-- Why the model stops. The twelve faults of the block itself are no stops: `raise` records them and the machine goes
on (rule R142). -/
inductive Fault where
  /-- Raised by the data path alone, when a DECODE is in progress and its latched depth or interlace field is outside the
  table. Safe: the configuration check (rule R94) lets no such latch through, so no run meets it. Log 18. -/
  | illegalMode
  deriving DecidableEq, Repr

/-- Why an instruction has no meaning. -/
inductive Refusal where
  /-- Raised by `exec` for an instruction that has no meaning yet, named by its mnemonic. Safe: nothing is claimed of it. -/
  | notModelled (mnemonic : String)
  deriving DecidableEq, Repr

/-! ## Reset -/

/-- The registers after reset (rule R38). -/
def Regs.reset : Regs where
  done := false
  fault := false
  crcOk := false
  fcode := 0
  finfo := 0
  width := 0
  height := 0
  fmt := 0
  palsize := 0
  slen := 0
  spos := 0
  pass := 0
  row := 0
  clen := 0
  cpos := 0
  ctype := 0
  clength := 0
  ccrc := 0
  cstored := 0

/-- The hidden state after reset: no command is in progress, and no row is kept (rule R51). Rule R38 leaves the rest
without values; every other value here is a DESIGN CHOICE, unsafe: logs 1, 2 and 3. -/
def Pipe.reset : Pipe where
  prev := []
  cur := []
  bitCursor := ⟨0, 0⟩
  crcAcc := 0
  latch := ⟨0, 0, 0, false, 0, 0, 0, 0⟩
  chan := 0
  geo := ⟨0, 0, 0, 1, 1⟩
  later := []
  py := 0
  samples := []
  stage := .idle

/-- The machine right after power-on reset (rules R38, R170, R171), with nothing in the host's spaces and no host action
waiting. -/
def State.reset : State where
  params := ⟨none, none⟩
  regs := Regs.reset
  pipe := Pipe.reset
  src := []
  chk := []
  dst := []
  dstLog := []
  pending := []
  replies := []
  unspec := 0

end Sys2Proof.Machine
end

