-- ==== Sys2Proof/Machine/Flags.lean ====
section
/-! DEFINITION. The three flags of `STATUS` and the word they read as (rule R14). -/

namespace Sys2Proof.Machine

/-- `STATUS` as `RegRead` returns it: `DONE` bit 0, `FAULT` bit 1, `CRCOK` bit 2, bits 31:3 zero (rule R14). -/
def statusWord (r : Regs) : Word :=
  (BitVec.ofBool r.crcOk ++ BitVec.ofBool r.fault ++ BitVec.ofBool r.done).setWidth 32

/-- `STATUS.DONE <- b`. -/
def setDone (b : Bool) (s : State) : State := { s with regs := { s.regs with done := b } }

/-- `STATUS.CRCOK <- b`. -/
def setCrcOk (b : Bool) (s : State) : State := { s with regs := { s.regs with crcOk := b } }

end Sys2Proof.Machine
end

