-- ==== Sys2Proof/WellFormed.lean ====
section
/-! DEFINITION. Which instructions can stand in a stream. Only the records have anything to check. -/

namespace Sys2Proof

/-- The filtered bytes a scanline record carries; none for the other formats. -/
def Instr.filt? : Instr → Option (List Byte)
  | .recNone filt => some filt
  | .recSub filt => some filt
  | .recUp filt => some filt
  | .recAvg filt => some filt
  | .recPaeth filt => some filt
  | .nop => none
  | .reset => none
  | .crcchk => none
  | .decode => none
  | .unpk1 => none
  | .unpk2 => none
  | .unpk4 => none
  | .unpk8 => none
  | .unpk16 => none
  | .ilNone => none
  | .ilAdam7 => none

/-- Check 1: a record has at least one filtered byte, since the stride is at least 1 (rule R106). -/
def hasData (filt : List Byte) : Bool := decide (1 ≤ filt.length)

/-- Check 2: the whole record, `1 + stride` bytes, fits in a SRC space whose length is a 32-bit register
(rules R22, R41). -/
def fitsSpace (filt : List Byte) : Bool := decide (1 + filt.length ≤ 2 ^ 32 - 1)

/-- An instruction some stream can hold. -/
def WellFormed (i : Instr) : Bool :=
  match i.filt? with
  | some filt => hasData filt && fitsSpace filt
  | none => true

end Sys2Proof
end

