-- ==== Sys2Proof/Decode.lean ====
section
/-! DEFINITION. The decoder, total on any bits and rejecting by name, and after it the encoder, both written from
30_encoding.md. The three formats are told apart by the place they are fetched from (rule R60). -/

namespace Sys2Proof

/-! ## Mode fields -/

/-- `FMT.BD`, bits 7:0 (rule R19). -/
def fmtBD (fmt : BitVec 25) : Byte := fmt.extractLsb' 0 8

/-- `FMT.CT`, bits 15:8 (rule R19). -/
def fmtCT (fmt : BitVec 25) : Byte := fmt.extractLsb' 8 8

/-- `FMT.IL`, bits 23:16 (rule R19). -/
def fmtIL (fmt : BitVec 25) : Byte := fmt.extractLsb' 16 8

/-- `FMT.PALP`, bit 24 (rule R19). -/
def fmtPALP (fmt : BitVec 25) : Bool := fmt.getLsbD 24

/-- What a write of `FMT` stores: bits 24:0, the reserved bits 31:25 are dropped (rule R19). -/
def fmtStored (v : Word) : BitVec 25 := v.setWidth 25

/-- The pseudo-instruction `fmt BD, CT, IL, PALP` (rule R71). -/
def fmtWord (bd ct il : Byte) (palp : Bool) : Word :=
  (BitVec.ofBool palp ++ il ++ ct ++ bd).setWidth 32

/-! ## The decoder -/

/-- Why an encoding is illegal (rule R69). -/
inductive Reject where
  /-- A command word outside {0, 1, 2, 3} (rule R100). -/
  | illegalCommand (v : Word)
  /-- A filter-type byte in 5..255 (rule R117). -/
  | unsupportedFilterType (ft : Byte)
  /-- A depth field outside {1, 2, 4, 8, 16} (rule R69). -/
  | invalidBitDepth (bd : Byte)
  /-- An interlace field in 2..255 (rule R69). -/
  | unsupportedInterlaceMethod (il : Byte)
  /-- No filter-type byte is left, or fewer bytes than the stride follow it (rule R105). -/
  | streamUnderrun
  deriving DecidableEq, Repr

/-- Format C: the whole 32-bit word selects the command (rules R61, R62). -/
def decodeCommand (v : Word) : Except Reject Instr :=
  if v = 0x00000000#32 then .ok .nop
  else if v = 0x00000001#32 then .ok .reset
  else if v = 0x00000002#32 then .ok .crcchk
  else if v = 0x00000003#32 then .ok .decode
  else .error (.illegalCommand v)

/-- Format S, the filter-type byte (rule R64). -/
def decodeFilter (ft : Byte) : Except Reject FilterType :=
  if ft = 0#8 then .ok .none
  else if ft = 1#8 then .ok .sub
  else if ft = 2#8 then .ok .up
  else if ft = 3#8 then .ok .avg
  else if ft = 4#8 then .ok .paeth
  else .error (.unsupportedFilterType ft)

/-- Format M, the depth field (rule R66). -/
def decodeDepth (bd : Byte) : Except Reject Depth :=
  if bd = 1#8 then .ok .d1
  else if bd = 2#8 then .ok .d2
  else if bd = 4#8 then .ok .d4
  else if bd = 8#8 then .ok .d8
  else if bd = 16#8 then .ok .d16
  else .error (.invalidBitDepth bd)

/-- Format M, the interlace field (rule R66). -/
def decodeInterlace (il : Byte) : Except Reject InterlaceMode :=
  if il = 0#8 then .ok .none
  else if il = 1#8 then .ok .adam7
  else .error (.unsupportedInterlaceMethod il)

/-- The colour-type codes (rules R19, R93); `none` for a code outside the table. -/
def decodeColor (ct : Byte) : Option ColorType :=
  if ct = 0#8 then some .grayscale
  else if ct = 2#8 then some .rgb
  else if ct = 3#8 then some .palette
  else if ct = 4#8 then some .grayscaleAlpha
  else if ct = 6#8 then some .rgba
  else none

/-- The record of a filter type with its filtered bytes. -/
def FilterType.record (t : FilterType) (filt : List Byte) : Instr :=
  match t with
  | .none => .recNone filt
  | .sub => .recSub filt
  | .up => .recUp filt
  | .avg => .recAvg filt
  | .paeth => .recPaeth filt

/-- The unpack mode a depth selects. -/
def Depth.mode : Depth → Instr
  | .d1 => .unpk1
  | .d2 => .unpk2
  | .d4 => .unpk4
  | .d8 => .unpk8
  | .d16 => .unpk16

/-- The interlace mode a method selects. -/
def InterlaceMode.mode : InterlaceMode → Instr
  | .none => .ilNone
  | .adam7 => .ilAdam7

/-- The instruction a data-path operation is. -/
def DatapathOp.instr : DatapathOp → Instr
  | .filter t filt => t.record filt
  | .unpack d => d.mode
  | .interlace m => m.mode

/-- Reads one scanline record of a pass with stride `st` off the front of a byte stream and returns what follows it. The
order of the tests is that of rule R105: missing type byte, illegal type, missing data. -/
def decodeRecord (st : Nat) (bytes : List Byte) : Except Reject (Instr × List Byte) :=
  match bytes with
  | [] => .error .streamUnderrun
  | ft :: rest =>
    match decodeFilter ft with
    | .error r => .error r
    | .ok t => if rest.length < st then .error .streamUnderrun else .ok (t.record (rest.take st), rest.drop st)

/-- Where an instruction stands and the bits read there (rule R60): the word written to `CMD`, a record's bytes in SRC, or
`FMT` seen by the unpacker or by the interlace unit. -/
inductive Encoded where
  | command (v : Word)
  | record (bytes : List Byte)
  | depthField (fmt : Word)
  | interlaceField (fmt : Word)
  deriving DecidableEq, Repr

/-- The decoder over all four places. A record's bytes are taken to be exactly one record. -/
def decode : Encoded → Except Reject Instr
  | .command v => decodeCommand v
  | .record bytes => (decodeRecord (bytes.length - 1) bytes).map Prod.fst
  | .depthField fmt => (decodeDepth (fmtBD (fmtStored fmt))).map Depth.mode
  | .interlaceField fmt => (decodeInterlace (fmtIL (fmtStored fmt))).map InterlaceMode.mode

/-! ## The encoder -/

/-- The filter-type byte of rule R64. -/
def FilterType.code : FilterType → Byte
  | .none => 0
  | .sub => 1
  | .up => 2
  | .avg => 3
  | .paeth => 4

/-- The depth, as the number itself (rule R19). -/
def Depth.bits : Depth → Nat
  | .d1 => 1
  | .d2 => 2
  | .d4 => 4
  | .d8 => 8
  | .d16 => 16

/-- The interlace code of rule R19. -/
def InterlaceMode.code : InterlaceMode → Byte
  | .none => 0
  | .adam7 => 1

/-- The colour-type code of rule R93. -/
def ColorType.code : ColorType → Byte
  | .grayscale => 0
  | .rgb => 2
  | .palette => 3
  | .grayscaleAlpha => 4
  | .rgba => 6

/-- `fmt` with its depth field replaced. -/
def withDepthField (d : Depth) (fmt : Word) : Word := (fmt &&& 0xFFFFFF00#32) ||| BitVec.ofNat 32 d.bits

/-- `fmt` with its interlace field replaced. -/
def withInterlaceField (m : InterlaceMode) (fmt : Word) : Word :=
  (fmt &&& 0xFF00FFFF#32) ||| (m.code.setWidth 32 <<< 16)

/-- The bits of an instruction at its place. A mode is one field of `FMT`; `fmt` gives the fields that belong to others. -/
def encodeIn (fmt : Word) : Instr → Encoded
  | .nop => .command 0x00000000#32
  | .reset => .command 0x00000001#32
  | .crcchk => .command 0x00000002#32
  | .decode => .command 0x00000003#32
  | .recNone filt => .record (FilterType.none.code :: filt)
  | .recSub filt => .record (FilterType.sub.code :: filt)
  | .recUp filt => .record (FilterType.up.code :: filt)
  | .recAvg filt => .record (FilterType.avg.code :: filt)
  | .recPaeth filt => .record (FilterType.paeth.code :: filt)
  | .unpk1 => .depthField (withDepthField .d1 fmt)
  | .unpk2 => .depthField (withDepthField .d2 fmt)
  | .unpk4 => .depthField (withDepthField .d4 fmt)
  | .unpk8 => .depthField (withDepthField .d8 fmt)
  | .unpk16 => .depthField (withDepthField .d16 fmt)
  | .ilNone => .interlaceField (withInterlaceField .none fmt)
  | .ilAdam7 => .interlaceField (withInterlaceField .adam7 fmt)

/-- The bits of an instruction, the fields of `FMT` that it does not use being 0. -/
def encode (i : Instr) : Encoded := encodeIn 0 i

/-! ## The opcode table's numbering -/

/-- The place and bits of the table's word `w` of `nbits` bits. The table gives a word no format, and some modes share
their number with a command or a record; then the command or the record is taken. DESIGN CHOICE: log 8. A record's
operand bytes are zeros, one byte long, the least stride there is (rule R106). -/
def tableWord (nbits w : Nat) : Encoded :=
  let v : Word := BitVec.ofNat 32 w
  if nbits ≤ 8 then
    if w ≤ 4 then .record [BitVec.ofNat 8 w, 0#8]
    else if w = 8 ∨ w = 16 then .depthField v
    else .record [BitVec.ofNat 8 w, 0#8]
  else if 32 ≤ nbits ∧ w ≤ 3 then .command v
  else if w = 1 ∨ w = 2 ∨ w = 4 ∨ w = 8 ∨ w = 16 then .depthField v
  else if w = 0 ∨ w = 0x10000 then .interlaceField v
  else .command v

/-- The instruction the decoder reads from an instruction whose bits, as the opcode table numbers them, are `w`. -/
def decodeTableWord (nbits w : Nat) : Option Instr :=
  match decode (tableWord nbits w) with
  | .ok i => some i
  | .error _ => none

end Sys2Proof
end

