-- ==== Sys2Proof/Machine/Operands.lean ====
section
/-! DEFINITION. Operand assembly: byte order, the colour-type table, stride and pixel width, the neighbours of a byte,
the sample function, pass geometry. All quantities are exact naturals (rule R104). -/

namespace Sys2Proof.Machine

/-! ## Byte order (rules R8, R45) -/

/-- `be16(b0, b1)`. -/
def be16 (b0 b1 : Byte) : Nat := b0.toNat * 256 + b1.toNat

/-- `be32(b0, b1, b2, b3)`. -/
def be32 (b0 b1 b2 b3 : Byte) : Word := b0 ++ b1 ++ b2 ++ b3

/-- `be32` of the first four bytes of a list. -/
def be32List (bytes : List Byte) : Word :=
  be32 (bytes.getD 0 0) (bytes.getD 1 0) (bytes.getD 2 0) (bytes.getD 3 0)

/-- The four bytes `be32` reads `v` from, first byte most significant. -/
def be32Bytes (v : Word) : List Byte :=
  [v.extractLsb' 24 8, v.extractLsb' 16 8, v.extractLsb' 8 8, v.extractLsb' 0 8]

/-! ## The colour-type table (rule R93) -/

/-- `channels(CT)`. -/
def channels : ColorType → Nat
  | .grayscale => 1
  | .rgb => 3
  | .palette => 1
  | .grayscaleAlpha => 2
  | .rgba => 4

/-- `allowed(CT)`. -/
def allowedDepths : ColorType → List Depth
  | .grayscale => [.d1, .d2, .d4, .d8, .d16]
  | .rgb => [.d8, .d16]
  | .palette => [.d1, .d2, .d4, .d8]
  | .grayscaleAlpha => [.d8, .d16]
  | .rgba => [.d8, .d16]

/-- `BD` is a member of `allowed(CT)`. -/
def depthAllowed (c : ColorType) (bd : Byte) : Bool :=
  match decodeDepth bd with
  | .ok d => decide (d ∈ allowedDepths c)
  | .error _ => false

/-! ## Row geometry -/

/-- `stride(w)` at `c` channels of `bd` bits: the bytes of one row, rounded up once over the whole row (rule R106). -/
def stride (c bd w : Nat) : Nat := (w * c * bd + 7) / 8

/-- `bpp`: the distance to the corresponding byte of the pixel to the left, at least 1 (rule R107). -/
def bpp (c bd : Nat) : Nat := max 1 (c * bd / 8)

/-- `pw`: the pass-local width, with no subtraction that goes below zero (rule R132). -/
def passWidth (w : Nat) (p : Pass) : Nat := (w + p.xs - 1 - p.xo) / p.xs

/-- `ph`: the pass-local height (rule R132). -/
def passHeight (h : Nat) (p : Pass) : Nat := (h + p.ys - 1 - p.yo) / p.ys

/-- `idx(x, y, c)`: the DST cell of a sample of a raster `w` pixels wide with `chan` channels (rule R43). -/
def cellIndex (w chan x y c : Nat) : Nat := (y * w + x) * chan + c

/-! ## Neighbours (rule R108) -/

/-- The byte `d` before position `x` of a line, 0 outside the row. -/
def leftOf (d : Nat) (line : List Byte) (x : Nat) : Byte := if d ≤ x then line.getD (x - d) 0 else 0

/-- The neighbours `(a, b, c)` of byte `x`: left, above, above left. -/
def neighbours (d : Nat) (prev cur : List Byte) (x : Nat) : Byte × Byte × Byte :=
  (leftOf d cur x, prev.getD x 0, leftOf d prev x)

/-! ## Samples (rules R32, R121) -/

/-- The bit cursor in front of sample `k` (rule R32). -/
def cursorAt (bd k : Nat) : BitCursor := ⟨k * bd / 8, k * bd % 8⟩

/-- The sample at a bit cursor (rule R121): two bytes big-endian at depth 16, one byte at depth 8, and below 8 the `bd`
bits that start `bitsUsed` bits below the top of the byte. -/
def sampleAt (bd : Nat) (line : List Byte) (at' : BitCursor) : Nat :=
  if bd = 16 then be16 (line.getD at'.bytePos 0) (line.getD (at'.bytePos + 1) 0)
  else if bd = 8 then (line.getD at'.bytePos 0).toNat
  else ((line.getD at'.bytePos 0).toNat >>> (8 - bd - at'.bitsUsed)) % 2 ^ bd

/-- `sample(CUR, k)` (rule R121). -/
def sample (bd : Nat) (line : List Byte) (k : Nat) : Nat := sampleAt bd line (cursorAt bd k)

/-- `samples[0 .. n-1]` of a row (rule R120). -/
def unpackLine (bd n : Nat) (line : List Byte) : List Sample :=
  (List.range n).map fun k => BitVec.ofNat 16 (sample bd line k)

/-- The first sample, in row order, that is no index of a table of `ps` entries (rule R124). -/
def firstOutside (ps : Nat) (samples : List Sample) : Option Sample :=
  samples.find? fun v => decide (ps ≤ v.toNat)

end Sys2Proof.Machine
end

