-- ==== Sys2Proof/Machine/Ops.lean ====
section
/-! DEFINITION. The named operations over memory and registers: the data spaces, the register port, raising a fault
(the block's one exception entry) and leaving the faulted state. -/

namespace Sys2Proof.Machine

/-! ## Byte spaces (rules R41, R42, R48) -/

/-- The canonical form of a list of cells: addresses strictly rising. -/
abbrev cellsRise {α : Type} (m : List (Nat × α)) : Prop := m.Pairwise fun p q => p.1 < q.1

/-- The canonical form of a byte space: addresses strictly rising, and no listed byte equal to what an unlisted address
reads as (log 4). -/
abbrev memoryWf (m : Memory) : Prop := cellsRise m ∧ ∀ c ∈ m, c.2 ≠ 0#8

/-- The canonical form of DST: cell numbers strictly rising. -/
abbrev dstWf (m : DstMem) : Prop := cellsRise m

/-- The cell at an address, if one is listed. -/
def cellAt {α : Type} : List (Nat × α) → Nat → Option α
  | [], _ => none
  | c :: m, a => if c.1 = a then some c.2 else cellAt m a

/-- Lists `v` at address `a`, in order, in place of what was there. -/
def putCell {α : Type} (a : Nat) (v : α) : List (Nat × α) → List (Nat × α)
  | [] => [(a, v)]
  | c :: m => if a < c.1 then (a, v) :: c :: m else if c.1 = a then (a, v) :: m else c :: putCell a v m

/-- Unlists address `a`. -/
def dropCell {α : Type} (a : Nat) : List (Nat × α) → List (Nat × α)
  | [] => []
  | c :: m => if c.1 = a then m else c :: dropCell a m

/-- `MemRead(space, a, 1)`: an unlisted byte reads 0. DESIGN CHOICE, unsafe: log 4. -/
def readByte (m : Memory) (a : Nat) : Byte := (cellAt m a).getD 0

/-- `MemRead(space, a, n)`: `n` bytes in address order (rule R8). -/
def readBytes (m : Memory) (a : Nat) : Nat → List Byte
  | 0 => []
  | n + 1 => readByte m a :: readBytes m (a + 1) n

/-- The host stores a byte; writing what an unlisted byte reads as unlists the address. -/
def writeByte (m : Memory) (a : Nat) (b : Byte) : Memory := if b = 0#8 then dropCell a m else putCell a b m

/-! ## DST (rules R43, R44) -/

/-- The value of a DST cell, if anything has written it. -/
def dstCell (m : DstMem) (idx : Nat) : Option Sample := cellAt m idx

/-- What the platform stores for a write: the low 8 bits when the cell is 8 bits wide (rule R44). -/
def storedSample (w : DstWrite) : Sample := if w.wide then w.value else (w.value.setWidth 8).setWidth 16

/-- `MemWrite(DST, idx, v)`: one transaction on the DST write port (rules R8, R44). -/
def dstPut (w : DstWrite) (s : State) : State :=
  { s with dst := putCell w.idx (storedSample w) s.dst, dstLog := w :: s.dstLog }

/-- DST writes issued one after another. -/
def dstPutAll : List DstWrite → State → State
  | [], s => s
  | w :: ws, s => dstPutAll ws (dstPut w s)

/-! ## Faults of the block (rules R140 to R146) -/

/-- The twelve causes of rule R141. -/
inductive Cause where
  | crcMismatch
  | truncatedChunk
  | unsupportedColorType
  | invalidBitDepth
  | unsupportedInterlaceMethod
  | unsupportedFilterType
  | paletteIndexOutOfRange
  | missingRequiredChunk
  | invalidDimensions
  | capacityExceeded
  | streamUnderrun
  | illegalCommand
  deriving DecidableEq, Repr

/-- The `FCODE` of a cause (rule R141). -/
def causeCode : Cause → BitVec 8
  | .crcMismatch => 1
  | .truncatedChunk => 2
  | .unsupportedColorType => 3
  | .invalidBitDepth => 4
  | .unsupportedInterlaceMethod => 5
  | .unsupportedFilterType => 6
  | .paletteIndexOutOfRange => 7
  | .missingRequiredChunk => 8
  | .invalidDimensions => 9
  | .capacityExceeded => 10
  | .streamUnderrun => 11
  | .illegalCommand => 12

/-- `raise Name(info)`: records the code and the info word, sets `FAULT`, ends the command in progress (rule R142). The
block saves no program counter and has no handler and no mode (rule R142): this is its whole exception entry. -/
def raise (c : Cause) (info : Word) (s : State) : State :=
  { s with
    regs := { s.regs with fcode := causeCode c, finfo := info, fault := true }
    pipe := { s.pipe with stage := .idle } }

/-- The rows in hand are lost. The unpacked row is dropped, for no copy of a byte of the spaces outlives the command
(rule R51). Both line buffers become unspecified: each takes a free value (DESIGN CHOICE, safe: log 12). -/
def loseLines (s : State) : State :=
  { s with
    pipe :=
      { s.pipe with prev := Config.freeLine s.unspec, cur := Config.freeLine (s.unspec + 1), samples := [] }
    unspec := s.unspec + 2 }

/-- A fault inside a scanline record also leaves both line buffers unspecified and no unpacked row (rules R145, R51). -/
def raiseInRecord (c : Cause) (info : Word) (s : State) : State :=
  raise c info (loseLines s)

/-- RESET and power-on reset, the only way out of the faulted state (rules R99, R146, R170): every register and the
hidden state take their reset values; the line buffers become unspecified; CHK, SRC and DST keep their contents. -/
def resetBlock (s : State) : State := loseLines { s with regs := Regs.reset, pipe := Pipe.reset }

/-! ## The register port (rule R11) -/

/-- `RegRead(n)`: no side effect; `CMD` and the numbers above 18 read 0 (rules R11 to R30). -/
def regRead (s : State) (n : Nat) : Word :=
  match n with
  | 0 => 0x504E4701#32
  | 2 => statusWord s.regs
  | 3 => s.regs.fcode.setWidth 32
  | 4 => s.regs.finfo
  | 5 => s.regs.width
  | 6 => s.regs.height
  | 7 => s.regs.fmt.setWidth 32
  | 8 => s.regs.palsize
  | 9 => s.regs.slen
  | 10 => s.regs.spos
  | 11 => s.regs.pass.setWidth 32
  | 12 => s.regs.row
  | 13 => s.regs.clen
  | 14 => s.regs.cpos
  | 15 => s.regs.ctype
  | 16 => s.regs.clength
  | 17 => s.regs.ccrc
  | 18 => s.regs.cstored
  | _ => 0

/-- `RegWrite(n, v)` to any register but `CMD`: the seven RW registers store, every other number has no effect
(rule R11). -/
def regWrite (n : Nat) (v : Word) (s : State) : State :=
  match n with
  | 5 => { s with regs := { s.regs with width := v } }
  | 6 => { s with regs := { s.regs with height := v } }
  | 7 => { s with regs := { s.regs with fmt := fmtStored v } }
  | 8 => { s with regs := { s.regs with palsize := v } }
  | 9 => { s with regs := { s.regs with slen := v } }
  | 13 => { s with regs := { s.regs with clen := v } }
  | 14 => { s with regs := { s.regs with cpos := v } }
  | _ => s

/-! ## Outcomes -/

/-- Goes on from a next state; keeps a stop as it is. -/
def onNext (o : Host.Outcome State Fault Refusal) (f : State → State) : Host.Outcome State Fault Refusal :=
  match o with
  | .next s => .next (f s)
  | .fault r => .fault r
  | .refused r => .refused r

end Sys2Proof.Machine
end

