-- ==== Sys2Proof/Machine/Control.lean ====
section
/-! DEFINITION. NOP and RESET (rules R98, R99) and the illegal command word (rule R100). -/

namespace Sys2Proof.Machine

/-- `NOP` (rule R98): nothing, in the faulted state as well. -/
def execNop (s : State) : Host.Outcome State Fault Refusal := .next s

/-- `RESET` (rule R99): accepted in every state. -/
def execReset (s : State) : Host.Outcome State Fault Refusal := .next (resetBlock s)

/-- An illegal command word (rule R100): ignored in the faulted state, else `raise IllegalCommand(v)`. -/
def illegalCommand (v : Word) (s : State) : State :=
  if s.regs.fault then s else raise .illegalCommand v s

end Sys2Proof.Machine
end

