-- ==== Sys2Proof/Machine/Crc.lean ====
section
/-! DEFINITION. The CRC unit: the CRC-32 function (rule R81), the chunk record's encoding (rules R65, R71) and the
command CRCCHK (rule R82). -/

namespace Sys2Proof.Machine

/-- One of the eight bit steps: shift right, and xor the reflected polynomial in when bit 0 was 1 (rule R81). -/
def crcBit (acc : Word) : Word :=
  if acc.getLsbD 0 then (acc >>> 1) ^^^ 0xEDB88320#32 else acc >>> 1

/-- `k` bit steps. -/
def crcBits : Nat → Word → Word
  | 0, acc => acc
  | k + 1, acc => crcBits k (crcBit acc)

/-- One byte: xor it into the low 8 bits, then eight bit steps (rule R81). -/
def crcByte (acc : Word) (d : Byte) : Word := crcBits 8 (acc ^^^ d.setWidth 32)

/-- The accumulator after a byte sequence. -/
def crcRun (acc : Word) (bytes : List Byte) : Word := bytes.foldl crcByte acc

/-- `CRC32(bytes)` (rule R81). -/
def crc32 (bytes : List Byte) : Word := crcRun 0xFFFFFFFF#32 bytes ^^^ 0xFFFFFFFF#32

/-- A chunk record as bytes: length, type, payload, CRC (rule R65; the pseudo-instruction `chunk` of rule R71). -/
def encodeChunk (type : Word) (payload : List Byte) : List Byte :=
  be32Bytes (BitVec.ofNat 32 payload.length) ++ be32Bytes type ++ payload ++
    be32Bytes (crc32 (be32Bytes type ++ payload))

/-- `STATUS.CRCOK <- 0`, the first step of every CRCCHK that is not ignored (rule R82). -/
def startCrcchk (s : State) : State := setCrcOk false s

/-- The declared length at `CPOS` (rule R82). -/
def chunkLength (s : State) : Word := be32List (readBytes s.chk s.regs.cpos.toNat 4)

/-- The truncation check (rule R83): the fixed fields fit, then the payload does. -/
def chunkFits (s : State) : Bool :=
  let p := s.regs.cpos.toNat
  let n := s.regs.clen.toNat
  decide (p ≤ n) && decide (12 ≤ n - p) && decide ((chunkLength s).toNat ≤ n - p - 12)

/-- The accumulator over type and payload (rule R85). -/
def chunkAcc (s : State) : Word :=
  crcRun 0xFFFFFFFF#32 (readBytes s.chk (s.regs.cpos.toNat + 4) (4 + (chunkLength s).toNat))

/-- The field capture of rules R84 and R85: length, type, computed and stored CRC. -/
def captureChunk (s : State) : State :=
  let p := s.regs.cpos.toNat
  let len := chunkLength s
  { s with
    regs :=
      { s.regs with
        clength := len
        ctype := be32List (readBytes s.chk (p + 4) 4)
        ccrc := chunkAcc s ^^^ 0xFFFFFFFF#32
        cstored := be32List (readBytes s.chk (p + 8 + len.toNat) 4) }
    pipe := { s.pipe with crcAcc := chunkAcc s } }

/-- The match: the cursor steps over the record and `CRCOK` is set (rule R86). -/
def acceptChunk (s : State) : State :=
  { s with regs := { s.regs with cpos := s.regs.cpos + 12#32 + s.regs.clength, crcOk := true } }

/-- The comparison of the captured fields (rules R85, R86). -/
def judgeChunk (s : State) : State :=
  if s.regs.ccrc = s.regs.cstored then acceptChunk s else raise .crcMismatch s.regs.ccrc s

/-- The whole check of the record at `CPOS`, when the command is not ignored (rule R82). -/
def checkChunk (s : State) : State :=
  if chunkFits s then judgeChunk (captureChunk s) else raise .truncatedChunk s.regs.cpos s

/-- `CRCCHK` (rule R82). -/
def execCrcchk (s : State) : Host.Outcome State Fault Refusal :=
  if s.regs.fault then .next s else .next (checkChunk (startCrcchk s))

end Sys2Proof.Machine
end

