-- ==== Sys2Proof/Machine/Filter.lean ====
section
/-! DEFINITION. The Scanline Reconstructor: the predictors (rules R109 to R114), a row's reconstruction (rule R105), its
forward filter (rule R116), and the five record types. -/

namespace Sys2Proof.Machine

/-- The Paeth predictor: the nearest of `a`, `b`, `c` to `a + b - c`, ties to `a`, then `b`, exact (rule R112). -/
def paeth (a b c : Nat) : Nat :=
  let p : Int := (a : Int) + (b : Int) - (c : Int)
  let pa := (p - (a : Int)).natAbs
  let pb := (p - (b : Int)).natAbs
  let pc := (p - (c : Int)).natAbs
  if pa ≤ pb ∧ pa ≤ pc then a else if pb ≤ pc then b else c

/-- `pred(FT, a, b, c)`, exact (rules R105, R115). -/
def predict (t : FilterType) (a b c : Nat) : Nat :=
  match t with
  | .none => 0
  | .sub => a
  | .up => b
  | .avg => (a + b) / 2
  | .paeth => paeth a b c

/-- The predictor of byte `x` from the reconstructed bytes before it and the row above (rule R108). -/
def predictAt (t : FilterType) (d : Nat) (prev cur : List Byte) (x : Nat) : Nat :=
  let (a, b, c) := neighbours d prev cur x
  predict t a.toNat b.toNat c.toNat

/-- `(f + predictor) mod 256` (rules R105, R115). -/
def addPredictor (f : Byte) (q : Nat) : Byte := BitVec.ofNat 8 (f.toNat + q)

/-- Reconstructs the filtered bytes left to right behind the bytes `cur` already reconstructed (rule R105). -/
def unfilterFrom (t : FilterType) (d : Nat) (prev cur : List Byte) : List Byte → List Byte
  | [] => cur
  | f :: fs => unfilterFrom t d prev (cur ++ [addPredictor f (predictAt t d prev cur cur.length)]) fs

/-- A whole row reconstructed. -/
def unfilter (t : FilterType) (d : Nat) (prev filt : List Byte) : List Byte := unfilterFrom t d prev [] filt

/-- The forward filter of rule R116, which the block does not have: byte `x` of `raw` less its predictor. -/
def filterForward (t : FilterType) (d : Nat) (prev raw : List Byte) : List Byte :=
  (List.range raw.length).map fun x => raw.getD x 0 - BitVec.ofNat 8 (predictAt t d prev raw x)

/-- The distance `bpp` of the DECODE in progress (rule R107). -/
def pixelBytes (s : State) : Nat := bpp s.pipe.chan s.pipe.latch.bd.toNat

/-- `CUR` receives the reconstructed row of a record of type `t` (rule R105). -/
def filterRow (t : FilterType) (filt : List Byte) (s : State) : State :=
  { s with pipe := { s.pipe with cur := unfilter t (pixelBytes s) s.pipe.prev filt } }

/-- `NONE` (rule R109). -/
def execRecNone (filt : List Byte) (s : State) : Host.Outcome State Fault Refusal := .next (filterRow .none filt s)

/-- `SUB` (rule R110). -/
def execRecSub (filt : List Byte) (s : State) : Host.Outcome State Fault Refusal := .next (filterRow .sub filt s)

/-- `UP` (rule R111). -/
def execRecUp (filt : List Byte) (s : State) : Host.Outcome State Fault Refusal := .next (filterRow .up filt s)

/-- `AVG` (rule R113). -/
def execRecAvg (filt : List Byte) (s : State) : Host.Outcome State Fault Refusal := .next (filterRow .avg filt s)

/-- `PAETH` (rule R114). -/
def execRecPaeth (filt : List Byte) (s : State) : Host.Outcome State Fault Refusal := .next (filterRow .paeth filt s)

end Sys2Proof.Machine
end

