-- ==== Sys2Proof/Machine/Unpack.lean ====
section
/-! DEFINITION. The Sample Unpacker: unpacking a row and the palette bound check (rules R120 to R124), and the five
modes (rules R125 to R129). -/

namespace Sys2Proof.Machine

/-- `pw` of the pass in progress (rule R132). -/
def rowPixels (s : State) : Nat := passWidth s.pipe.latch.w.toNat s.pipe.geo

/-- `n = pw * C`, the samples of the row (rule R120). -/
def rowSamples (s : State) : Nat := rowPixels s * s.pipe.chan

/-- The first sample of an unpacked row that fails the palette bound check, which is made only when `CT` = 3
(rule R124). -/
def paletteOffender (s : State) (samples : List Sample) : Option Sample :=
  if s.pipe.latch.ct = ColorType.palette.code then firstOutside s.pipe.latch.ps.toNat samples else none

/-- `Unpack(CUR, pw)` at depth `d` (rule R120): the whole row is unpacked and checked before any sample is handed on. -/
def unpackRow (d : Depth) (s : State) : State :=
  let samples := unpackLine d.bits (rowSamples s) s.pipe.cur
  match paletteOffender s samples with
  | some v => raiseInRecord .paletteIndexOutOfRange (v.setWidth 32) s
  | none => { s with pipe := { s.pipe with samples := samples, bitCursor := cursorAt d.bits (rowSamples s) } }

/-- `UNPK1` (rule R125). -/
def execUnpk1 (s : State) : Host.Outcome State Fault Refusal := .next (unpackRow .d1 s)

/-- `UNPK2` (rule R126). -/
def execUnpk2 (s : State) : Host.Outcome State Fault Refusal := .next (unpackRow .d2 s)

/-- `UNPK4` (rule R127). -/
def execUnpk4 (s : State) : Host.Outcome State Fault Refusal := .next (unpackRow .d4 s)

/-- `UNPK8` (rule R128). -/
def execUnpk8 (s : State) : Host.Outcome State Fault Refusal := .next (unpackRow .d8 s)

/-- `UNPK16` (rule R129). -/
def execUnpk16 (s : State) : Host.Outcome State Fault Refusal := .next (unpackRow .d16 s)

end Sys2Proof.Machine
end

