-- ==== Sys2Proof/Machine/Interlace.lean ====
section
/-! DEFINITION. The Interlace Reassembler: the pass table (rule R131), skipped passes and pass entry (rules R133, R134),
scatter (rule R135), and the two modes (rules R137, R138). -/

namespace Sys2Proof.Machine

/-- `passlist(0)`: the identity tuple (rule R137). -/
def wholeImage : List Pass := [⟨0, 0, 0, 1, 1⟩]

/-- `passlist(1)`: the seven Adam7 passes (rule R131). -/
def adam7Passes : List Pass :=
  [⟨1, 0, 0, 8, 8⟩, ⟨2, 4, 0, 8, 8⟩, ⟨3, 0, 4, 4, 8⟩, ⟨4, 2, 0, 4, 4⟩, ⟨5, 0, 2, 2, 4⟩, ⟨6, 1, 0, 2, 2⟩,
    ⟨7, 0, 1, 1, 2⟩]

/-- `passlist(IL)` (rule R91). -/
def passList : InterlaceMode → List Pass
  | .none => wholeImage
  | .adam7 => adam7Passes

/-- `stride(pw)` of a pass of the DECODE in progress (rules R106, R132). -/
def passStride (s : State) (p : Pass) : Nat :=
  stride s.pipe.chan s.pipe.latch.bd.toNat (passWidth s.pipe.latch.w.toNat p)

/-- `pw = 0` or `ph = 0`: the pass has no record at all (rule R133). -/
def skipped (s : State) (p : Pass) : Bool :=
  passWidth s.pipe.latch.w.toNat p == 0 || passHeight s.pipe.latch.h.toNat p == 0

/-- Enters a pass: `PASS` takes its number, `PREV` is zeroed, the rows start at 0 (rule R134). -/
def enterPass (p : Pass) (rest : List Pass) (s : State) : State :=
  { s with
    regs := { s.regs with pass := BitVec.ofNat 3 p.pno }
    pipe :=
      { s.pipe with
        prev := List.replicate (passStride s p) 0
        geo := p
        later := rest
        py := 0
        stage := .record } }

/-- The last record has completed: `DONE` is set and the command ends (rule R97). Between commands the line buffers hold
any value (93_implementation_defined.md U4, log 12), the unpacked row is gone (rule R51), and the latch, the channel count,
the pass tuple and the row variable keep their last value (DESIGN CHOICE, unsafe, unobservable: log 21). -/
def finishDecode (s : State) : State :=
  setDone true (loseLines { s with pipe := { s.pipe with later := [], stage := .idle } })

/-- Enters the first pass of the list that is not skipped; ends the DECODE when none is left (rules R91, R133). -/
def nextPass : List Pass → State → State
  | [], s => finishDecode s
  | p :: rest, s => if skipped s p then nextPass rest s else enterPass p rest s

/-- The DST writes of one row, pixels left to right and the channels of a pixel ascending, `w` the full image width
(rule R135). -/
def scatterWrites (w chan : Nat) (wide : Bool) (p : Pass) (pw py : Nat) (samples : List Sample) : List DstWrite :=
  (List.range pw).flatMap fun px =>
    (List.range chan).map fun c =>
      { idx := cellIndex w chan (p.xo + px * p.xs) (p.yo + py * p.ys) c
        value := samples.getD (px * chan + c) 0
        wide := wide }

/-- The DST writes of the row in hand (rules R44, R135): `wide` exactly when `BD` = 16. -/
def rowWrites (s : State) : List DstWrite :=
  scatterWrites s.pipe.latch.w.toNat s.pipe.chan (s.pipe.latch.bd == 16#8) s.pipe.geo (rowPixels s) s.pipe.py
    s.pipe.samples

/-- `Scatter(samples, ...)` (rule R135). -/
def scatterRow (s : State) : State := dstPutAll (rowWrites s) s

/-- The mode loads its pass list (rules R91, R137, R138). -/
def loadPasses (m : InterlaceMode) (s : State) : State :=
  { s with pipe := { s.pipe with later := passList m } }

/-- `ILNONE` (rule R137). -/
def execIlNone (s : State) : Host.Outcome State Fault Refusal := .next (loadPasses .none s)

/-- `ILADAM7` (rule R138). -/
def execIlAdam7 (s : State) : Host.Outcome State Fault Refusal := .next (loadPasses .adam7 s)

end Sys2Proof.Machine
end

