-- ==== Sys2Proof/Machine/Sequencer.lean ====
section
/-! DEFINITION. The decode sequencer: the configuration check (rules R92 to R96), the stages of a record (rule R105), and
the command DECODE (rule R91), which runs the stages to its end. -/

namespace Sys2Proof.Machine

/-! ## The start of a DECODE -/

/-- The configuration latch (rule R92). -/
def latchOf (r : Regs) : Latch where
  bd := fmtBD r.fmt
  ct := fmtCT r.fmt
  il := fmtIL r.fmt
  palp := fmtPALP r.fmt
  w := r.width
  h := r.height
  ps := r.palsize
  n := r.slen

/-- `x` is beyond a capacity; never, when it is unbounded (rules R7, R95). -/
def exceeds (x : Nat) (capacity : Option Capacity) : Bool :=
  match capacity with
  | some m => decide (m.size < x)
  | none => false

/-- The configuration check, in the fixed order of rules R94 and R95: the cause and info word of the first test that
fails, or else `C`. -/
def configCheck (p : Params) (l : Latch) : Except (Cause × Word) Nat :=
  match decodeColor l.ct with
  | none => .error (.unsupportedColorType, l.ct.setWidth 32)
  | some color =>
    if !depthAllowed color l.bd then .error (.invalidBitDepth, l.bd.setWidth 32)
    else if l.il ≠ 0#8 ∧ l.il ≠ 1#8 then .error (.unsupportedInterlaceMethod, l.il.setWidth 32)
    else if l.w = 0 then .error (.invalidDimensions, 0)
    else if l.h = 0 then .error (.invalidDimensions, 1)
    else if color = .palette ∧ l.palp = false then .error (.missingRequiredChunk, 0)
    else if exceeds (stride (channels color) l.bd.toNat l.w.toNat) p.maxStride then .error (.capacityExceeded, 0)
    else if exceeds (l.w.toNat * l.h.toNat * channels color) p.maxSamples then .error (.capacityExceeded, 1)
    else .ok (channels color)

/-- `DONE <- 0` and the latch, the first steps of a DECODE that is not ignored (rules R91, R92). -/
def latchOperands (s : State) : State :=
  setDone false { s with pipe := { s.pipe with latch := latchOf s.regs } }

/-- `SPOS`, `PASS` and `ROW` take 0, once the configuration check has passed with `c` channels (rule R96). -/
def initCursors (c : Nat) (s : State) : State :=
  { s with
    regs := { s.regs with spos := 0, pass := 0, row := 0 }
    pipe := { s.pipe with chan := c, stage := .passes } }

/-- A DECODE up to its pass loop: a fault of the configuration check, or the stage `passes` (rules R91 to R96). -/
def startDecode (s : State) : State :=
  match configCheck s.params (latchOf s.regs) with
  | .error (cause, info) => raise cause info (latchOperands s)
  | .ok c => initCursors c (latchOperands s)

/-! ## The stages of a record (rule R105) -/

/-- What a stage or the host gives the machine to do: run `x`, or nothing more than the change to `s`; or the stop of a
latched mode that no table has. -/
inductive Fetched (α : Type) where
  | run (x : α) (s : State)
  | quiet (s : State)
  | stuck (r : Fault)
  deriving Repr

/-- `stride(pw)` of the current pass. -/
def rowStride (s : State) : Nat := passStride s s.pipe.geo

/-- `ROW <- py` and the bit cursor at its start: a record begins (rules R32, R105). -/
def beginRecord (s : State) : State :=
  { s with
    regs := { s.regs with row := BitVec.ofNat 32 s.pipe.py }
    pipe := { s.pipe with bitCursor := ⟨0, 0⟩ } }

/-- The filtered bytes of the record at `SPOS` (rule R105). -/
def recordData (s : State) : List Byte := readBytes s.src (s.regs.spos.toNat + 1) (rowStride s)

/-- Fetches the record at `SPOS` of a record that has begun, with the tests of rule R105 in their order: a missing type
byte, an illegal type, missing data. -/
def fetchAt (s : State) : Fetched DatapathOp :=
  let at' := s.regs.spos.toNat
  let n := s.pipe.latch.n.toNat
  let ft := readByte s.src at'
  if n ≤ at' then .quiet (raiseInRecord .streamUnderrun s.regs.spos s)
  else
    match decodeFilter ft with
    | .error _ => .quiet (raiseInRecord .unsupportedFilterType (ft.setWidth 32) s)
    | .ok t =>
      if n - at' - 1 < rowStride s then .quiet (raiseInRecord .streamUnderrun s.regs.spos s)
      else .run (.filter t (recordData s)) s

/-- Begins and fetches the record at `SPOS`. -/
def fetchRecord (s : State) : Fetched DatapathOp := fetchAt (beginRecord s)

/-- The commit of a record: `PREV` takes the row and `SPOS` steps over the record (rule R105). -/
def commitRecord (s : State) : State :=
  { s with
    regs := { s.regs with spos := s.regs.spos + BitVec.ofNat 32 (1 + rowStride s) }
    pipe := { s.pipe with prev := s.pipe.cur } }

/-- Goes to the next row of the pass, or past its last row to the next pass (rule R91). -/
def nextRow (s : State) : State :=
  if s.pipe.py + 1 < passHeight s.pipe.latch.h.toNat s.pipe.geo then
    { s with pipe := { s.pipe with py := s.pipe.py + 1, stage := .record } }
  else nextPass s.pipe.later s

/-- The row in hand is scattered and the record committed (rule R105), and the sequencer goes on. -/
def placeRecord (s : State) : State := nextRow (commitRecord (scatterRow s))

/-- What the current stage of a DECODE fetches: the mode from the latch, the record from SRC. -/
def fetchStage (s : State) : Fetched DatapathOp :=
  match s.pipe.stage with
  | .idle => .quiet s
  | .passes =>
    match decodeInterlace s.pipe.latch.il with
    | .ok m => .run (.interlace m) s
    | .error _ => .stuck .illegalMode
  | .record => fetchRecord s
  | .unpack =>
    match decodeDepth s.pipe.latch.bd with
    | .ok d => .run (.unpack d) s
    | .error _ => .stuck .illegalMode
  | .place => .quiet (placeRecord s)

/-- The sequencer's move after a stage's operation: none when it raised a fault (rule R142); else the next stage. -/
def settle (s : State) : State :=
  if s.regs.fault then s
  else
    match s.pipe.stage with
    | .idle => s
    | .passes => nextPass s.pipe.later s
    | .record => { s with pipe := { s.pipe with stage := .unpack } }
    | .unpack => { s with pipe := { s.pipe with stage := .place } }
    | .place => s

/-- The meaning of a data-path operation. -/
def runOp (op : DatapathOp) (s : State) : Host.Outcome State Fault Refusal :=
  match op with
  | .filter .none filt => execRecNone filt s
  | .filter .sub filt => execRecSub filt s
  | .filter .up filt => execRecUp filt s
  | .filter .avg filt => execRecAvg filt s
  | .filter .paeth filt => execRecPaeth filt s
  | .unpack .d1 => execUnpk1 s
  | .unpack .d2 => execUnpk2 s
  | .unpack .d4 => execUnpk4 s
  | .unpack .d8 => execUnpk8 s
  | .unpack .d16 => execUnpk16 s
  | .interlace .none => execIlNone s
  | .interlace .adam7 => execIlAdam7 s

/-- One stage of the DECODE in progress. -/
def stageStep (s : State) : Host.Outcome State Fault Refusal :=
  match fetchStage s with
  | .run op s' => onNext (runOp op s') settle
  | .quiet s' => .next s'
  | .stuck r => .fault r

/-! ## DECODE -/

/-- The scanline records of a list of passes: `ph` for each that is not skipped (rule R139). -/
def passRecords (s : State) : List Pass → Nat
  | [] => 0
  | p :: rest => (if skipped s p then 0 else passHeight s.pipe.latch.h.toNat p) + passRecords s rest

/-- The pass list the latched interlace field selects. -/
def latchedPasses (s : State) : List Pass :=
  match decodeInterlace s.pipe.latch.il with
  | .ok m => passList m
  | .error _ => []

/-- The stages a DECODE in progress still has to run if nothing faults: one for the pass list and three for each record
(rule R101). -/
def stagesLeft (s : State) : Nat :=
  let rows := passHeight s.pipe.latch.h.toNat s.pipe.geo - s.pipe.py
  match s.pipe.stage with
  | .idle => 0
  | .passes => 1 + 3 * passRecords s (latchedPasses s)
  | .record => 3 * rows + 3 * passRecords s s.pipe.later
  | .unpack => 3 * rows - 1 + 3 * passRecords s s.pipe.later
  | .place => 3 * rows - 2 + 3 * passRecords s s.pipe.later

/-- Runs stages until the DECODE has ended, at most `k` of them. -/
def runStages : Nat → State → Host.Outcome State Fault Refusal
  | 0, s => .next s
  | k + 1, s =>
    if s.pipe.stage = .idle then .next s
    else
      match stageStep s with
      | .next s' => runStages k s'
      | .fault r => .fault r
      | .refused r => .refused r

/-- `DECODE` (rule R91), atomic to the host (rules R51, R90): ignored in the faulted state; else the configuration check,
and then the stages of every record of every pass. -/
def execDecode (s : State) : Host.Outcome State Fault Refusal :=
  if s.regs.fault then .next s else runStages (stagesLeft (startDecode s)) (startDecode s)

end Sys2Proof.Machine
end

