-- ==== Sys2Proof/Machine/Dispatch.lean ====
section
/-! DEFINITION. The meaning of each instruction, one arm per constructor. -/

namespace Sys2Proof.Machine

/-- What an instruction does. -/
def exec (i : Instr) (s : State) : Host.Outcome State Fault Refusal :=
  match i with
  | .nop => Sys2Proof.Machine.execNop s
  | .reset => Sys2Proof.Machine.execReset s
  | .crcchk => Sys2Proof.Machine.execCrcchk s
  | .decode => Sys2Proof.Machine.execDecode s
  | .recNone filt => Sys2Proof.Machine.execRecNone filt s
  | .recSub filt => Sys2Proof.Machine.execRecSub filt s
  | .recUp filt => Sys2Proof.Machine.execRecUp filt s
  | .recAvg filt => Sys2Proof.Machine.execRecAvg filt s
  | .recPaeth filt => Sys2Proof.Machine.execRecPaeth filt s
  | .unpk1 => Sys2Proof.Machine.execUnpk1 s
  | .unpk2 => Sys2Proof.Machine.execUnpk2 s
  | .unpk4 => Sys2Proof.Machine.execUnpk4 s
  | .unpk8 => Sys2Proof.Machine.execUnpk8 s
  | .unpk16 => Sys2Proof.Machine.execUnpk16 s
  | .ilNone => Sys2Proof.Machine.execIlNone s
  | .ilAdam7 => Sys2Proof.Machine.execIlAdam7 s

end Sys2Proof.Machine
end

