-- ==== Sys2Proof/Machine/Fetch.lean ====
section
/-! DEFINITION. What the machine does next: a host action when no command is in progress (rules R11, R90), else the next
stage of the DECODE in progress; and how an instruction is put where it is fetched next. -/

namespace Sys2Proof.Machine

/-- A word is returned to the host (rule R11). -/
def reply (v : Word) (s : State) : State := { s with replies := v :: s.replies }

/-- What a host read of a DST cell returns: its value, or a free value when nothing has written it (log 5). -/
def dstReply (s : State) (idx : Nat) : Word := ((dstCell s.dst idx).getD (Config.freeCell idx)).setWidth 32

/-- The command a write of `v` to `CMD` starts (rules R13, R90). -/
def hostCommand (v : Word) (s : State) : Fetched Instr :=
  match decodeCommand v with
  | .ok i => .run i s
  | .error _ => .quiet (illegalCommand v s)

/-- One action of the host (rules R11, R40, R170). -/
def hostAct (a : HostAction) (s : State) : Fetched Instr :=
  match a with
  | .regRead n => .quiet (reply (regRead s n) s)
  | .regWrite n v => if n = 1 then hostCommand v s else .quiet (regWrite n v s)
  | .srcWrite a b => .quiet { s with src := writeByte s.src a.toNat b }
  | .chkWrite a b => .quiet { s with chk := writeByte s.chk a.toNat b }
  | .dstWrite idx v => .quiet { s with dst := putCell idx v s.dst }
  | .dstRead idx => .quiet (reply (dstReply s idx) s)
  | .powerOn => .quiet (resetBlock s)

/-- The next action of the host, in the order the host issues them; nothing happens when there is none (rules R11,
R171). -/
def fetchHost (s : State) : Fetched Instr :=
  match s.pending with
  | [] => .quiet s
  | a :: rest => hostAct a { s with pending := rest }

/-- A stage's operation as the instruction it is. -/
def asInstr : Fetched DatapathOp → Fetched Instr
  | .run op s => .run op.instr s
  | .quiet s => .quiet s
  | .stuck r => .stuck r

/-- What the machine does next. -/
def fetch (s : State) : Fetched Instr :=
  match s.pipe.stage with
  | .idle => fetchHost s
  | .passes => asInstr (fetchStage s)
  | .record => asInstr (fetchStage s)
  | .unpack => asInstr (fetchStage s)
  | .place => asInstr (fetchStage s)

/-! ## Putting an instruction where it is fetched next (log 8, log 9) -/

/-- Writes the bytes of a list at rising addresses. -/
def writeBytes (m : Memory) (a : Nat) : List Byte → Memory
  | [] => m
  | b :: bs => writeBytes (writeByte m a b) (a + 1) bs

/-- A command word is written to `CMD` by the host's next action, while no DECODE is in progress. -/
def placeCommand (v : Word) (s : State) : State :=
  { s with
    pipe := { s.pipe with stage := .idle }
    pending := .regWrite 1 v :: s.pending }

/-- A DECODE of one gray row is in progress, at a stage, with the first record still at SRC address 0. -/
def inDecode (l : Latch) (stage : Stage) (s : State) : State :=
  { s with
    regs := { s.regs with done := false, spos := 0 }
    pipe :=
      { s.pipe with latch := l, chan := 1, geo := ⟨0, 0, 0, 1, 1⟩, later := [], py := 0, stage := stage } }

/-- A record stands at SRC address 0 in front of a DECODE of one gray row of depth 8, as wide as the record's data. -/
def placeRecordBytes (bytes : List Byte) (s : State) : State :=
  let pixels := BitVec.ofNat 32 (bytes.length - 1)
  inDecode ⟨8, 0, 0, false, pixels, 1, 0, BitVec.ofNat 32 bytes.length⟩ .record
    { s with src := writeBytes s.src 0 bytes }

/-- A gray row of one pixel, whose depth is the field given, is unpacked next. -/
def placeDepth (fmt : Word) (s : State) : State :=
  inDecode ⟨fmtBD (fmtStored fmt), 0, 0, false, 1, 1, 0, 3⟩ .unpack s

/-- The interlace field given is latched for a gray image of one pixel, and its pass list is loaded next. -/
def placeInterlace (fmt : Word) (s : State) : State :=
  inDecode ⟨8, 0, fmtIL (fmtStored fmt), false, 1, 1, 0, 2⟩ .passes s

/-- The encoded instruction stands where the next step fetches. -/
def placeEncoded (e : Encoded) (s : State) : State :=
  match e with
  | .command v => placeCommand v s
  | .record bytes => placeRecordBytes bytes s
  | .depthField fmt => placeDepth fmt s
  | .interlaceField fmt => placeInterlace fmt s

end Sys2Proof.Machine
end

