-- ==== Sys2Proof/Machine/Step.lean ====
section
/-! DEFINITION. One step of the machine, and the state in which the next step runs a given word of the opcode table. -/

namespace Sys2Proof.Machine

/-- What a fetch leads to: its instruction is executed, and inside a DECODE the sequencer moves on; where there is no
instruction to run, the fetch's own change is the step. -/
def execFetched (f : Fetched Instr) : Host.Outcome State Fault Refusal :=
  match f with
  | .run i s => onNext (exec i s) settle
  | .quiet s => .next s
  | .stuck r => .fault r

/-- One step. -/
def step (s : State) : Host.Outcome State Fault Refusal := execFetched (fetch s)

/-- `s` with the opcode table's word `w` of `nbits` bits where `step` fetches its next instruction (log 8, log 9). -/
def State.withFetchWord (s : State) (nbits w : Nat) : State := placeEncoded (tableWord nbits w) s

end Sys2Proof.Machine
end

