-- ==== Sys2Proof/Safety.lean ====
section
/-! DEFINITION. The terms the claims use: a sound state, a ready host, the frames of the instructions, the plan of a
DECODE's records, the loops of rule R91, and the configuration check in plain numbers. -/

namespace Sys2Proof.Safety

open Sys2Proof.Machine

/-! ## Sound states -/

/-- The status registers agree: a code is recorded exactly in the faulted state, the code is one of the table, and the info
word is 0 when no fault is recorded (rules R15, R16, R141). That `DONE` and `FAULT` are never both 1 (rule R14) is no part
of it: log 20. -/
structure StatusSound (r : Regs) : Prop where
  codeIffFault : r.fault = true ↔ r.fcode ≠ 0
  codeInTable : r.fcode.toNat ≤ 12
  infoOfCode : r.fcode = 0 → r.finfo = 0

/-- The latched configuration has passed the configuration check with `C` channels (rules R94, R95). -/
def Configured (s : State) : Prop := configCheck s.params s.pipe.latch = .ok s.pipe.chan

/-- The current pass is one of the pass list and is not skipped, and the row is one of its rows (rules R91, R133). -/
structure PassSound (s : State) : Prop where
  known : s.pipe.geo ∈ latchedPasses s
  entered : skipped s s.pipe.geo = false
  laterKnown : ∀ p ∈ s.pipe.later, p ∈ latchedPasses s
  rowInPass : s.pipe.py < passHeight s.pipe.latch.h.toNat s.pipe.geo

/-- A whole record stands at `SPOS` (rule R105). -/
def RecordFits (s : State) : Prop := s.regs.spos.toNat + 1 + rowStride s ≤ s.pipe.latch.n.toNat

/-- What holds between commands, where no row is kept (rule R51), and at each stage of a DECODE (rules R20, R31, R91,
R105). -/
def StageSound (s : State) : Prop :=
  match s.pipe.stage with
  | .idle => s.pipe.samples = []
  | .passes => s.regs.done = false ∧ s.regs.fault = false ∧ Configured s ∧ s.regs.spos = 0
  | .record =>
    s.regs.done = false ∧ s.regs.fault = false ∧ Configured s ∧ PassSound s ∧
      s.regs.spos.toNat ≤ s.pipe.latch.n.toNat ∧ s.pipe.prev.length = rowStride s
  | .unpack =>
    s.regs.done = false ∧ s.regs.fault = false ∧ Configured s ∧ PassSound s ∧ RecordFits s ∧
      s.pipe.cur.length = rowStride s
  | .place =>
    s.regs.done = false ∧ s.regs.fault = false ∧ Configured s ∧ PassSound s ∧ RecordFits s ∧
      s.pipe.cur.length = rowStride s ∧ s.pipe.samples.length = rowSamples s

/-- A sound state: the spaces are in canonical form, the status registers agree, and a DECODE in progress stands where
its stage says. -/
structure Sound (s : State) : Prop where
  src : memoryWf s.src
  chk : memoryWf s.chk
  dst : dstWf s.dst
  status : StatusSound s.regs
  stage : StageSound s

/-! ## A ready host (rule R177) -/

/-- The register part of rule R177 before DECODE: not faulted, and a configuration that the block accepts. -/
def readyForDecode (s : State) : Bool :=
  !s.regs.fault &&
    match configCheck s.params (latchOf s.regs) with
    | .ok _ => true
    | .error _ => false

/-- The register part of rule R177 before CRCCHK: not faulted, and a whole chunk record at `CPOS`. -/
def readyForCrcchk (s : State) : Bool := !s.regs.fault && chunkFits s

/-! ## Frames -/

/-- The four spaces' side and the host's side of two states agree: SRC, CHK, DST and its port, what the host still has to
do and what it was told, the parameters. -/
structure OutsideKept (s t : State) : Prop where
  params : t.params = s.params
  src : t.src = s.src
  chk : t.chk = s.chk
  dst : t.dst = s.dst
  dstLog : t.dstLog = s.dstLog
  pending : t.pending = s.pending
  replies : t.replies = s.replies

/-- Byte `x` of a line as a number, 0 outside it. -/
def byteAt (line : List Byte) (x : Nat) : Nat := (line.getD x 0).toNat

/-- The byte `d` to the left of byte `x`, 0 outside the row (rule R108). -/
def byteLeft (d : Nat) (line : List Byte) (x : Nat) : Nat := if x < d then 0 else byteAt line (x - d)

/-- The outcome is a next state that differs from `s` in `CUR` only, and `CUR` holds as many bytes as the record, each the
filtered byte plus the predictor `q` of the row and the position, modulo 256 (rules R105, R115). -/
def Reconstructs (filt : List Byte) (q : List Byte → Nat → Nat) (s : State)
    (o : Host.Outcome State Fault Refusal) : Prop :=
  ∃ t, o = .next t ∧ t = { s with pipe := { s.pipe with cur := t.pipe.cur } } ∧
    t.pipe.cur.length = filt.length ∧
    ∀ x < filt.length, byteAt t.pipe.cur x = (byteAt filt x + q t.pipe.cur x) % 256

/-- The outcome is a next state that differs from `s` in the row handed on and in the bit cursor only, and the row's `n`
samples are those `f` gives (rule R120). -/
def Unpacks (f : Nat → Nat) (s : State) (o : Host.Outcome State Fault Refusal) : Prop :=
  ∃ t, o = .next t ∧
    t = { s with pipe := { s.pipe with samples := t.pipe.samples, bitCursor := t.pipe.bitCursor } } ∧
    t.pipe.samples.length = rowSamples s ∧
    ∀ k < rowSamples s, (t.pipe.samples.getD k 0).toNat = f k

/-- The outcome is a next state in which `PaletteIndexOutOfRange(v)` is recorded and the command has ended, with every
other register and everything outside the block as in `s` (rules R124, R142, R145). -/
def PaletteFaults (v : Nat) (s : State) (o : Host.Outcome State Fault Refusal) : Prop :=
  ∃ t, o = .next t ∧ t.regs = { s.regs with fault := true, fcode := 7, finfo := BitVec.ofNat 32 v } ∧
    t.pipe.stage = .idle ∧ OutsideKept s t

/-- An unpack mode as its rule gives it: the samples `f`, when the image has no palette or every sample is an index of it;
else the fault with the first sample that is none (rules R120, R124). -/
def UnpackMode (f : List Byte → Nat → Nat) (i : Instr) (s : State) : Prop :=
  ((s.pipe.latch.ct = 3 → ∀ k < rowSamples s, f s.pipe.cur k < s.pipe.latch.ps.toNat) →
      Unpacks (f s.pipe.cur) s (exec i s)) ∧
    ∀ k < rowSamples s, s.pipe.latch.ct = 3 → s.pipe.latch.ps.toNat ≤ f s.pipe.cur k →
      (∀ j < k, f s.pipe.cur j < s.pipe.latch.ps.toNat) → PaletteFaults (f s.pipe.cur k) s (exec i s)

/-- Bit `o` of a row, counted from the most significant bit of its first byte (rule R121). -/
def rowBit (line : List Byte) (o : Nat) : Bool := (line.getD (o / 8) 0).getLsbD (7 - o % 8)

/-! ## The records of a DECODE (rules R91, R133, R139) -/

/-- The pass list of a latched configuration. -/
def latchPasses (l : Latch) : List Pass :=
  match decodeInterlace l.il with
  | .ok m => passList m
  | .error _ => []

/-- The records a DECODE reads, in stream order: each row of each pass that is not skipped. -/
def recordPlan (l : Latch) : List (Pass × Nat) :=
  (latchPasses l).flatMap fun p =>
    if passWidth l.w.toNat p = 0 then [] else (List.range (passHeight l.h.toNat p)).map fun py => (p, py)

/-- The size in bytes of a record of the plan (rule R70). -/
def recordSize (c : Nat) (l : Latch) (q : Pass × Nat) : Nat := 1 + stride c l.bd.toNat (passWidth l.w.toNat q.1)

/-- Where each record of a list starts, when the first starts at `o` (rule R63: no gap). -/
def recordStarts (c : Nat) (l : Latch) (o : Nat) : List (Pass × Nat) → List Nat
  | [] => []
  | q :: qs => o :: recordStarts c l (o + recordSize c l q) qs

/-- `need`: the bytes of SRC the whole image takes (rule R139). -/
def streamNeed (c : Nat) (l : Latch) : Nat := ((recordPlan l).map (recordSize c l)).sum

/-- The reconstructed rows of a list of records, when the first starts at `o` of the stream and `prev` is the row before it:
the row above is all zeros on the first row of a pass (rules R105, R134). -/
def reconstructedRows (c : Nat) (l : Latch) (src : Memory) (o : Nat) (prev : List Byte) :
    List (Pass × Nat) → List (Pass × List Byte)
  | [] => []
  | q :: qs =>
    let st := stride c l.bd.toNat (passWidth l.w.toNat q.1)
    let above := if q.2 = 0 then List.replicate st 0 else prev
    match decodeFilter (readByte src o) with
    | .error _ => []
    | .ok t =>
      let row := unfilter t (bpp c l.bd.toNat) above (readBytes src (o + 1) st)
      (q.1, row) :: reconstructedRows c l src (o + recordSize c l q) row qs

/-- Every sample of every record of a DECODE is an index of the palette (rules R120, R124). -/
def indicesInPalette (c : Nat) (l : Latch) (src : Memory) : Prop :=
  ∀ q ∈ reconstructedRows c l src 0 [] (recordPlan l), ∀ k < passWidth l.w.toNat q.1 * c,
    sample l.bd.toNat q.2 k < l.ps.toNat

/-- The distance `bpp` of the DECODE in progress, in plain numbers (rule R107). -/
def pixelDistance (s : State) : Nat := max 1 (s.pipe.chan * s.pipe.latch.bd.toNat / 8)

/-! ## The loops of rule R91 -/

/-- `Scanline(...)` as rule R105 writes it: `.error` where it raises, `.ok` where the record is committed. -/
def scanlineLoop (l : Latch) (c : Nat) (p : Pass) (py : Nat) (s0 : State) : Except State State :=
  let s := { s0 with regs := { s0.regs with row := BitVec.ofNat 32 py } }
  let start := s.regs.spos.toNat
  let bd := l.bd.toNat
  let pw := passWidth l.w.toNat p
  let st := stride c bd pw
  let ft := readByte s.src start
  if l.n.toNat ≤ start then .error (raise .streamUnderrun s.regs.spos s)
  else
    match decodeFilter ft with
    | .error _ => .error (raise .unsupportedFilterType (ft.setWidth 32) s)
    | .ok t =>
      if l.n.toNat - start - 1 < st then .error (raise .streamUnderrun s.regs.spos s)
      else
        let row := unfilter t (bpp c bd) s.pipe.prev (readBytes s.src (start + 1) st)
        let samples := unpackLine bd (pw * c) row
        match if l.ct = 3#8 then firstOutside l.ps.toNat samples else none with
        | some v => .error (raise .paletteIndexOutOfRange (v.setWidth 32) s)
        | none =>
          let s := dstPutAll (scatterWrites l.w.toNat c (bd == 16) p pw py samples) s
          .ok
            { s with
              regs := { s.regs with spos := s.regs.spos + BitVec.ofNat 32 (1 + st) }
              pipe := { s.pipe with prev := row } }

/-- The row loop: `k` rows from row `py`. -/
def rowsLoop (l : Latch) (c : Nat) (p : Pass) : Nat → Nat → State → Except State State
  | 0, _, s => .ok s
  | k + 1, py, s =>
    match scanlineLoop l c p py s with
    | .error t => .error t
    | .ok t => rowsLoop l c p k (py + 1) t

/-- The pass loop. -/
def passesLoop (l : Latch) (c : Nat) : List Pass → State → Except State State
  | [], s => .ok s
  | p :: rest, s =>
    if passWidth l.w.toNat p = 0 ∨ passHeight l.h.toNat p = 0 then passesLoop l c rest s
    else
      let zeros := List.replicate (stride c l.bd.toNat (passWidth l.w.toNat p)) 0#8
      match
        rowsLoop l c p (passHeight l.h.toNat p) 0
          { s with
            regs := { s.regs with pass := BitVec.ofNat 3 p.pno }
            pipe := { s.pipe with prev := zeros } } with
      | .error t => .error t
      | .ok t => passesLoop l c rest t

/-- DECODE as rule R91 writes it, as loops, for a state that is not faulted: what it leaves in the registers and in DST. -/
def decodeLoop (s : State) : State :=
  let l := latchOf s.regs
  match configCheck s.params l with
  | .error (cause, v) => raise cause v (setDone false s)
  | .ok c =>
    match
      passesLoop l c (latchPasses l)
        { s with regs := { s.regs with done := false, spos := 0, pass := 0, row := 0 } } with
    | .error t => t
    | .ok t => setDone true t

/-! ## The configuration check in plain numbers (rules R93, R94, R95) -/

/-- `channels(CT)` by code. -/
def channelsByCode (ct : Nat) : Nat :=
  if ct = 2 then 3 else if ct = 4 then 2 else if ct = 6 then 4 else 1

/-- `allowed(CT)` by code. -/
def allowedByCode (ct : Nat) : List Nat :=
  if ct = 0 then [1, 2, 4, 8, 16] else if ct = 3 then [1, 2, 4, 8] else [8, 16]

/-- `x` is beyond a capacity, which may be unbounded. -/
def beyond (x : Nat) (capacity : Option Capacity) : Prop := ∃ m, capacity = some m ∧ m.size < x

/-- The first test of rules R94 and R95 that fails gives `FCODE` and `FINFO`; a configuration that fails none is legal. -/
inductive ConfigVerdict (p : Params) (bd ct il palp w h : Nat) : Option (Nat × Nat) → Prop where
  | color : ct ∉ [0, 2, 3, 4, 6] → ConfigVerdict p bd ct il palp w h (some (3, ct))
  | depth : ct ∈ [0, 2, 3, 4, 6] → bd ∉ allowedByCode ct → ConfigVerdict p bd ct il palp w h (some (4, bd))
  | interlace : ct ∈ [0, 2, 3, 4, 6] → bd ∈ allowedByCode ct → il ∉ [0, 1] →
      ConfigVerdict p bd ct il palp w h (some (5, il))
  | width : ct ∈ [0, 2, 3, 4, 6] → bd ∈ allowedByCode ct → il ∈ [0, 1] → w = 0 →
      ConfigVerdict p bd ct il palp w h (some (9, 0))
  | height : ct ∈ [0, 2, 3, 4, 6] → bd ∈ allowedByCode ct → il ∈ [0, 1] → w ≠ 0 → h = 0 →
      ConfigVerdict p bd ct il palp w h (some (9, 1))
  | noPalette : ct = 3 → bd ∈ allowedByCode ct → il ∈ [0, 1] → w ≠ 0 → h ≠ 0 → palp = 0 →
      ConfigVerdict p bd ct il palp w h (some (8, 0))
  | strideTooLong : ct ∈ [0, 2, 3, 4, 6] → bd ∈ allowedByCode ct → il ∈ [0, 1] → w ≠ 0 → h ≠ 0 →
      ¬(ct = 3 ∧ palp = 0) → beyond ((w * channelsByCode ct * bd + 7) / 8) p.maxStride →
      ConfigVerdict p bd ct il palp w h (some (10, 0))
  | tooManySamples : ct ∈ [0, 2, 3, 4, 6] → bd ∈ allowedByCode ct → il ∈ [0, 1] → w ≠ 0 → h ≠ 0 →
      ¬(ct = 3 ∧ palp = 0) → ¬beyond ((w * channelsByCode ct * bd + 7) / 8) p.maxStride →
      beyond (w * h * channelsByCode ct) p.maxSamples → ConfigVerdict p bd ct il palp w h (some (10, 1))
  | legal : ct ∈ [0, 2, 3, 4, 6] → bd ∈ allowedByCode ct → il ∈ [0, 1] → w ≠ 0 → h ≠ 0 →
      ¬(ct = 3 ∧ palp = 0) → ¬beyond ((w * channelsByCode ct * bd + 7) / 8) p.maxStride →
      ¬beyond (w * h * channelsByCode ct) p.maxSamples → ConfigVerdict p bd ct il palp w h none

/-- The verdict on the registers of a state: the fields of `FMT` are bits 7:0, 15:8, 23:16 and 24 of it (rules R19,
R92). -/
def verdictOf (s : State) : Option (Nat × Nat) → Prop :=
  ConfigVerdict s.params (s.regs.fmt.toNat % 256) (s.regs.fmt.toNat / 256 % 256) (s.regs.fmt.toNat / 65536 % 256)
    (s.regs.fmt.toNat / 16777216) s.regs.width.toNat s.regs.height.toNat

end Sys2Proof.Safety
end

