-- ==== Sys2Proof/Certificates/Slice0/Obligations.lean ====
section
/-! DEFINITION. The statements for the provers: what the numbered rules of the spec say that the instructions and the
machine do. -/

open Sys2Proof Sys2Proof.Machine Sys2Proof.Safety

/-! ## Encodings -/

/-- Decoding an encoded instruction gives it back, whatever the fields of `FMT` that the instruction does not use hold, and
with every data byte of a record (rules R61 to R66). -/
def Obligations.DecodeUndoesEncode : Prop := ∀ fmt i, decode (encodeIn fmt i) = .ok i

/-- A record is read off the front of a stream and the next one begins at the byte after it (rules R63, R70). -/
def Obligations.RecordsFollowWithNoGap : Prop :=
  ∀ (t : FilterType) (filt rest : List Byte),
    decodeRecord filt.length (t.code :: (filt ++ rest)) = .ok (t.record filt, rest)

/-- Encodings outside the tables. A command word, a filter-type byte, a depth and an interlace method outside theirs are
each rejected under a name of their own. A colour type outside its table decodes to none, and a depth that its colour type
does not allow is found not allowed; the names of their faults are no part of this statement (rules R66, R69, R93). -/
def Obligations.IllegalEncodingsAreRejected : Prop :=
  (∀ v : Word, 3 < v.toNat → decodeCommand v = .error (.illegalCommand v)) ∧
    (∀ b : Byte, 4 < b.toNat → decodeFilter b = .error (.unsupportedFilterType b)) ∧
    (∀ b : Byte, b.toNat ∉ [1, 2, 4, 8, 16] → decodeDepth b = .error (.invalidBitDepth b)) ∧
    (∀ b : Byte, 1 < b.toNat → decodeInterlace b = .error (.unsupportedInterlaceMethod b)) ∧
    (∀ ct : Byte, ct.toNat ∉ [0, 2, 3, 4, 6] → decodeColor ct = none) ∧
    ∀ (ct bd : Byte) (c : ColorType), decodeColor ct = some c → bd.toNat ∉ allowedByCode ct.toNat →
      depthAllowed c bd = false

/-- A few words written out from the tables of rules R62, R64 and R66 decode to what they stand for. -/
def Obligations.WordsOfTheTablesDecode : Prop :=
  decode (.command 0x00000003#32) = .ok .decode ∧
    decode (.record [0x03#8, 0xC8#8, 0x05#8]) = .ok (.recAvg [0xC8#8, 0x05#8]) ∧
    decode (.depthField 0x01010302#32) = .ok .unpk2 ∧ decode (.interlaceField 0x01010302#32) = .ok .ilAdam7

/-- The fields of the word `fmt BD, CT, IL, PALP` read back from `FMT` (rules R19, R71). -/
def Obligations.FmtFieldsReadBack : Prop :=
  ∀ bd ct il palp,
    fmtBD (fmtStored (fmtWord bd ct il palp)) = bd ∧ fmtCT (fmtStored (fmtWord bd ct il palp)) = ct ∧
      fmtIL (fmtStored (fmtWord bd ct il palp)) = il ∧ fmtPALP (fmtStored (fmtWord bd ct il palp)) = palp

/-! ## The register port and reset -/

/-- `ID` reads its constant in every state and no write changes anything (rule R12). -/
def Obligations.IdentityIsHardWired : Prop :=
  (∀ s, regRead s 0 = 0x504E4701#32) ∧ (∀ v s, regWrite 0 v s = s) ∧
    ∀ i s t, exec i s = .next t → regRead t 0 = 0x504E4701#32

/-- Every register number reads the register it names: `STATUS` is `DONE` + 2 `FAULT` + 4 `CRCOK`, narrower registers read
with zeros above, and `CMD` and the numbers above 18 read 0. A write of any register but `CMD` stores into the seven RW
registers, `FMT` masked to 25 bits, changes no other register, and leaves the hidden state and everything outside the
block alone (rules R11 to R30). A write of `CMD` runs a command (rule R13) and is not meant here. -/
def Obligations.RegisterWritesReadBack : Prop :=
  (∀ s,
    regRead s 0 = 0x504E4701#32 ∧ regRead s 1 = 0 ∧
      (regRead s 2).toNat = s.regs.done.toNat + 2 * s.regs.fault.toNat + 4 * s.regs.crcOk.toNat ∧
      (regRead s 3).toNat = s.regs.fcode.toNat ∧ regRead s 4 = s.regs.finfo ∧ regRead s 5 = s.regs.width ∧
      regRead s 6 = s.regs.height ∧ (regRead s 7).toNat = s.regs.fmt.toNat ∧ regRead s 8 = s.regs.palsize ∧
      regRead s 9 = s.regs.slen ∧ regRead s 10 = s.regs.spos ∧ (regRead s 11).toNat = s.regs.pass.toNat ∧
      regRead s 12 = s.regs.row ∧ regRead s 13 = s.regs.clen ∧ regRead s 14 = s.regs.cpos ∧
      regRead s 15 = s.regs.ctype ∧ regRead s 16 = s.regs.clength ∧ regRead s 17 = s.regs.ccrc ∧
      regRead s 18 = s.regs.cstored ∧ ∀ n, 18 < n → regRead s n = 0) ∧
    ∀ n v s m, n ≠ 1 →
      regRead (regWrite n v s) m =
          (if m = n ∧ n ∈ [5, 6, 8, 9, 13, 14] then v
          else if m = n ∧ n = 7 then v &&& 0x01FFFFFF#32 else regRead s m) ∧
        regWrite n v s = { s with regs := (regWrite n v s).regs }

/-- While no command is in progress, a step takes the host's next action. A register read returns the register and changes
nothing else, and a write of a register other than `CMD` is that write (rule R11). A byte put into SRC or CHK, or a value
put into a DST cell, reads back and leaves every other byte or cell alone, and nothing else changes; a read of a DST cell
returns its value, and any value when nothing has written it (rules R40, R54, R96). That the host's actions stand in a
list (logs 9 and 17) and that an unwritten cell reads as a free value (log 5) is the model's choice. -/
def Obligations.HostActionsTakeOneStep : Prop :=
  ∀ s rest, s.pipe.stage = .idle →
    (∀ n, s.pending = .regRead n :: rest →
        step s = .next { s with pending := rest, replies := regRead s n :: s.replies }) ∧
      (∀ n v, s.pending = .regWrite n v :: rest → n ≠ 1 → step s = .next (regWrite n v { s with pending := rest })) ∧
      (∀ a b, s.pending = .srcWrite a b :: rest →
        ∃ m, step s = .next { s with pending := rest, src := m } ∧
          (memoryWf s.src → ∀ x, readByte m x = if x = a.toNat then b else readByte s.src x)) ∧
      (∀ a b, s.pending = .chkWrite a b :: rest →
        ∃ m, step s = .next { s with pending := rest, chk := m } ∧
          (memoryWf s.chk → ∀ x, readByte m x = if x = a.toNat then b else readByte s.chk x)) ∧
      (∀ idx v, s.pending = .dstWrite idx v :: rest →
        ∃ m, step s = .next { s with pending := rest, dst := m } ∧
          ∀ x, dstCell m x = if x = idx then some v else dstCell s.dst x) ∧
      ∀ idx, s.pending = .dstRead idx :: rest →
        ∃ v, step s = .next { s with pending := rest, replies := v :: s.replies } ∧
          ∀ x, dstCell s.dst idx = some x → v = x.setWidth 32

/-- RESET, the command word 1, in any state: every register reads its reset value, the flags are cleared, no command is in
progress; CHK, SRC and DST keep their contents (rules R99, R38). -/
def Obligations.ResetRestoresRegisters : Prop :=
  decode (.command 0x00000001#32) = .ok .reset ∧
    ∀ s, ∃ t, exec .reset s = .next t ∧ (∀ n, regRead t n = if n = 0 then 0x504E4701#32 else 0) ∧
    t.regs.done = false ∧ t.regs.fault = false ∧ t.regs.crcOk = false ∧ t.pipe.stage = .idle ∧ OutsideKept s t

/-- Power-on reset and the command RESET have the same effect (rule R170), for a power-on reset that the host issues between
commands: that it is an action of the host and lands there is the model's choice (log 17). -/
def Obligations.PowerOnIsReset : Prop :=
  ∀ s rest, s.pipe.stage = .idle → s.pending = .powerOn :: rest →
    step s = exec .reset { s with pending := rest } ∧
      ∃ t, step s = .next t ∧ (∀ n, regRead t n = regRead State.reset n) ∧ t.regs = Regs.reset ∧
        OutsideKept { s with pending := rest } t

/-- After reset the block is idle and starts nothing by itself, `STATUS` reads 0, and a DECODE or a CRCCHK issued with the
reset values faults as rule R171 says. -/
def Obligations.IdleAfterReset : Prop :=
  step State.reset = .next State.reset ∧ regRead State.reset 2 = 0 ∧
    (∃ t, step { State.reset with pending := [.regWrite 1 3] } = .next t ∧ t.regs.fault = true ∧
      t.regs.fcode = 4 ∧ t.regs.finfo = 0) ∧
    ∃ t, step { State.reset with pending := [.regWrite 1 2] } = .next t ∧ t.regs.fault = true ∧
      t.regs.fcode = 2 ∧ t.regs.finfo = 0

/-! ## Commands and faults -/

/-- NOP, the command word 0, leaves every state as it was, in the faulted state as well (rule R98). -/
def Obligations.NopChangesNothing : Prop := decode (.command 0x00000000#32) = .ok .nop ∧ ∀ s, exec .nop s = .next s

/-- The dispatch of rule R90: RESET always; in the faulted state nothing; else the command of the word, or `IllegalCommand`.
The write returns when the command has finished: the block is idle again. -/
def Obligations.CommandWordsDispatch : Prop :=
  ∀ s v rest, s.pipe.stage = .idle → s.pending = .regWrite 1 v :: rest →
    (step s =
        if v = 1 then exec .reset { s with pending := rest }
        else if s.regs.fault = true then .next { s with pending := rest }
        else if v = 0 then exec .nop { s with pending := rest }
        else if v = 2 then exec .crcchk { s with pending := rest }
        else if v = 3 then exec .decode { s with pending := rest }
        else .next (raise .illegalCommand v { s with pending := rest })) ∧
      ∃ t, step s = .next t ∧ t.pipe.stage = .idle ∧ t.pending = rest

/-- `raise Name(info)` records the code and the info word, sets `FAULT`, ends the command, and changes nothing else
(rule R142); the codes are those of the fault table, 1 to 12 in its order (rule R141). -/
def Obligations.RaiseRecordsAndEnds : Prop :=
  (∀ c v s,
    (raise c v s).regs = { s.regs with fcode := causeCode c, finfo := v, fault := true } ∧
      (raise c v s).pipe = { s.pipe with stage := .idle } ∧ OutsideKept s (raise c v s)) ∧
    [Cause.crcMismatch, .truncatedChunk, .unsupportedColorType, .invalidBitDepth, .unsupportedInterlaceMethod,
      .unsupportedFilterType, .paletteIndexOutOfRange, .missingRequiredChunk, .invalidDimensions, .capacityExceeded,
      .streamUnderrun, .illegalCommand].map causeCode = [1, 2, 3, 4, 5, 6, 7, 8, 9, 10, 11, 12]

/-- In the faulted state every command but RESET changes no state, reads work, writes of RW registers are stored
(rule R144). -/
def Obligations.FaultedBlockIgnoresCommands : Prop :=
  ∀ s v n rest, s.pipe.stage = .idle → s.regs.fault = true →
    (s.pending = .regWrite 1 v :: rest → v ≠ 1 → step s = .next { s with pending := rest }) ∧
      (s.pending = .regRead n :: rest →
        step s = .next { s with pending := rest, replies := regRead s n :: s.replies }) ∧
      (s.pending = .regWrite n v :: rest → n ≠ 1 →
        step s = .next (regWrite n v { s with pending := rest }) ∧
          (regWrite n v s).regs.fault = true ∧ (regWrite n v s).regs.fcode = s.regs.fcode ∧
          (regWrite n v s).regs.finfo = s.regs.finfo)

/-- Whatever a step does, only the command RESET or power-on reset leaves the faulted state, and while no command is in
progress the recorded fault stays as it is (rules R14, R15, R146). In a sound state, `DONE` and `FAULT` come to be both 1
only where a CRCCHK or an illegal command word follows a DECODE that had set `DONE`, and so never by a DECODE: what holds
of the sentence of rule R14 on the two flags, beside rule R142 (log 20). -/
def Obligations.OnlyResetLeavesTheFaultedState : Prop :=
  (∀ s t, s.regs.fault = true → step s = .next t →
    (s.pipe.stage = .idle ∧ ∃ rest, s.pending = .regWrite 1 1 :: rest ∨ s.pending = .powerOn :: rest) ∨
      (t.regs.fault = true ∧
        (s.pipe.stage = .idle → t.regs.fcode = s.regs.fcode ∧ t.regs.finfo = s.regs.finfo))) ∧
    ∀ s t, Sound s → step s = .next t → t.regs.done = true → t.regs.fault = true →
      s.regs.done = true ∧
        (s.regs.fault = true ∨
          s.pipe.stage = .idle ∧ ∃ v rest, s.pending = .regWrite 1 v :: rest ∧ (v = 2 ∨ 3 < v.toNat))

/-! ## The CRC unit -/

/-- The table form of the CRC, with `T[i]` the eight bit steps on `i`: a byte takes the accumulator to
`T[(acc xor d)[7:0]] xor (acc >> 8)`; and the check values of the CRC and of the table, which fix the polynomial, the bit
order, the initial value and the final inversion (rule R81). -/
def Obligations.CrcHasItsTableForm : Prop :=
  (∀ acc d, crcByte acc d = crcBits 8 (((acc ^^^ d.setWidth 32) &&& 0xFF#32)) ^^^ (acc >>> 8)) ∧
    crc32 [] = 0x00000000#32 ∧ crc32 [0x49, 0x45, 0x4E, 0x44] = 0xAE426082#32 ∧
    crc32 [0x31, 0x32, 0x33, 0x34, 0x35, 0x36, 0x37, 0x38, 0x39] = 0xCBF43926#32 ∧
    crcBits 8 1#32 = 0x77073096#32 ∧ crcBits 8 128#32 = 0xEDB88320#32 ∧ crcBits 8 255#32 = 0x2D02EF8D#32

/-- The truncation check: the fault with `CPOS` as info when fewer than 12 bytes remain or the declared length does not
fit, and then no register but `CRCOK`, `FAULT`, `FCODE` and `FINFO` changes (rule R83). -/
def Obligations.CrcchkFaultsOnTruncation : Prop :=
  ∀ s, s.regs.fault = false →
    let p := s.regs.cpos.toNat
    let n := s.regs.clen.toNat
    (p > n ∨ n - p < 12 ∨ n - p - 12 < (be32List (readBytes s.chk p 4)).toNat) →
      ∃ t, exec .crcchk s = .next t ∧
        t.regs =
          { s.regs with crcOk := false, fault := true, fcode := 2, finfo := s.regs.cpos } ∧
        OutsideKept s t ∧ t.pipe.stage = .idle

/-- A record that fits and whose CRC differs: the four latches hold the record's values, `CPOS` stays, `CRCOK` is 0, and
`CrcMismatch` is raised with the computed CRC (rules R84, R85). -/
def Obligations.CrcchkFaultsOnMismatch : Prop :=
  ∀ s, s.regs.fault = false →
    let p := s.regs.cpos.toNat
    let len := be32List (readBytes s.chk p 4)
    let crc := crc32 (readBytes s.chk (p + 4) (4 + len.toNat))
    let stored := be32List (readBytes s.chk (p + 8 + len.toNat) 4)
    p + 12 + len.toNat ≤ s.regs.clen.toNat → crc ≠ stored →
      ∃ t, exec .crcchk s = .next t ∧
        t.regs =
          { s.regs with
            crcOk := false
            clength := len
            ctype := be32List (readBytes s.chk (p + 4) 4)
            ccrc := crc
            cstored := stored
            fault := true
            fcode := 1
            finfo := crc } ∧
        OutsideKept s t ∧ t.pipe.stage = .idle

/-- A record that fits and whose CRC agrees: the latches hold the record's values, `CPOS` is the first byte after the
record, without wrapping, and `CRCOK` is 1 (rules R84, R86). -/
def Obligations.CrcchkStepsOverAGoodRecord : Prop :=
  ∀ s, s.regs.fault = false →
    let p := s.regs.cpos.toNat
    let len := be32List (readBytes s.chk p 4)
    let crc := crc32 (readBytes s.chk (p + 4) (4 + len.toNat))
    let stored := be32List (readBytes s.chk (p + 8 + len.toNat) 4)
    p + 12 + len.toNat ≤ s.regs.clen.toNat → crc = stored →
      ∃ t, exec .crcchk s = .next t ∧
        t.regs =
          { s.regs with
            crcOk := true
            clength := len
            ctype := be32List (readBytes s.chk (p + 4) 4)
            ccrc := crc
            cstored := stored
            cpos := BitVec.ofNat 32 (p + 12 + len.toNat) } ∧
        t.regs.cpos.toNat = p + 12 + len.toNat ∧ OutsideKept s t ∧ t.pipe.stage = s.pipe.stage

/-- The frame of CRCCHK: everything outside the block stays, and so does every register but those the rule lists as written
(`CRCOK`, `CPOS`, the four latches and, on a fault, `FAULT`, `FCODE` and `FINFO`); the fault registers change only by a
fault of its own; of the hidden state only the accumulator changes, and the command's end (rule R82). -/
def Obligations.CrcchkWritesItsOwnRegistersOnly : Prop :=
  ∀ s t, exec .crcchk s = .next t →
    OutsideKept s t ∧
      t.regs =
        { s.regs with
          crcOk := t.regs.crcOk
          fault := t.regs.fault
          fcode := t.regs.fcode
          finfo := t.regs.finfo
          cpos := t.regs.cpos
          ctype := t.regs.ctype
          clength := t.regs.clength
          ccrc := t.regs.ccrc
          cstored := t.regs.cstored } ∧
      (t.regs.fault = s.regs.fault → t.regs.fcode = s.regs.fcode ∧ t.regs.finfo = s.regs.finfo) ∧
      t.pipe = { s.pipe with crcAcc := t.pipe.crcAcc, stage := t.pipe.stage }

/-- A CRCCHK on an encoded chunk that stands whole at `CPOS` accepts it and latches its type and length (rules R65, R71,
R86). -/
def Obligations.CrcchkAcceptsEncodedChunks : Prop :=
  ∀ s type payload, s.regs.fault = false →
    readBytes s.chk s.regs.cpos.toNat (12 + payload.length) = encodeChunk type payload →
    s.regs.cpos.toNat + 12 + payload.length ≤ s.regs.clen.toNat →
      ∃ t, exec .crcchk s = .next t ∧ t.regs.crcOk = true ∧ t.regs.fault = false ∧ t.regs.ctype = type ∧
        t.regs.clength.toNat = payload.length ∧ t.regs.cpos.toNat = s.regs.cpos.toNat + 12 + payload.length

/-- CHK bytes at or above `CLEN` do not matter to CRCCHK (rules R42, R50). -/
def Obligations.CrcchkReadsBelowClenOnly : Prop :=
  ∀ s (m : Memory), (∀ a < s.regs.clen.toNat, readByte m a = readByte s.chk a) →
    exec .crcchk { s with chk := m } = onNext (exec .crcchk s) fun t => { t with chk := m }

/-! ## DECODE -/

/-- The configuration check in its fixed order: the first test that fails is recorded, `DONE` is 0, and no other register,
no SRC byte and no DST cell changes; a configuration that fails none starts with the three cursors at 0 (rules R94, R95,
R96), and with the fields of `FMT`, `WIDTH`, `HEIGHT`, `PALSIZE` and `SLEN` each in its latch (rule R92). -/
def Obligations.ConfigurationIsCheckedInOrder : Prop :=
  ∀ s, s.regs.fault = false →
    (∀ code info, verdictOf s (some (code, info)) →
        ∃ t, exec .decode s = .next t ∧
          t.regs =
            { s.regs with
              done := false
              fault := true
              fcode := BitVec.ofNat 8 code
              finfo := BitVec.ofNat 32 info } ∧
          OutsideKept s t ∧ t.pipe.stage = .idle) ∧
      (verdictOf s none →
        (startDecode s).regs = { s.regs with done := false, spos := 0, pass := 0, row := 0 } ∧
          (startDecode s).pipe.stage = .passes ∧
          (startDecode s).pipe.chan = channelsByCode (s.regs.fmt.toNat / 256 % 256) ∧
          (startDecode s).pipe.latch.bd.toNat = s.regs.fmt.toNat % 256 ∧
          (startDecode s).pipe.latch.ct.toNat = s.regs.fmt.toNat / 256 % 256 ∧
          (startDecode s).pipe.latch.il.toNat = s.regs.fmt.toNat / 65536 % 256 ∧
          (startDecode s).pipe.latch.palp.toNat = s.regs.fmt.toNat / 16777216 ∧
          (startDecode s).pipe.latch.w = s.regs.width ∧ (startDecode s).pipe.latch.h = s.regs.height ∧
          (startDecode s).pipe.latch.ps = s.regs.palsize ∧ (startDecode s).pipe.latch.n = s.regs.slen ∧
          OutsideKept s (startDecode s)) ∧
      ∃ verdict, verdictOf s verdict

/-- A DECODE always ends: ignored; or with `DONE` and no fault; or with a fault of code 3 to 11 and no `DONE` (rules R97,
R101, R182). -/
def Obligations.DecodeAlwaysEnds : Prop :=
  ∀ s, ∃ t, exec .decode s = .next t ∧
    ((s.regs.fault = true ∧ t = s) ∨
      (s.regs.fault = false ∧ t.pipe.stage = .idle ∧
        ((t.regs.done = true ∧ t.regs.fault = false) ∨
          (t.regs.done = false ∧ t.regs.fault = true ∧ 3 ≤ t.regs.fcode.toNat ∧ t.regs.fcode.toNat ≤ 11))))

/-- What DECODE leaves alone: SRC, CHK, the host's side, the parameters, every register but `DONE`, the fault registers
and the three cursors, and every DST cell beyond the image (rules R40, R91, R135). It also keeps the CRC accumulator, which
has no value of the spec's between commands: the model's choice (log 3). -/
def Obligations.DecodeLeavesTheRestAlone : Prop :=
  ∀ s t, exec .decode s = .next t →
    t.params = s.params ∧ t.src = s.src ∧ t.chk = s.chk ∧ t.pending = s.pending ∧ t.replies = s.replies ∧
      t.pipe.crcAcc = s.pipe.crcAcc ∧
      t.regs =
        { s.regs with
          done := t.regs.done
          fault := t.regs.fault
          fcode := t.regs.fcode
          finfo := t.regs.finfo
          spos := t.regs.spos
          pass := t.regs.pass
          row := t.regs.row } ∧
      ∀ c, configCheck s.params (latchOf s.regs) = .ok c →
        ∀ idx, s.regs.width.toNat * s.regs.height.toNat * c ≤ idx → dstCell t.dst idx = dstCell s.dst idx

/-- DECODE run as stages leaves in the registers, in DST and on the DST port what the pass and row loops of rules R91 and
R105 leave. -/
def Obligations.DecodeIsThePassAndRowLoops : Prop :=
  ∀ s, s.regs.fault = false →
    ∃ t, exec .decode s = .next t ∧ t.regs = (decodeLoop s).regs ∧ t.dst = (decodeLoop s).dst ∧
      t.dstLog = (decodeLoop s).dstLog

/-- A DECODE whose configuration is accepted, whose records all have a legal type byte and all fit in SRC, and whose
samples are all indices of the palette when it has one, sets `DONE` with `SPOS` at the number of bytes consumed and every
cell of the image written (rules R91, R97, R124). -/
def Obligations.DecodeCompletesOnALegalStream : Prop :=
  ∀ s c, s.regs.fault = false → configCheck s.params (latchOf s.regs) = .ok c →
    streamNeed c (latchOf s.regs) ≤ s.regs.slen.toNat →
    (∀ o ∈ recordStarts c (latchOf s.regs) 0 (recordPlan (latchOf s.regs)), (readByte s.src o).toNat ≤ 4) →
    (fmtCT s.regs.fmt = 3 → indicesInPalette c (latchOf s.regs) s.src) →
      ∃ t, exec .decode s = .next t ∧ t.regs.done = true ∧ t.regs.fault = false ∧ t.pipe.stage = .idle ∧
        t.regs.spos.toNat = streamNeed c (latchOf s.regs) ∧
        ∀ idx < s.regs.width.toNat * s.regs.height.toNat * c, (dstCell t.dst idx).isSome = true

/-- A DECODE that sets `DONE` has written every DST cell of the image exactly once and no other cell (rules R48, R97,
R136). -/
def Obligations.DoneMeansEveryCellWrittenOnce : Prop :=
  ∀ s t c, s.regs.fault = false → configCheck s.params (latchOf s.regs) = .ok c → exec .decode s = .next t →
    t.regs.done = true →
      ∃ writes, t.dstLog = writes ++ s.dstLog ∧
        ∀ idx, (writes.map DstWrite.idx).count idx =
          if idx < s.regs.width.toNat * s.regs.height.toNat * c then 1 else 0

/-- After a DECODE that set `DONE`, `SPOS` is the number of bytes consumed, and `PASS` and `ROW` identify the last record
(rules R20, R97, R139). -/
def Obligations.DoneLeavesTheCursorsAtTheEnd : Prop :=
  ∀ s t c, s.regs.fault = false → configCheck s.params (latchOf s.regs) = .ok c → exec .decode s = .next t →
    t.regs.done = true →
      t.regs.spos.toNat = streamNeed c (latchOf s.regs) ∧
        ∃ q, (recordPlan (latchOf s.regs)).getLast? = some q ∧ t.regs.pass = BitVec.ofNat 3 q.1.pno ∧
          t.regs.row = BitVec.ofNat 32 q.2

/-- DECODE, which rule R51 makes atomic to the host, is the run of the machine's own steps from the state in which its
configuration check has ended. That its body is a run of stages, each a step, is the model's reading of the order of rules
R91 and R105 (log 7). -/
def Obligations.DecodeIsARunOfSteps : Prop :=
  ∀ s, s.regs.fault = false →
    ∃ k t, exec .decode s = .next t ∧ Host.Core.run Sys2Proof.core k (startDecode s) = .next t

/-- SRC bytes at or above `SLEN` do not matter to DECODE (rules R41, R50). -/
def Obligations.DecodeReadsBelowSlenOnly : Prop :=
  ∀ s (m : Memory), (∀ a < s.regs.slen.toNat, readByte m a = readByte s.src a) →
    exec .decode { s with src := m } = onNext (exec .decode s) fun t => { t with src := m }

/-- What the line buffers hold before a DECODE changes nothing that any register or DST shows (rule R31). -/
def Obligations.OldLineBuffersAreUnobservable : Prop :=
  ∀ s t prev cur, exec .decode s = .next t →
    ∃ u, exec .decode { s with pipe := { s.pipe with prev := prev, cur := cur } } = .next u ∧ u.regs = t.regs ∧
      OutsideKept t u

/-! ## The stages of a record -/

/-- A step runs the instruction that the bits it fetches decode to: a command word of the host's next transaction, the
record at `SPOS`, the latched depth or interlace field (rules R60, R90, R105); inside a DECODE the sequencer then moves on.
That one step inside a DECODE runs one record or one mode is the model's reading (log 7), and that the host's next
transaction stands loaded in a list is its choice (log 9). -/
def Obligations.StepRunsTheDecodedInstruction : Prop :=
  (∀ s v rest i, s.pipe.stage = .idle → s.pending = .regWrite 1 v :: rest → decode (.command v) = .ok i →
      step s = onNext (exec i { s with pending := rest }) settle) ∧
    (∀ s i, s.pipe.stage = .record → s.regs.spos.toNat + 1 + rowStride s ≤ s.pipe.latch.n.toNat →
      decode (.record (readBytes s.src s.regs.spos.toNat (1 + rowStride s))) = .ok i →
        step s = onNext (exec i (beginRecord s)) settle) ∧
    (∀ s fmt i, s.pipe.stage = .unpack → fmtBD (fmtStored fmt) = s.pipe.latch.bd → decode (.depthField fmt) = .ok i →
      step s = onNext (exec i s) settle) ∧
    ∀ s fmt i, s.pipe.stage = .passes → fmtIL (fmtStored fmt) = s.pipe.latch.il →
      decode (.interlaceField fmt) = .ok i → step s = onNext (exec i s) settle

/-- The tests of a record in their order: a missing type byte, an illegal type, missing data; each is recorded with its
info word, `ROW` is the record's row, and `SPOS`, `PASS` and everything outside the block stay (rules R105, R117, R145). -/
def Obligations.RecordFaultsArePrecise : Prop :=
  ∀ s, s.pipe.stage = .record →
    let start := s.regs.spos.toNat
    let n := s.pipe.latch.n.toNat
    let ft := readByte s.src start
    let faulted := fun (code : BitVec 8) (info : Word) =>
      ∃ t, step s = .next t ∧
        t.regs =
          { s.regs with
            row := BitVec.ofNat 32 s.pipe.py
            fault := true
            fcode := code
            finfo := info } ∧
        OutsideKept s t ∧ t.pipe.stage = .idle
    (n ≤ start → faulted 11 s.regs.spos) ∧
      (start < n → 4 < ft.toNat → faulted 6 (ft.setWidth 32)) ∧
      (start < n → ft.toNat ≤ 4 → n - start - 1 < rowStride s → faulted 11 s.regs.spos)

/-- The move to the next pass enters the first pass that has a column and a row, with `PASS` its number, `PREV` all zeros
over its stride and its rows from 0, and `SPOS`, `ROW` and DST stay; when no pass has both, `DONE` is set, the command has
ended, every other register and everything outside the block stay, and of the hidden state nothing else is said (rules R97,
R106, R133, R134). -/
def Obligations.EmptyPassesAreSkipped : Prop :=
  ∀ s before p rest,
    (∀ q ∈ before, passWidth s.pipe.latch.w.toNat q = 0 ∨ passHeight s.pipe.latch.h.toNat q = 0) →
      (∃ pipe n,
        nextPass before s = { s with regs := { s.regs with done := true }, pipe := pipe, unspec := n } ∧
          pipe.stage = .idle) ∧
        (0 < passWidth s.pipe.latch.w.toNat p → 0 < passHeight s.pipe.latch.h.toNat p →
          nextPass (before ++ p :: rest) s =
            { s with
              regs := { s.regs with pass := BitVec.ofNat 3 p.pno }
              pipe :=
                { s.pipe with
                  prev :=
                    List.replicate
                      ((passWidth s.pipe.latch.w.toNat p * s.pipe.chan * s.pipe.latch.bd.toNat + 7) / 8) 0
                  geo := p
                  later := rest
                  py := 0
                  stage := .record } })

/-- The scatter of a row: sample `px * C + c` goes to the cell of pixel `(xo + px * xs, yo + py * ys)`, channel `c`; every
other cell stays; the writes go out pixels left to right and channels ascending, wide exactly at depth 16; `SPOS` steps
over the record (rules R43, R44, R105, R135). -/
def Obligations.RowsAreScattered : Prop :=
  ∀ s, Sound s → s.pipe.stage = .place →
    let cell := fun px c =>
      ((s.pipe.geo.yo + s.pipe.py * s.pipe.geo.ys) * s.pipe.latch.w.toNat + (s.pipe.geo.xo + px * s.pipe.geo.xs)) *
          s.pipe.chan + c
    ∃ t, step s = .next t ∧
      (∀ px < rowPixels s, ∀ c < s.pipe.chan,
        dstCell t.dst (cell px c) = some (s.pipe.samples.getD (px * s.pipe.chan + c) 0 &&&
          if s.pipe.latch.bd = 16 then 0xFFFF else 0x00FF)) ∧
      (∀ idx, (∀ px < rowPixels s, ∀ c < s.pipe.chan, cell px c ≠ idx) → dstCell t.dst idx = dstCell s.dst idx) ∧
      t.dstLog =
        ((List.range (rowPixels s)).flatMap fun px =>
          (List.range s.pipe.chan).map fun c =>
            (⟨cell px c, s.pipe.samples.getD (px * s.pipe.chan + c) 0, s.pipe.latch.bd == 16#8⟩ : DstWrite)).reverse ++
          s.dstLog ∧
      t.regs.spos.toNat = s.regs.spos.toNat + 1 + rowStride s ∧ t.src = s.src ∧ t.chk = s.chk

/-! ## The five record types -/

/-- NONE copies the filtered bytes (rule R109). -/
def Obligations.NoneCopiesTheRow : Prop :=
  decodeFilter 0 = .ok .none ∧
    ∀ filt s, Reconstructs filt (fun _ _ => 0) s (exec (.recNone filt) s) ∧
      exec (.recNone filt) s = .next { s with pipe := { s.pipe with cur := filt } }

/-- SUB adds the reconstructed byte `bpp = max(1, C * BD / 8)` to the left, 0 outside the row (rules R110, R108, R107). -/
def Obligations.SubAddsTheByteToTheLeft : Prop :=
  decodeFilter 1 = .ok .sub ∧
    ∀ filt s, Reconstructs filt (fun cur x => byteLeft (pixelDistance s) cur x) s (exec (.recSub filt) s)

/-- UP adds the byte above (rule R111). -/
def Obligations.UpAddsTheByteAbove : Prop :=
  decodeFilter 2 = .ok .up ∧
    ∀ filt s, Reconstructs filt (fun _ x => byteAt s.pipe.prev x) s (exec (.recUp filt) s)

/-- AVG adds half the exact sum of the byte `bpp = max(1, C * BD / 8)` to the left, 0 outside the row, and the byte above
(rules R113, R115, R107, R108). -/
def Obligations.AvgAddsTheFlooredMean : Prop :=
  decodeFilter 3 = .ok .avg ∧
    ∀ filt s,
      Reconstructs filt (fun cur x => (byteLeft (pixelDistance s) cur x + byteAt s.pipe.prev x) / 2) s
        (exec (.recAvg filt) s)

/-- PAETH adds the Paeth predictor of left, above and above left, at the distance `bpp = max(1, C * BD / 8)` (rules R114,
R108, R107). -/
def Obligations.PaethAddsItsPredictor : Prop :=
  decodeFilter 4 = .ok .paeth ∧
    ∀ filt s,
      Reconstructs filt
        (fun cur x =>
          paeth (byteLeft (pixelDistance s) cur x) (byteAt s.pipe.prev x) (byteLeft (pixelDistance s) s.pipe.prev x))
        s (exec (.recPaeth filt) s)

/-- The Paeth predictor returns the one of `a`, `b`, `c` nearest to `p = a + b - c`, ties broken by preferring `a`, then
`b`, then `c` (rule R112). -/
def Obligations.PaethIsTheNearestNeighbour : Prop :=
  ∀ a b c : Nat,
    let dist := fun v : Nat => ((a : Int) + b - c - v).natAbs
    let r := paeth a b c
    (r = a ∨ r = b ∨ r = c) ∧ dist r ≤ dist a ∧ dist r ≤ dist b ∧ dist r ≤ dist c ∧
      (dist a = dist r → r = a) ∧ (dist a ≠ dist r → dist b = dist r → r = b)

/-- The round-trip law: reconstructing a row's forward filter returns the row, for every type, every distance of at least
1, every row and every previous row (rule R116). -/
def Obligations.UnfilterUndoesFilter : Prop :=
  ∀ t d prev raw, 1 ≤ d → unfilter t d prev (filterForward t d prev raw) = raw

/-- On the first row of a pass NONE and SUB are as on any row, UP is NONE, PAETH is SUB and AVG adds half the byte to the
left; on the first pixel of a row SUB is NONE, PAETH is UP and AVG adds half the byte above (rule R119). -/
def Obligations.FirstRowAndFirstPixelLaws : Prop :=
  ∀ d filt, 1 ≤ d →
    (∀ zeros : List Byte, (∀ b ∈ zeros, b = 0) →
      (∀ prev, unfilter .none d zeros filt = unfilter .none d prev filt) ∧
        (∀ prev, unfilter .sub d zeros filt = unfilter .sub d prev filt) ∧
        unfilter .up d zeros filt = unfilter .none d zeros filt ∧
        unfilter .paeth d zeros filt = unfilter .sub d zeros filt ∧
        ∀ x < filt.length, byteAt (unfilter .avg d zeros filt) x =
          (byteAt filt x + byteLeft d (unfilter .avg d zeros filt) x / 2) % 256) ∧
      ∀ prev, ∀ x < filt.length, x < d →
        byteAt (unfilter .sub d prev filt) x = byteAt (unfilter .none d prev filt) x ∧
          byteAt (unfilter .paeth d prev filt) x = byteAt (unfilter .up d prev filt) x ∧
          byteAt (unfilter .avg d prev filt) x = (byteAt filt x + byteAt prev x / 2) % 256

/-! ## The five unpack modes -/

/-- UNPK1, depth 1, which grayscale and palette images may have: eight samples per byte, bit 7 first (rules R125, R124). -/
def Obligations.Unpk1TakesOneBit : Prop :=
  decodeDepth 1 = .ok .d1 ∧ (∀ c, depthAllowed c 1 = true ↔ c = .grayscale ∨ c = .palette) ∧
    ∀ s, UnpackMode (fun cur k => (byteAt cur (k / 8) >>> (7 - k % 8)) % 2) .unpk1 s

/-- UNPK2, depth 2, which grayscale and palette images may have: four samples per byte, bits 7:6 first (rules R126,
R124). -/
def Obligations.Unpk2TakesTwoBits : Prop :=
  decodeDepth 2 = .ok .d2 ∧ (∀ c, depthAllowed c 2 = true ↔ c = .grayscale ∨ c = .palette) ∧
    ∀ s, UnpackMode (fun cur k => (byteAt cur (k / 4) >>> (6 - 2 * (k % 4))) % 4) .unpk2 s

/-- UNPK4, depth 4, which grayscale and palette images may have: two samples per byte, the high nibble first (rules R127,
R124). -/
def Obligations.Unpk4TakesANibble : Prop :=
  decodeDepth 4 = .ok .d4 ∧ (∀ c, depthAllowed c 4 = true ↔ c = .grayscale ∨ c = .palette) ∧
    ∀ s, UnpackMode (fun cur k => if k % 2 = 0 then byteAt cur (k / 2) >>> 4 else byteAt cur (k / 2) % 16) .unpk4 s

/-- UNPK8, depth 8, which every colour type may have: one byte per sample, no padding (rules R128, R124). -/
def Obligations.Unpk8TakesAByte : Prop :=
  decodeDepth 8 = .ok .d8 ∧ (∀ c, depthAllowed c 8 = true) ∧ (∀ c w, stride c 8 w = w * c) ∧
    ∀ s, UnpackMode (fun cur k => byteAt cur k) .unpk8 s

/-- UNPK16, depth 16: two bytes per sample, big-endian, no padding, and no palette fault, since no palette image has depth 16
(rule R129). -/
def Obligations.Unpk16TakesTwoBytes : Prop :=
  decodeDepth 16 = .ok .d16 ∧ (∀ c, depthAllowed c 16 = true ↔ c ≠ .palette) ∧
    (∀ c w, stride c 16 w = 2 * (w * c)) ∧
    (∀ s, s.pipe.latch.ct ≠ 3 →
      Unpacks (fun k => byteAt s.pipe.cur (2 * k) * 256 + byteAt s.pipe.cur (2 * k + 1)) s (exec .unpk16 s)) ∧
    ∀ s, Configured s → s.pipe.latch.bd = 16 → s.pipe.latch.ct ≠ 3

/-- A sample is at most `2^BD - 1` and is stored in its DST cell as that number (rules R122, R44). -/
def Obligations.SamplesAreStoredAsTheyAre : Prop :=
  ∀ (d : Depth) line k idx,
    sample d.bits line k ≤ 2 ^ d.bits - 1 ∧
      (storedSample ⟨idx, BitVec.ofNat 16 (sample d.bits line k), d.bits == 16⟩).toNat = sample d.bits line k

/-- For every depth and one to four channels, a row of zero bytes gives zero samples and a row of one bits gives samples
`2^BD - 1`; the row's bytes are just enough for its samples (rules R120, R123). -/
def Obligations.ExtremeRowsUnpackToExtremes : Prop :=
  ∀ (d : Depth) (c w : Nat), 1 ≤ c → c ≤ 4 →
    unpackLine d.bits (w * c) (List.replicate (stride c d.bits w) 0x00#8) = List.replicate (w * c) 0 ∧
      unpackLine d.bits (w * c) (List.replicate (stride c d.bits w) 0xFF#8) =
        List.replicate (w * c) (BitVec.ofNat 16 (2 ^ d.bits - 1)) ∧
      w * c * d.bits ≤ 8 * stride c d.bits w ∧ 8 * stride c d.bits w < w * c * d.bits + 8

/-- The samples of a row depend on its first `n * BD` bits only: padding bits are never read into a sample (rules R121,
R123). -/
def Obligations.PaddingBitsAreIgnored : Prop :=
  ∀ (d : Depth) n line line', (∀ o < n * d.bits, rowBit line o = rowBit line' o) →
    unpackLine d.bits n line = unpackLine d.bits n line'

/-! ## The two interlace modes -/

/-- ILNONE: one pass over the whole image, in which pixel `(px, py)` goes to `(px, py)`, and `PASS` stays 0
(rules R137, R132). -/
def Obligations.IlNoneIsOneWholePass : Prop :=
  decodeInterlace 0 = .ok .none ∧
    (∀ s, exec .ilNone s = .next { s with pipe := { s.pipe with later := [⟨0, 0, 0, 1, 1⟩] } }) ∧
    (∀ p ∈ wholeImage, ∀ w h x y,
      passWidth w p = w ∧ passHeight h p = h ∧ p.xo + x * p.xs = x ∧ p.yo + y * p.ys = y) ∧
    ∀ s, s.regs.pass = 0 → (nextPass wholeImage s).regs.pass = 0

/-- ILADAM7: the seven passes of the table in the order 1 to 7 (rules R138, R131). -/
def Obligations.IlAdam7IsSevenPasses : Prop :=
  decodeInterlace 1 = .ok .adam7 ∧
    ∀ s, exec .ilAdam7 s = .next
      { s with
        pipe :=
          { s.pipe with
            later :=
              [⟨1, 0, 0, 8, 8⟩, ⟨2, 4, 0, 8, 8⟩, ⟨3, 0, 4, 4, 8⟩, ⟨4, 2, 0, 4, 4⟩, ⟨5, 0, 2, 2, 4⟩,
                ⟨6, 1, 0, 2, 2⟩, ⟨7, 0, 1, 1, 2⟩] } }

/-- The partition property: the scattered coordinates of the passes are exactly the pixels of the image, each met once, for
every width and height, with and without interlacing (rules R136, R132). -/
def Obligations.PassesPartitionTheImage : Prop :=
  ∀ m w h,
    (∀ p ∈ passList m, ∀ px < passWidth w p, ∀ py < passHeight h p,
        p.xo + px * p.xs < w ∧ p.yo + py * p.ys < h) ∧
      ∀ x < w, ∀ y < h,
        ∃! q : Pass × Nat × Nat,
          q.1 ∈ passList m ∧ q.2.1 < passWidth w q.1 ∧ q.2.2 < passHeight h q.1 ∧
            q.1.xo + q.2.1 * q.1.xs = x ∧ q.1.yo + q.2.2 * q.1.ys = y

/-! ## The whole machine -/

/-- The state after reset is sound. -/
def Obligations.ResetStateIsSound : Prop := Sound State.reset

/-- Every step keeps a sound state sound: the status registers in agreement, the cursor below the latched length, and no
unpacked row kept between commands (rules R15, R16, R20, R51). Two more parts rest on the model's choices: the spaces stay in the canonical form of their lists (log 4),
and a line buffer stays as long as the stride, being the list of its live bytes (rule R31 gives `MAXSTRIDE` bytes, log
11). -/
def Obligations.EveryStepKeepsSoundness : Prop := ∀ s t, Sound s → step s = .next t → Sound t

/-- From a sound state the machine never stops: every step answers a next state (93_implementation_defined.md: nothing is
treated as stuck). -/
def Obligations.SoundStatesNeverStop : Prop := ∀ s, Sound s → ∃ t, step s = .next t

/-- The block never writes SRC or CHK, writes DST only when a row is placed or a DECODE runs, and no step changes the
parameters (rules R7, R40). -/
def Obligations.OnlyTheHostWritesTheInputs : Prop :=
  ∀ s t, step s = .next t →
    t.params = s.params ∧
      ((s.pipe.stage ≠ .idle ∨ ∀ a b, s.pending.head? ≠ some (.srcWrite a b)) → t.src = s.src) ∧
      ((s.pipe.stage ≠ .idle ∨ ∀ a b, s.pending.head? ≠ some (.chkWrite a b)) → t.chk = s.chk) ∧
      (s.pipe.stage = .idle → (∀ i v, s.pending.head? ≠ some (.dstWrite i v)) →
        s.pending.head? ≠ some (.regWrite 1 3) → t.dst = s.dst ∧ t.dstLog = s.dstLog) ∧
      (s.pipe.stage = .passes ∨ s.pipe.stage = .record ∨ s.pipe.stage = .unpack →
        t.dst = s.dst ∧ t.dstLog = s.dstLog)
end

