-- ==== Sys2Proof/Laws/State.lean ====
section
/-! SUPPORT. What each named update of the state does to each of its parts, one lemma a part, true by definition, and
what the branching updates can do. -/

namespace Sys2Proof.Machine

variable (s : State)

/-! ## setDone -/

@[simp] theorem setDone_params (b : Bool) : (setDone b s).params = s.params := rfl
@[simp] theorem setDone_regs (b : Bool) : (setDone b s).regs = { s.regs with done := b } := rfl
@[simp] theorem setDone_pipe (b : Bool) : (setDone b s).pipe = s.pipe := rfl
@[simp] theorem setDone_src (b : Bool) : (setDone b s).src = s.src := rfl
@[simp] theorem setDone_chk (b : Bool) : (setDone b s).chk = s.chk := rfl
@[simp] theorem setDone_dst (b : Bool) : (setDone b s).dst = s.dst := rfl
@[simp] theorem setDone_dstLog (b : Bool) : (setDone b s).dstLog = s.dstLog := rfl
@[simp] theorem setDone_pending (b : Bool) : (setDone b s).pending = s.pending := rfl
@[simp] theorem setDone_replies (b : Bool) : (setDone b s).replies = s.replies := rfl
@[simp] theorem setDone_unspec (b : Bool) : (setDone b s).unspec = s.unspec := rfl

/-! ## setCrcOk -/

@[simp] theorem setCrcOk_params (b : Bool) : (setCrcOk b s).params = s.params := rfl
@[simp] theorem setCrcOk_regs (b : Bool) : (setCrcOk b s).regs = { s.regs with crcOk := b } := rfl
@[simp] theorem setCrcOk_pipe (b : Bool) : (setCrcOk b s).pipe = s.pipe := rfl
@[simp] theorem setCrcOk_src (b : Bool) : (setCrcOk b s).src = s.src := rfl
@[simp] theorem setCrcOk_chk (b : Bool) : (setCrcOk b s).chk = s.chk := rfl
@[simp] theorem setCrcOk_dst (b : Bool) : (setCrcOk b s).dst = s.dst := rfl
@[simp] theorem setCrcOk_dstLog (b : Bool) : (setCrcOk b s).dstLog = s.dstLog := rfl
@[simp] theorem setCrcOk_pending (b : Bool) : (setCrcOk b s).pending = s.pending := rfl
@[simp] theorem setCrcOk_replies (b : Bool) : (setCrcOk b s).replies = s.replies := rfl
@[simp] theorem setCrcOk_unspec (b : Bool) : (setCrcOk b s).unspec = s.unspec := rfl

/-! ## dstPut -/

@[simp] theorem dstPut_params (w : DstWrite) : (dstPut w s).params = s.params := rfl
@[simp] theorem dstPut_regs (w : DstWrite) : (dstPut w s).regs = s.regs := rfl
@[simp] theorem dstPut_pipe (w : DstWrite) : (dstPut w s).pipe = s.pipe := rfl
@[simp] theorem dstPut_src (w : DstWrite) : (dstPut w s).src = s.src := rfl
@[simp] theorem dstPut_chk (w : DstWrite) : (dstPut w s).chk = s.chk := rfl
@[simp] theorem dstPut_dst (w : DstWrite) : (dstPut w s).dst = putCell w.idx (storedSample w) s.dst := rfl
@[simp] theorem dstPut_dstLog (w : DstWrite) : (dstPut w s).dstLog = w :: s.dstLog := rfl
@[simp] theorem dstPut_pending (w : DstWrite) : (dstPut w s).pending = s.pending := rfl
@[simp] theorem dstPut_replies (w : DstWrite) : (dstPut w s).replies = s.replies := rfl
@[simp] theorem dstPut_unspec (w : DstWrite) : (dstPut w s).unspec = s.unspec := rfl

/-! ## raise -/

@[simp] theorem raise_params (c : Cause) (v : Word) : (raise c v s).params = s.params := rfl
@[simp] theorem raise_regs (c : Cause) (v : Word) :
    (raise c v s).regs =
      { s.regs with fcode := causeCode c, finfo := v, fault := true } := rfl
@[simp] theorem raise_pipe (c : Cause) (v : Word) : (raise c v s).pipe = { s.pipe with stage := .idle } := rfl
@[simp] theorem raise_src (c : Cause) (v : Word) : (raise c v s).src = s.src := rfl
@[simp] theorem raise_chk (c : Cause) (v : Word) : (raise c v s).chk = s.chk := rfl
@[simp] theorem raise_dst (c : Cause) (v : Word) : (raise c v s).dst = s.dst := rfl
@[simp] theorem raise_dstLog (c : Cause) (v : Word) : (raise c v s).dstLog = s.dstLog := rfl
@[simp] theorem raise_pending (c : Cause) (v : Word) : (raise c v s).pending = s.pending := rfl
@[simp] theorem raise_replies (c : Cause) (v : Word) : (raise c v s).replies = s.replies := rfl
@[simp] theorem raise_unspec (c : Cause) (v : Word) : (raise c v s).unspec = s.unspec := rfl

/-! ## loseLines -/

@[simp] theorem loseLines_params : (loseLines s).params = s.params := rfl
@[simp] theorem loseLines_regs : (loseLines s).regs = s.regs := rfl
@[simp] theorem loseLines_pipe :
    (loseLines s).pipe =
      { s.pipe with prev := Config.freeLine s.unspec, cur := Config.freeLine (s.unspec + 1), samples := [] } := rfl
@[simp] theorem loseLines_src : (loseLines s).src = s.src := rfl
@[simp] theorem loseLines_chk : (loseLines s).chk = s.chk := rfl
@[simp] theorem loseLines_dst : (loseLines s).dst = s.dst := rfl
@[simp] theorem loseLines_dstLog : (loseLines s).dstLog = s.dstLog := rfl
@[simp] theorem loseLines_pending : (loseLines s).pending = s.pending := rfl
@[simp] theorem loseLines_replies : (loseLines s).replies = s.replies := rfl
@[simp] theorem loseLines_unspec : (loseLines s).unspec = s.unspec + 2 := rfl

/-! ## raiseInRecord -/

@[simp] theorem raiseInRecord_params (c : Cause) (v : Word) : (raiseInRecord c v s).params = s.params := rfl
@[simp] theorem raiseInRecord_regs (c : Cause) (v : Word) :
    (raiseInRecord c v s).regs =
      { s.regs with fcode := causeCode c, finfo := v, fault := true } := rfl
@[simp] theorem raiseInRecord_pipe (c : Cause) (v : Word) :
    (raiseInRecord c v s).pipe =
      { s.pipe with prev := Config.freeLine s.unspec, cur := Config.freeLine (s.unspec + 1), samples := [], stage := .idle } := rfl
@[simp] theorem raiseInRecord_src (c : Cause) (v : Word) : (raiseInRecord c v s).src = s.src := rfl
@[simp] theorem raiseInRecord_chk (c : Cause) (v : Word) : (raiseInRecord c v s).chk = s.chk := rfl
@[simp] theorem raiseInRecord_dst (c : Cause) (v : Word) : (raiseInRecord c v s).dst = s.dst := rfl
@[simp] theorem raiseInRecord_dstLog (c : Cause) (v : Word) : (raiseInRecord c v s).dstLog = s.dstLog := rfl
@[simp] theorem raiseInRecord_pending (c : Cause) (v : Word) : (raiseInRecord c v s).pending = s.pending := rfl
@[simp] theorem raiseInRecord_replies (c : Cause) (v : Word) : (raiseInRecord c v s).replies = s.replies := rfl
@[simp] theorem raiseInRecord_unspec (c : Cause) (v : Word) : (raiseInRecord c v s).unspec = s.unspec + 2 := rfl

/-! ## resetBlock -/

@[simp] theorem resetBlock_params : (resetBlock s).params = s.params := rfl
@[simp] theorem resetBlock_regs : (resetBlock s).regs = Regs.reset := rfl
@[simp] theorem resetBlock_pipe :
    (resetBlock s).pipe =
      { Pipe.reset with prev := Config.freeLine s.unspec, cur := Config.freeLine (s.unspec + 1) } := rfl
@[simp] theorem resetBlock_src : (resetBlock s).src = s.src := rfl
@[simp] theorem resetBlock_chk : (resetBlock s).chk = s.chk := rfl
@[simp] theorem resetBlock_dst : (resetBlock s).dst = s.dst := rfl
@[simp] theorem resetBlock_dstLog : (resetBlock s).dstLog = s.dstLog := rfl
@[simp] theorem resetBlock_pending : (resetBlock s).pending = s.pending := rfl
@[simp] theorem resetBlock_replies : (resetBlock s).replies = s.replies := rfl
@[simp] theorem resetBlock_unspec : (resetBlock s).unspec = s.unspec + 2 := rfl

/-! ## captureChunk -/

@[simp] theorem captureChunk_params : (captureChunk s).params = s.params := rfl
@[simp] theorem captureChunk_regs :
    (captureChunk s).regs =
      { s.regs with clength := chunkLength s, ctype := be32List (readBytes s.chk (s.regs.cpos.toNat + 4) 4), ccrc := chunkAcc s ^^^ 0xFFFFFFFF#32, cstored := be32List (readBytes s.chk (s.regs.cpos.toNat + 8 + (chunkLength s).toNat) 4) } := rfl
@[simp] theorem captureChunk_pipe : (captureChunk s).pipe = { s.pipe with crcAcc := chunkAcc s } := rfl
@[simp] theorem captureChunk_src : (captureChunk s).src = s.src := rfl
@[simp] theorem captureChunk_chk : (captureChunk s).chk = s.chk := rfl
@[simp] theorem captureChunk_dst : (captureChunk s).dst = s.dst := rfl
@[simp] theorem captureChunk_dstLog : (captureChunk s).dstLog = s.dstLog := rfl
@[simp] theorem captureChunk_pending : (captureChunk s).pending = s.pending := rfl
@[simp] theorem captureChunk_replies : (captureChunk s).replies = s.replies := rfl
@[simp] theorem captureChunk_unspec : (captureChunk s).unspec = s.unspec := rfl

/-! ## acceptChunk -/

@[simp] theorem acceptChunk_params : (acceptChunk s).params = s.params := rfl
@[simp] theorem acceptChunk_regs :
    (acceptChunk s).regs =
      { s.regs with cpos := s.regs.cpos + 12#32 + s.regs.clength, crcOk := true } := rfl
@[simp] theorem acceptChunk_pipe : (acceptChunk s).pipe = s.pipe := rfl
@[simp] theorem acceptChunk_src : (acceptChunk s).src = s.src := rfl
@[simp] theorem acceptChunk_chk : (acceptChunk s).chk = s.chk := rfl
@[simp] theorem acceptChunk_dst : (acceptChunk s).dst = s.dst := rfl
@[simp] theorem acceptChunk_dstLog : (acceptChunk s).dstLog = s.dstLog := rfl
@[simp] theorem acceptChunk_pending : (acceptChunk s).pending = s.pending := rfl
@[simp] theorem acceptChunk_replies : (acceptChunk s).replies = s.replies := rfl
@[simp] theorem acceptChunk_unspec : (acceptChunk s).unspec = s.unspec := rfl

/-! ## filterRow -/

@[simp] theorem filterRow_params (t : FilterType) (filt : List Byte) : (filterRow t filt s).params = s.params := rfl
@[simp] theorem filterRow_regs (t : FilterType) (filt : List Byte) : (filterRow t filt s).regs = s.regs := rfl
@[simp] theorem filterRow_pipe (t : FilterType) (filt : List Byte) :
    (filterRow t filt s).pipe =
      { s.pipe with cur := unfilter t (pixelBytes s) s.pipe.prev filt } := rfl
@[simp] theorem filterRow_src (t : FilterType) (filt : List Byte) : (filterRow t filt s).src = s.src := rfl
@[simp] theorem filterRow_chk (t : FilterType) (filt : List Byte) : (filterRow t filt s).chk = s.chk := rfl
@[simp] theorem filterRow_dst (t : FilterType) (filt : List Byte) : (filterRow t filt s).dst = s.dst := rfl
@[simp] theorem filterRow_dstLog (t : FilterType) (filt : List Byte) : (filterRow t filt s).dstLog = s.dstLog := rfl
@[simp] theorem filterRow_pending (t : FilterType) (filt : List Byte) :
    (filterRow t filt s).pending =
      s.pending := rfl
@[simp] theorem filterRow_replies (t : FilterType) (filt : List Byte) :
    (filterRow t filt s).replies =
      s.replies := rfl
@[simp] theorem filterRow_unspec (t : FilterType) (filt : List Byte) : (filterRow t filt s).unspec = s.unspec := rfl

/-! ## enterPass -/

@[simp] theorem enterPass_params (p : Pass) (rest : List Pass) : (enterPass p rest s).params = s.params := rfl
@[simp] theorem enterPass_regs (p : Pass) (rest : List Pass) :
    (enterPass p rest s).regs =
      { s.regs with pass := BitVec.ofNat 3 p.pno } := rfl
@[simp] theorem enterPass_pipe (p : Pass) (rest : List Pass) :
    (enterPass p rest s).pipe =
      { s.pipe with prev := List.replicate (passStride s p) 0, geo := p, later := rest, py := 0, stage := .record } := rfl
@[simp] theorem enterPass_src (p : Pass) (rest : List Pass) : (enterPass p rest s).src = s.src := rfl
@[simp] theorem enterPass_chk (p : Pass) (rest : List Pass) : (enterPass p rest s).chk = s.chk := rfl
@[simp] theorem enterPass_dst (p : Pass) (rest : List Pass) : (enterPass p rest s).dst = s.dst := rfl
@[simp] theorem enterPass_dstLog (p : Pass) (rest : List Pass) : (enterPass p rest s).dstLog = s.dstLog := rfl
@[simp] theorem enterPass_pending (p : Pass) (rest : List Pass) : (enterPass p rest s).pending = s.pending := rfl
@[simp] theorem enterPass_replies (p : Pass) (rest : List Pass) : (enterPass p rest s).replies = s.replies := rfl
@[simp] theorem enterPass_unspec (p : Pass) (rest : List Pass) : (enterPass p rest s).unspec = s.unspec := rfl

/-! ## finishDecode -/

@[simp] theorem finishDecode_params : (finishDecode s).params = s.params := rfl
@[simp] theorem finishDecode_regs : (finishDecode s).regs = { s.regs with done := true } := rfl
@[simp] theorem finishDecode_pipe :
    (finishDecode s).pipe =
      { s.pipe with prev := Config.freeLine s.unspec, cur := Config.freeLine (s.unspec + 1), samples := [], later := [], stage := .idle } := rfl
@[simp] theorem finishDecode_src : (finishDecode s).src = s.src := rfl
@[simp] theorem finishDecode_chk : (finishDecode s).chk = s.chk := rfl
@[simp] theorem finishDecode_dst : (finishDecode s).dst = s.dst := rfl
@[simp] theorem finishDecode_dstLog : (finishDecode s).dstLog = s.dstLog := rfl
@[simp] theorem finishDecode_pending : (finishDecode s).pending = s.pending := rfl
@[simp] theorem finishDecode_replies : (finishDecode s).replies = s.replies := rfl
@[simp] theorem finishDecode_unspec : (finishDecode s).unspec = s.unspec + 2 := rfl

/-! ## loadPasses -/

@[simp] theorem loadPasses_params (m : InterlaceMode) : (loadPasses m s).params = s.params := rfl
@[simp] theorem loadPasses_regs (m : InterlaceMode) : (loadPasses m s).regs = s.regs := rfl
@[simp] theorem loadPasses_pipe (m : InterlaceMode) :
    (loadPasses m s).pipe =
      { s.pipe with later := passList m } := rfl
@[simp] theorem loadPasses_src (m : InterlaceMode) : (loadPasses m s).src = s.src := rfl
@[simp] theorem loadPasses_chk (m : InterlaceMode) : (loadPasses m s).chk = s.chk := rfl
@[simp] theorem loadPasses_dst (m : InterlaceMode) : (loadPasses m s).dst = s.dst := rfl
@[simp] theorem loadPasses_dstLog (m : InterlaceMode) : (loadPasses m s).dstLog = s.dstLog := rfl
@[simp] theorem loadPasses_pending (m : InterlaceMode) : (loadPasses m s).pending = s.pending := rfl
@[simp] theorem loadPasses_replies (m : InterlaceMode) : (loadPasses m s).replies = s.replies := rfl
@[simp] theorem loadPasses_unspec (m : InterlaceMode) : (loadPasses m s).unspec = s.unspec := rfl

/-! ## latchOperands -/

@[simp] theorem latchOperands_params : (latchOperands s).params = s.params := rfl
@[simp] theorem latchOperands_regs : (latchOperands s).regs = { s.regs with done := false } := rfl
@[simp] theorem latchOperands_pipe : (latchOperands s).pipe = { s.pipe with latch := latchOf s.regs } := rfl
@[simp] theorem latchOperands_src : (latchOperands s).src = s.src := rfl
@[simp] theorem latchOperands_chk : (latchOperands s).chk = s.chk := rfl
@[simp] theorem latchOperands_dst : (latchOperands s).dst = s.dst := rfl
@[simp] theorem latchOperands_dstLog : (latchOperands s).dstLog = s.dstLog := rfl
@[simp] theorem latchOperands_pending : (latchOperands s).pending = s.pending := rfl
@[simp] theorem latchOperands_replies : (latchOperands s).replies = s.replies := rfl
@[simp] theorem latchOperands_unspec : (latchOperands s).unspec = s.unspec := rfl

/-! ## initCursors -/

@[simp] theorem initCursors_params (c : Nat) : (initCursors c s).params = s.params := rfl
@[simp] theorem initCursors_regs (c : Nat) :
    (initCursors c s).regs =
      { s.regs with spos := 0, pass := 0, row := 0 } := rfl
@[simp] theorem initCursors_pipe (c : Nat) :
    (initCursors c s).pipe =
      { s.pipe with chan := c, stage := .passes } := rfl
@[simp] theorem initCursors_src (c : Nat) : (initCursors c s).src = s.src := rfl
@[simp] theorem initCursors_chk (c : Nat) : (initCursors c s).chk = s.chk := rfl
@[simp] theorem initCursors_dst (c : Nat) : (initCursors c s).dst = s.dst := rfl
@[simp] theorem initCursors_dstLog (c : Nat) : (initCursors c s).dstLog = s.dstLog := rfl
@[simp] theorem initCursors_pending (c : Nat) : (initCursors c s).pending = s.pending := rfl
@[simp] theorem initCursors_replies (c : Nat) : (initCursors c s).replies = s.replies := rfl
@[simp] theorem initCursors_unspec (c : Nat) : (initCursors c s).unspec = s.unspec := rfl

/-! ## beginRecord -/

@[simp] theorem beginRecord_params : (beginRecord s).params = s.params := rfl
@[simp] theorem beginRecord_regs : (beginRecord s).regs = { s.regs with row := BitVec.ofNat 32 s.pipe.py } := rfl
@[simp] theorem beginRecord_pipe : (beginRecord s).pipe = { s.pipe with bitCursor := ⟨0, 0⟩ } := rfl
@[simp] theorem beginRecord_src : (beginRecord s).src = s.src := rfl
@[simp] theorem beginRecord_chk : (beginRecord s).chk = s.chk := rfl
@[simp] theorem beginRecord_dst : (beginRecord s).dst = s.dst := rfl
@[simp] theorem beginRecord_dstLog : (beginRecord s).dstLog = s.dstLog := rfl
@[simp] theorem beginRecord_pending : (beginRecord s).pending = s.pending := rfl
@[simp] theorem beginRecord_replies : (beginRecord s).replies = s.replies := rfl
@[simp] theorem beginRecord_unspec : (beginRecord s).unspec = s.unspec := rfl

/-! ## commitRecord -/

@[simp] theorem commitRecord_params : (commitRecord s).params = s.params := rfl
@[simp] theorem commitRecord_regs :
    (commitRecord s).regs =
      { s.regs with spos := s.regs.spos + BitVec.ofNat 32 (1 + rowStride s) } := rfl
@[simp] theorem commitRecord_pipe : (commitRecord s).pipe = { s.pipe with prev := s.pipe.cur } := rfl
@[simp] theorem commitRecord_src : (commitRecord s).src = s.src := rfl
@[simp] theorem commitRecord_chk : (commitRecord s).chk = s.chk := rfl
@[simp] theorem commitRecord_dst : (commitRecord s).dst = s.dst := rfl
@[simp] theorem commitRecord_dstLog : (commitRecord s).dstLog = s.dstLog := rfl
@[simp] theorem commitRecord_pending : (commitRecord s).pending = s.pending := rfl
@[simp] theorem commitRecord_replies : (commitRecord s).replies = s.replies := rfl
@[simp] theorem commitRecord_unspec : (commitRecord s).unspec = s.unspec := rfl

/-! ## reply -/

@[simp] theorem reply_params (v : Word) : (reply v s).params = s.params := rfl
@[simp] theorem reply_regs (v : Word) : (reply v s).regs = s.regs := rfl
@[simp] theorem reply_pipe (v : Word) : (reply v s).pipe = s.pipe := rfl
@[simp] theorem reply_src (v : Word) : (reply v s).src = s.src := rfl
@[simp] theorem reply_chk (v : Word) : (reply v s).chk = s.chk := rfl
@[simp] theorem reply_dst (v : Word) : (reply v s).dst = s.dst := rfl
@[simp] theorem reply_dstLog (v : Word) : (reply v s).dstLog = s.dstLog := rfl
@[simp] theorem reply_pending (v : Word) : (reply v s).pending = s.pending := rfl
@[simp] theorem reply_replies (v : Word) : (reply v s).replies = v :: s.replies := rfl
@[simp] theorem reply_unspec (v : Word) : (reply v s).unspec = s.unspec := rfl

/-! ## Writing a list of cells -/

@[simp] theorem dstPutAll_nil : dstPutAll [] s = s := rfl
@[simp] theorem dstPutAll_cons (w : DstWrite) (ws : List DstWrite) :
    dstPutAll (w :: ws) s = dstPutAll ws (dstPut w s) := rfl

@[simp] theorem dstPutAll_params (ws : List DstWrite) : (dstPutAll ws s).params = s.params := by
  induction ws generalizing s with
  | nil => rfl
  | cons w ws ih => simp [ih]

@[simp] theorem dstPutAll_regs (ws : List DstWrite) : (dstPutAll ws s).regs = s.regs := by
  induction ws generalizing s with
  | nil => rfl
  | cons w ws ih => simp [ih]

@[simp] theorem dstPutAll_pipe (ws : List DstWrite) : (dstPutAll ws s).pipe = s.pipe := by
  induction ws generalizing s with
  | nil => rfl
  | cons w ws ih => simp [ih]

@[simp] theorem dstPutAll_src (ws : List DstWrite) : (dstPutAll ws s).src = s.src := by
  induction ws generalizing s with
  | nil => rfl
  | cons w ws ih => simp [ih]

@[simp] theorem dstPutAll_chk (ws : List DstWrite) : (dstPutAll ws s).chk = s.chk := by
  induction ws generalizing s with
  | nil => rfl
  | cons w ws ih => simp [ih]

@[simp] theorem dstPutAll_pending (ws : List DstWrite) : (dstPutAll ws s).pending = s.pending := by
  induction ws generalizing s with
  | nil => rfl
  | cons w ws ih => simp [ih]

@[simp] theorem dstPutAll_replies (ws : List DstWrite) : (dstPutAll ws s).replies = s.replies := by
  induction ws generalizing s with
  | nil => rfl
  | cons w ws ih => simp [ih]

@[simp] theorem dstPutAll_unspec (ws : List DstWrite) : (dstPutAll ws s).unspec = s.unspec := by
  induction ws generalizing s with
  | nil => rfl
  | cons w ws ih => simp [ih]

@[simp] theorem scatterRow_params : (scatterRow s).params = s.params := dstPutAll_params s _

@[simp] theorem scatterRow_regs : (scatterRow s).regs = s.regs := dstPutAll_regs s _

@[simp] theorem scatterRow_pipe : (scatterRow s).pipe = s.pipe := dstPutAll_pipe s _

@[simp] theorem scatterRow_src : (scatterRow s).src = s.src := dstPutAll_src s _

@[simp] theorem scatterRow_chk : (scatterRow s).chk = s.chk := dstPutAll_chk s _

@[simp] theorem scatterRow_pending : (scatterRow s).pending = s.pending := dstPutAll_pending s _

@[simp] theorem scatterRow_replies : (scatterRow s).replies = s.replies := dstPutAll_replies s _

@[simp] theorem scatterRow_unspec : (scatterRow s).unspec = s.unspec := dstPutAll_unspec s _

/-- Issuing writes puts them on the log, the last one first. -/
theorem dstPutAll_dstLog (ws : List DstWrite) : (dstPutAll ws s).dstLog = ws.reverse ++ s.dstLog := by
  induction ws generalizing s with
  | nil => rfl
  | cons w ws ih => simp [ih]

end Sys2Proof.Machine
end

