-- ==== Sys2Proof/Laws/Mem.lean ====
section
/-! SUPPORT. The data spaces: a read after a write, and that every operation keeps the canonical form. -/

namespace Sys2Proof.Machine

section Cells

variable {α : Type} (m : List (Nat × α)) (a b : Nat) (v : α)

theorem cellAt_putCell_same : cellAt (putCell a v m) a = some v := by
  induction m with
  | nil => simp [putCell, cellAt]
  | cons c m ih =>
    unfold putCell
    split
    · simp [cellAt]
    · split
      · simp [cellAt]
      · rename_i h
        simp [cellAt, h, ih]

theorem cellAt_putCell_other (h : a ≠ b) : cellAt (putCell a v m) b = cellAt m b := by
  induction m with
  | nil => simp [putCell, cellAt, h]
  | cons c m ih =>
    unfold putCell
    split
    · simp [cellAt, h]
    · split
      · rename_i hc
        have hb : c.1 ≠ b := fun e => h (hc.symm.trans e)
        simp [cellAt, h, hb]
      · simp [cellAt, ih]

/-- A read of a cell after a write of a cell. -/
theorem cellAt_putCell : cellAt (putCell a v m) b = if a = b then some v else cellAt m b := by
  split
  · rename_i h; subst h; exact cellAt_putCell_same m a v
  · rename_i h; exact cellAt_putCell_other m a b v h

theorem mem_putCell (c : Nat × α) (h : c ∈ putCell a v m) : c = (a, v) ∨ c ∈ m := by
  induction m with
  | nil => simpa [putCell] using h
  | cons d m ih =>
    unfold putCell at h
    split at h
    · simpa using h
    · split at h
      · rcases List.mem_cons.mp h with h | h
        · exact .inl h
        · exact .inr (List.mem_cons_of_mem _ h)
      · rcases List.mem_cons.mp h with h | h
        · exact .inr (h ▸ List.mem_cons_self)
        · exact (ih h).imp_right (List.mem_cons_of_mem _)

theorem mem_dropCell (c : Nat × α) (h : c ∈ dropCell a m) : c ∈ m := by
  induction m with
  | nil => simp [dropCell] at h
  | cons d m ih =>
    unfold dropCell at h
    split at h
    · exact List.mem_cons_of_mem _ h
    · rcases List.mem_cons.mp h with h | h
      · exact h ▸ List.mem_cons_self
      · exact List.mem_cons_of_mem _ (ih h)

theorem cellsRise_putCell (h : cellsRise m) : cellsRise (putCell a v m) := by
  induction m with
  | nil => simp [putCell, cellsRise]
  | cons c m ih =>
    have hc := List.pairwise_cons.mp h
    unfold putCell
    split
    · rename_i hlt
      refine List.pairwise_cons.mpr ⟨fun d hd => ?_, h⟩
      rcases List.mem_cons.mp hd with rfl | hd
      · exact hlt
      · exact lt_trans hlt (hc.1 d hd)
    · split
      · rename_i he
        exact List.pairwise_cons.mpr ⟨fun d hd => he ▸ hc.1 d hd, hc.2⟩
      · rename_i hge hne
        refine List.pairwise_cons.mpr ⟨fun d hd => ?_, ih hc.2⟩
        rcases mem_putCell m a v d hd with rfl | hd
        · show c.1 < a
          omega
        · exact hc.1 d hd

theorem cellsRise_dropCell (h : cellsRise m) : cellsRise (dropCell a m) := by
  induction m with
  | nil => simp [dropCell, cellsRise]
  | cons c m ih =>
    have hc := List.pairwise_cons.mp h
    unfold dropCell
    split
    · exact hc.2
    · exact List.pairwise_cons.mpr ⟨fun d hd => hc.1 d (mem_dropCell m a d hd), ih hc.2⟩

theorem cellAt_eq_none_of_lt (h : ∀ c ∈ m, a < c.1) : cellAt m a = none := by
  induction m with
  | nil => rfl
  | cons c m ih =>
    have h1 := h c List.mem_cons_self
    have hne : c.1 ≠ a := by omega
    simpa [cellAt, hne] using ih fun d hd => h d (List.mem_cons_of_mem _ hd)

/-- A read of a cell after a cell of a list in canonical form was dropped. -/
theorem cellAt_dropCell (h : cellsRise m) : cellAt (dropCell a m) b = if a = b then none else cellAt m b := by
  induction m with
  | nil => simp [dropCell, cellAt]
  | cons c m ih =>
    have hc := List.pairwise_cons.mp h
    unfold dropCell
    split
    · rename_i he
      split
      · rename_i hb
        exact cellAt_eq_none_of_lt m b fun d hd => by have := hc.1 d hd; omega
      · rename_i hb
        have : c.1 ≠ b := by omega
        simp [cellAt, this]
    · rename_i hne
      by_cases hcb : c.1 = b
      · have : a ≠ b := by omega
        simp [cellAt, hcb, this]
      · simpa [cellAt, hcb] using ih hc.2

end Cells

variable (m : Memory) (a b : Nat) (v : Byte)

theorem memoryWf_nil : memoryWf [] := by simp [memoryWf, cellsRise]

/-- A host write keeps the canonical form of a byte space. -/
theorem memoryWf_writeByte (h : memoryWf m) : memoryWf (writeByte m a v) := by
  unfold writeByte
  split
  · exact ⟨cellsRise_dropCell m a h.1, fun c hc => h.2 c (mem_dropCell m a c hc)⟩
  · rename_i hv
    refine ⟨cellsRise_putCell m a v h.1, fun c hc => ?_⟩
    rcases mem_putCell m a v c hc with rfl | hc
    · exact hv
    · exact h.2 c hc

/-- A read of a byte after a host write, in a space in canonical form. -/
theorem readByte_writeByte (h : memoryWf m) : readByte (writeByte m a v) b = if a = b then v else readByte m b := by
  unfold writeByte readByte
  split
  · rename_i hv
    subst hv
    rw [cellAt_dropCell m a b h.1]
    split <;> rfl
  · rw [cellAt_putCell]
    split <;> rfl

theorem dstWf_nil : dstWf [] := by simp [dstWf, cellsRise]

/-- DST writes keep the canonical form of DST. -/
theorem dstWf_dstPutAll (ws : List DstWrite) (s : State) (h : dstWf s.dst) : dstWf (dstPutAll ws s).dst := by
  induction ws generalizing s with
  | nil => exact h
  | cons w ws ih => exact ih (dstPut w s) (cellsRise_putCell s.dst w.idx (storedSample w) h)

/-- A DST cell that no write of a list names keeps its value. -/
theorem dstCell_dstPutAll_other (ws : List DstWrite) (s : State) (idx : Nat) (h : ∀ w ∈ ws, w.idx ≠ idx) :
    dstCell (dstPutAll ws s).dst idx = dstCell s.dst idx := by
  induction ws generalizing s with
  | nil => rfl
  | cons w ws ih =>
    rw [dstPutAll_cons, ih (dstPut w s) fun v hv => h v (List.mem_cons_of_mem _ hv)]
    exact cellAt_putCell_other s.dst w.idx idx (storedSample w) (h w List.mem_cons_self)

/-- A DST cell that exactly one write of a list names takes that write's value. -/
theorem dstCell_dstPutAll_of_mem (ws : List DstWrite) (s : State) (w : DstWrite)
    (hn : (ws.map DstWrite.idx).Nodup) (hw : w ∈ ws) :
    dstCell (dstPutAll ws s).dst w.idx = some (storedSample w) := by
  induction ws generalizing s with
  | nil => simp at hw
  | cons u ws ih =>
    rw [List.map_cons, List.nodup_cons] at hn
    rcases List.mem_cons.mp hw with rfl | hw
    · rw [dstPutAll_cons, dstCell_dstPutAll_other ws _ _ fun v hv e => hn.1 (List.mem_map.mpr ⟨v, hv, e⟩)]
      exact cellAt_putCell_same s.dst w.idx (storedSample w)
    · exact ih (dstPut u s) hn.2 hw

@[simp] theorem readBytes_length (n : Nat) : (readBytes m a n).length = n := by
  induction n generalizing a with
  | zero => rfl
  | succ n ih => simp [readBytes, ih]

theorem readBytes_getD (n k : Nat) (h : k < n) : (readBytes m a n).getD k 0 = readByte m (a + k) := by
  induction n generalizing a k with
  | zero => omega
  | succ n ih =>
    cases k with
    | zero => simp [readBytes]
    | succ k => simpa [readBytes, Nat.add_assoc, Nat.add_comm 1 k] using ih (a + 1) k (by omega)

/-- Two spaces that agree on a range of addresses give the same bytes there. -/
theorem readBytes_congr (m' : Memory) (n : Nat) (h : ∀ k < n, readByte m (a + k) = readByte m' (a + k)) :
    readBytes m a n = readBytes m' a n := by
  induction n generalizing a with
  | zero => rfl
  | succ n ih =>
    have h0 : readByte m a = readByte m' a := h 0 (by omega)
    have hs : readBytes m (a + 1) n = readBytes m' (a + 1) n :=
      ih (a + 1) fun k hk => by simpa [Nat.add_assoc, Nat.add_comm 1 k] using h (k + 1) (by omega)
    simp [readBytes, h0, hs]

end Sys2Proof.Machine
end

