-- ==== Sys2Proof/Laws/Crc.lean ====
section
/-! SUPPORT. The CRC unit: byte order, the accumulator over a list of bytes, and what the check of a record can do. -/

namespace Sys2Proof.Machine

/-- `be32` undoes `be32Bytes` (rule R8). -/
theorem be32List_be32Bytes (v : Word) (rest : List Byte) : be32List (be32Bytes v ++ rest) = v := by
  simp only [be32List, be32Bytes, be32, List.cons_append, List.nil_append, List.getD_cons_zero,
    List.getD_cons_succ]
  apply BitVec.eq_of_getLsbD_eq
  intro i hi
  simp only [BitVec.getLsbD_append, BitVec.getLsbD_extractLsb']
  by_cases h1 : i < 8
  · simp [h1]
  · by_cases h2 : i < 16
    · simp [h1, show i - 8 < 8 by omega, show 8 + (i - 8) = i by omega]
    · by_cases h3 : i < 24
      · simp [h1, show ¬ i - 8 < 8 by omega, show i - 8 - 8 < 8 by omega,
          show 16 + (i - 8 - 8) = i by omega]
      · simp [h1, show ¬ i - 8 < 8 by omega, show ¬ i - 8 - 8 < 8 by omega, show i - 8 - 8 - 8 < 8 by omega,
          show 24 + (i - 8 - 8 - 8) = i by omega]

/-- The accumulator over a sequence in two parts (rule R81). -/
theorem crcRun_append (acc : Word) (a b : List Byte) : crcRun acc (a ++ b) = crcRun (crcRun acc a) b := by
  simp [crcRun]

/-- The bit steps are linear over xor (rule R104 f). -/
theorem crcBit_xor (a b : Word) : crcBit (a ^^^ b) = crcBit a ^^^ crcBit b := by
  simp only [crcBit, BitVec.getLsbD_xor, BitVec.ushiftRight_xor_distrib]
  generalize a >>> 1 = x
  generalize b >>> 1 = y
  generalize 0xEDB88320#32 = q
  have hq : x ^^^ q ^^^ (y ^^^ q) = x ^^^ y := by
    rw [show x ^^^ q ^^^ (y ^^^ q) = x ^^^ y ^^^ (q ^^^ q) by ac_rfl, BitVec.xor_self, BitVec.xor_zero]
  cases a.getLsbD 0 <;> cases b.getLsbD 0 <;> simp [hq] <;> ac_rfl

theorem crcBits_xor (k : Nat) (a b : Word) : crcBits k (a ^^^ b) = crcBits k a ^^^ crcBits k b := by
  induction k generalizing a b with
  | zero => rfl
  | succ k ih => simp [crcBits, crcBit_xor, ih]

/-- Everything the check of a record can do (rules R82 to R86). -/
theorem checkChunk_cases (s : State) :
    (chunkFits s = false ∧ checkChunk s = raise .truncatedChunk s.regs.cpos s) ∨
      (chunkFits s = true ∧ (captureChunk s).regs.ccrc ≠ (captureChunk s).regs.cstored ∧
        checkChunk s = raise .crcMismatch (captureChunk s).regs.ccrc (captureChunk s)) ∨
      (chunkFits s = true ∧ (captureChunk s).regs.ccrc = (captureChunk s).regs.cstored ∧
        checkChunk s = acceptChunk (captureChunk s)) := by
  cases h : chunkFits s with
  | false => exact .inl ⟨rfl, by simp only [checkChunk, h]; rfl⟩
  | true =>
    by_cases hc : (captureChunk s).regs.ccrc = (captureChunk s).regs.cstored
    · exact .inr (.inr ⟨rfl, hc, by simp only [checkChunk, h, judgeChunk, hc, if_true]⟩)
    · exact .inr (.inl ⟨rfl, hc, by simp only [checkChunk, h, judgeChunk, hc, if_true, if_false]⟩)

/-- The truncation check, in exact naturals (rule R83). -/
theorem chunkFits_iff (s : State) :
    chunkFits s = true ↔ s.regs.cpos.toNat + 12 + (chunkLength s).toNat ≤ s.regs.clen.toNat := by
  simp only [chunkFits, Bool.and_eq_true, decide_eq_true_eq]
  omega

end Sys2Proof.Machine
end

