-- ==== Sys2Proof/Laws/Filter.lean ====
section
/-! SUPPORT. The Scanline Reconstructor: a reconstructed row has the length of its record and satisfies, byte by byte,
the recurrence of rules R105 and R108; it is the only row that does. -/

namespace Sys2Proof.Machine

theorem bpp_pos (c bd : Nat) : 1 ≤ bpp c bd := le_max_left _ _

theorem pixelBytes_pos (s : State) : 1 ≤ pixelBytes s := bpp_pos _ _

section Rows

variable (t : FilterType) (d : Nat) (prev cur : List Byte)

/-- A predictor looks only at bytes before its own position. -/
theorem predictAt_congr (hd : 1 ≤ d) (cur' : List Byte) (x : Nat)
    (h : ∀ y < x, cur.getD y 0 = cur'.getD y 0) : predictAt t d prev cur x = predictAt t d prev cur' x := by
  have hl : leftOf d cur x = leftOf d cur' x := by
    unfold leftOf
    split
    · exact h (x - d) (by omega)
    · rfl
  simp only [predictAt, neighbours, hl]

theorem unfilterFrom_length (filt : List Byte) :
    (unfilterFrom t d prev cur filt).length = cur.length + filt.length := by
  induction filt generalizing cur with
  | nil => simp [unfilterFrom]
  | cons f fs ih => rw [unfilterFrom, ih]; simp; omega

@[simp] theorem unfilter_length (filt : List Byte) : (unfilter t d prev filt).length = filt.length := by
  simp [unfilter, unfilterFrom_length]

/-- Bytes already reconstructed stay. -/
theorem unfilterFrom_getD_old (filt : List Byte) (x : Nat) (hx : x < cur.length) :
    (unfilterFrom t d prev cur filt).getD x 0 = cur.getD x 0 := by
  induction filt generalizing cur with
  | nil => rfl
  | cons f fs ih =>
    rw [unfilterFrom, ih _ (by simp; omega), List.getD_append _ _ _ _ hx]

/-- The recurrence, behind bytes already reconstructed. -/
theorem unfilterFrom_getD (hd : 1 ≤ d) (filt : List Byte) (k : Nat) (hk : k < filt.length) :
    (unfilterFrom t d prev cur filt).getD (cur.length + k) 0 =
      addPredictor (filt.getD k 0)
        (predictAt t d prev (unfilterFrom t d prev cur filt) (cur.length + k)) := by
  induction filt generalizing cur k with
  | nil => simp at hk
  | cons f fs ih =>
    rw [unfilterFrom]
    set b := addPredictor f (predictAt t d prev cur cur.length) with hb
    cases k with
    | zero =>
      have hp : predictAt t d prev (unfilterFrom t d prev (cur ++ [b]) fs) cur.length =
          predictAt t d prev cur cur.length := by
        refine predictAt_congr t d prev _ hd cur _ fun y hy => ?_
        rw [unfilterFrom_getD_old _ _ _ _ _ _ (by simp; omega), List.getD_append _ _ _ _ hy]
      rw [Nat.add_zero, unfilterFrom_getD_old _ _ _ _ _ _ (by simp), hp, List.getD_append_right _ _ _ _ le_rfl]
      simp [hb]
    | succ k =>
      have hk' : k < fs.length := by simpa using hk
      have := ih (cur ++ [b]) k hk'
      rw [show (cur ++ [b]).length + k = cur.length + (k + 1) by simp; omega] at this
      simpa using this

/-- The recurrence of rules R105 and R108: each byte is its filtered byte plus its predictor, modulo 256. -/
theorem unfilter_getD (hd : 1 ≤ d) (filt : List Byte) (x : Nat) (hx : x < filt.length) :
    (unfilter t d prev filt).getD x 0 =
      addPredictor (filt.getD x 0) (predictAt t d prev (unfilter t d prev filt) x) := by
  simpa [unfilter] using unfilterFrom_getD t d prev [] hd filt x hx

theorem ext_getD {l l' : List Byte} (hl : l.length = l'.length) (h : ∀ x < l.length, l.getD x 0 = l'.getD x 0) :
    l = l' := by
  refine List.ext_getElem hl fun x h1 h2 => ?_
  have := h x h1
  rwa [List.getD_eq_getElem _ _ h1, List.getD_eq_getElem _ _ h2] at this

/-- A row that satisfies the recurrence is the reconstructed row. -/
theorem eq_unfilter (hd : 1 ≤ d) (filt row : List Byte) (hl : row.length = filt.length)
    (h : ∀ x < filt.length, row.getD x 0 = addPredictor (filt.getD x 0) (predictAt t d prev row x)) :
    row = unfilter t d prev filt := by
  have key : ∀ x, x < filt.length → row.getD x 0 = (unfilter t d prev filt).getD x 0 := by
    intro x
    induction x using Nat.strong_induction_on with
    | _ x ih =>
      intro hx
      rw [h x hx, unfilter_getD t d prev hd filt x hx]
      congr 1
      exact predictAt_congr t d prev row hd _ x fun y hy => ih y hy (by omega)
  exact ext_getD (by simp [hl]) fun x hx => key x (hl ▸ hx)

end Rows

theorem neighbours_first_row (d : Nat) (prev cur : List Byte) (x : Nat) (h : ∀ b ∈ prev, b = 0) :
    neighbours d prev cur x = (leftOf d cur x, 0, 0) := by
  have hz : ∀ y, prev.getD y 0 = 0 := by
    intro y
    by_cases hy : y < prev.length
    · rw [List.getD_eq_getElem _ _ hy]; exact h _ (List.getElem_mem hy)
    · simp [List.getD, List.getElem?_eq_none (by omega : prev.length ≤ y)]
  simp only [neighbours, leftOf, hz, ite_self]

end Sys2Proof.Machine
end

