-- ==== Sys2Proof/Laws/Unpack.lean ====
section
/-! SUPPORT. The Sample Unpacker: a row unpacked has `n` samples, sample `k` is `sample(CUR, k)`, and unpacking a row
either raises the palette fault or changes the samples and the bit cursor only. -/

namespace Sys2Proof.Machine

@[simp] theorem unpackLine_length (bd n : Nat) (line : List Byte) : (unpackLine bd n line).length = n := by
  simp [unpackLine]

theorem unpackLine_getD (bd n k : Nat) (line : List Byte) (h : k < n) :
    (unpackLine bd n line).getD k 0 = BitVec.ofNat 16 (sample bd line k) := by
  rw [List.getD_eq_getElem _ _ (by simpa using h)]
  simp [unpackLine]

/-- Everything unpacking a row can do (rules R120, R124). -/
theorem unpackRow_cases (d : Depth) (s : State) :
    (∃ v, paletteOffender s (unpackLine d.bits (rowSamples s) s.pipe.cur) = some v ∧
        unpackRow d s = raiseInRecord .paletteIndexOutOfRange (v.setWidth 32) s) ∨
      (paletteOffender s (unpackLine d.bits (rowSamples s) s.pipe.cur) = none ∧
        unpackRow d s =
          { s with
            pipe :=
              { s.pipe with
                samples := unpackLine d.bits (rowSamples s) s.pipe.cur
                bitCursor := cursorAt d.bits (rowSamples s) } }) := by
  cases h : paletteOffender s (unpackLine d.bits (rowSamples s) s.pipe.cur) with
  | some v => exact .inl ⟨v, rfl, by simp only [unpackRow, h]⟩
  | none => exact .inr ⟨rfl, by simp only [unpackRow, h]⟩

/-- No sample fails the bound check exactly when every sample is below the bound. -/
theorem firstOutside_eq_none (ps : Nat) (l : List Sample) :
    firstOutside ps l = none ↔ ∀ v ∈ l, v.toNat < ps := by
  simp [firstOutside, List.find?_eq_none]

theorem byte_lt (b : Byte) : b.toNat < 256 := b.isLt

/-- A sample is below `2^BD` (rule R122). -/
theorem sample_lt (d : Depth) (line : List Byte) (k : Nat) : sample d.bits line k < 2 ^ d.bits := by
  have h0 := byte_lt (line.getD (cursorAt d.bits k).bytePos 0)
  have h1 := byte_lt (line.getD ((cursorAt d.bits k).bytePos + 1) 0)
  cases d <;> simp only [sample, sampleAt, Depth.bits] at * <;> norm_num [be16] at * <;> omega

end Sys2Proof.Machine
end

