-- ==== Sys2Proof/Laws/Interlace.lean ====
section
/-! SUPPORT. The Interlace Reassembler: what entering the next pass can do, the geometry of the passes of the table, and
the writes of a row. -/

namespace Sys2Proof.Machine

/-- Everything the move to the next pass can do (rules R91, R133, R134). -/
theorem nextPass_cases (l : List Pass) (s : State) :
    (∃ before p rest, l = before ++ p :: rest ∧ (∀ q ∈ before, skipped s q = true) ∧ skipped s p = false ∧
        nextPass l s = enterPass p rest s) ∨
      ((∀ q ∈ l, skipped s q = true) ∧ nextPass l s = finishDecode s) := by
  induction l with
  | nil => exact .inr ⟨by simp, rfl⟩
  | cons p rest ih =>
    by_cases hp : skipped s p = true
    · rcases ih with ⟨before, q, rest', hl, hb, hq, he⟩ | ⟨ha, he⟩
      · refine .inl ⟨p :: before, q, rest', by simp [hl], ?_, hq, by simp [nextPass, hp, he]⟩
        intro r hr
        rcases List.mem_cons.mp hr with rfl | hr
        · exact hp
        · exact hb r hr
      · refine .inr ⟨?_, by simp [nextPass, hp, he]⟩
        intro r hr
        rcases List.mem_cons.mp hr with rfl | hr
        · exact hp
        · exact ha r hr
    · exact .inl ⟨[], p, rest, rfl, by simp, by simpa using hp, by simp [nextPass, hp]⟩

/-- A pass that is not skipped has a row and a column (rule R133). -/
theorem skipped_eq_false {s : State} {p : Pass} :
    skipped s p = false ↔
      0 < passWidth s.pipe.latch.w.toNat p ∧ 0 < passHeight s.pipe.latch.h.toNat p := by
  simp [skipped, Nat.pos_iff_ne_zero]

/-- What every tuple of a pass list has: an offset below its stride (rule R131). -/
theorem passList_offsets {m : InterlaceMode} {p : Pass} (h : p ∈ passList m) :
    p.xo < p.xs ∧ p.yo < p.ys := by
  cases m <;> simp only [passList, wholeImage, adam7Passes, List.mem_cons, List.not_mem_nil, or_false] at h
  · subst h; decide
  · rcases h with h | h | h | h | h | h | h <;> subst h <;> decide

/-- A column of a pass is a column of the image, and conversely (rules R132, R135). -/
theorem lt_passWidth_iff {p : Pass} (h : p.xo < p.xs) (w x : Nat) : x < passWidth w p ↔ p.xo + x * p.xs < w := by
  unfold passWidth
  rw [Nat.lt_div_iff_mul_lt (by omega)]
  generalize x * p.xs = z
  omega

/-- A row of a pass is a row of the image, and conversely (rules R132, R135). -/
theorem lt_passHeight_iff {p : Pass} (h : p.yo < p.ys) (n y : Nat) : y < passHeight n p ↔ p.yo + y * p.ys < n := by
  unfold passHeight
  rw [Nat.lt_div_iff_mul_lt (by omega)]
  generalize y * p.ys = z
  omega

end Sys2Proof.Machine
end

