-- ==== Sys2Proof/Laws/Sequencer.lean ====
section
/-! SUPPORT. The decode sequencer: what a configuration that passes the check is, how a DECODE starts, what each stage
can do, and the induction over the stages of a DECODE. -/

namespace Sys2Proof.Machine

/-! ## The configuration check -/

/-- Everything a configuration that passes the check has (rules R94, R95). -/
theorem configCheck_ok {p : Params} {l : Latch} {c : Nat} (h : configCheck p l = .ok c) :
    ∃ color, decodeColor l.ct = some color ∧ c = channels color ∧ depthAllowed color l.bd = true ∧
      (l.il = 0#8 ∨ l.il = 1#8) ∧ l.w ≠ 0 ∧ l.h ≠ 0 ∧ ¬(color = .palette ∧ l.palp = false) ∧
      exceeds (stride (channels color) l.bd.toNat l.w.toNat) p.maxStride = false ∧
      exceeds (l.w.toNat * l.h.toNat * channels color) p.maxSamples = false := by
  unfold configCheck at h
  split at h
  · cases h
  · rename_i color hc
    repeat' split at h
    all_goals first
      | (cases h; done)
      | (cases h
         refine ⟨color, hc, rfl, ?_, ?_, ?_, ?_, ?_, ?_, ?_⟩ <;> first | assumption | simp_all)
    tauto

/-- The latched depth field of a configuration that passes the check is a depth (rule R93). -/
theorem decodeDepth_of_configCheck {p : Params} {l : Latch} {c : Nat} (h : configCheck p l = .ok c) :
    ∃ d, decodeDepth l.bd = .ok d := by
  obtain ⟨color, -, -, hd, -⟩ := configCheck_ok h
  unfold depthAllowed at hd
  split at hd
  · exact ⟨_, ‹_›⟩
  · cases hd

/-- The latched interlace field of a configuration that passes the check is a method (rule R94). -/
theorem decodeInterlace_of_configCheck {p : Params} {l : Latch} {c : Nat} (h : configCheck p l = .ok c) :
    ∃ m, decodeInterlace l.il = .ok m := by
  obtain ⟨-, -, -, -, hi, -⟩ := configCheck_ok h
  rcases hi with hi | hi <;> rw [hi]
  · exact ⟨.none, rfl⟩
  · exact ⟨.adam7, rfl⟩

/-- A decoded depth is the number in the field (rule R19). -/
theorem decodeDepth_bits {bd : Byte} {d : Depth} (h : decodeDepth bd = .ok d) : d.bits = bd.toNat := by
  unfold decodeDepth at h
  repeat' split at h
  all_goals first | (cases h; done) | (cases h; subst_vars; rfl)

theorem channels_pos (c : ColorType) : 1 ≤ channels c := by cases c <;> decide

/-- Everything the start of a DECODE can do (rules R91 to R96). -/
theorem startDecode_cases (s : State) :
    (∃ cause v, configCheck s.params (latchOf s.regs) = .error (cause, v) ∧
        startDecode s = raise cause v (latchOperands s)) ∨
      ∃ c, configCheck s.params (latchOf s.regs) = .ok c ∧ startDecode s = initCursors c (latchOperands s) := by
  cases h : configCheck s.params (latchOf s.regs) with
  | error e => exact .inl ⟨e.1, e.2, rfl, by simp only [startDecode, h]⟩
  | ok c => exact .inr ⟨c, rfl, by simp only [startDecode, h]⟩

/-! ## The stages -/

/-- The data-path operations always answer a next state: which one. -/
theorem runOp_filter (t : FilterType) (filt : List Byte) (s : State) :
    runOp (.filter t filt) s = .next (filterRow t filt s) := by cases t <;> rfl

theorem runOp_unpack (d : Depth) (s : State) : runOp (.unpack d) s = .next (unpackRow d s) := by cases d <;> rfl

theorem runOp_interlace (m : InterlaceMode) (s : State) : runOp (.interlace m) s = .next (loadPasses m s) := by
  cases m <;> rfl

/-- Everything fetching a record that has begun can do (rule R105). -/
theorem fetchAt_cases (s : State) :
    (∃ c v, fetchAt s = .quiet (raiseInRecord c v s) ∧
        (c = .streamUnderrun ∧ v = s.regs.spos ∨
          c = .unsupportedFilterType ∧ v = (readByte s.src s.regs.spos.toNat).setWidth 32)) ∨
      ∃ t, s.regs.spos.toNat + 1 + rowStride s ≤ s.pipe.latch.n.toNat ∧
        decodeFilter (readByte s.src s.regs.spos.toNat) = .ok t ∧
        fetchAt s = .run (.filter t (recordData s)) s := by
  simp only [fetchAt]
  split
  · exact .inl ⟨_, _, rfl, .inl ⟨rfl, rfl⟩⟩
  · rename_i h0
    cases hd : decodeFilter (readByte s.src s.regs.spos.toNat) with
    | error e => exact .inl ⟨_, _, rfl, .inr ⟨rfl, rfl⟩⟩
    | ok t =>
      by_cases h1 : s.pipe.latch.n.toNat - s.regs.spos.toNat - 1 < rowStride s
      · exact .inl ⟨_, _, by simp only [h1, if_true], .inl ⟨rfl, rfl⟩⟩
      · exact .inr ⟨t, by omega, rfl, by simp only [h1, if_false]⟩

/-- A stage of a configured DECODE answers a next state (rules R91, R105). -/
theorem stageStep_passes {s : State} {m : InterlaceMode} (h : s.pipe.stage = .passes)
    (hm : decodeInterlace s.pipe.latch.il = .ok m) : stageStep s = .next (settle (loadPasses m s)) := by
  simp only [stageStep, fetchStage, h, hm, runOp_interlace, onNext]

theorem stageStep_record {s : State} (h : s.pipe.stage = .record) :
    (∃ c v, stageStep s = .next (raiseInRecord c v (beginRecord s)) ∧
        (c = .streamUnderrun ∧ v = s.regs.spos ∨
          c = .unsupportedFilterType ∧ v = (readByte s.src s.regs.spos.toNat).setWidth 32)) ∨
      ∃ t, s.regs.spos.toNat + 1 + rowStride s ≤ s.pipe.latch.n.toNat ∧
        decodeFilter (readByte s.src s.regs.spos.toNat) = .ok t ∧
        stageStep s = .next (settle (filterRow t (recordData s) (beginRecord s))) := by
  rcases fetchAt_cases (beginRecord s) with ⟨c, v, hf, hc⟩ | ⟨t, hn, ht, hf⟩
  · exact .inl ⟨c, v, by simp only [stageStep, fetchStage, h, fetchRecord, hf], hc⟩
  · exact .inr ⟨t, hn, ht, by
      simp only [stageStep, fetchStage, h, fetchRecord, hf, runOp_filter, onNext]; rfl⟩

theorem stageStep_unpack {s : State} {d : Depth} (h : s.pipe.stage = .unpack)
    (hd : decodeDepth s.pipe.latch.bd = .ok d) : stageStep s = .next (settle (unpackRow d s)) := by
  simp only [stageStep, fetchStage, h, hd, runOp_unpack, onNext]

theorem stageStep_place {s : State} (h : s.pipe.stage = .place) : stageStep s = .next (placeRecord s) := by
  simp only [stageStep, fetchStage, h]

/-- The sequencer's moves, stage by stage, when nothing faulted. -/
theorem settle_of_fault {s : State} (h : s.regs.fault = true) : settle s = s := by simp [settle, h]

theorem settle_idle {s : State} (h : s.pipe.stage = .idle) : settle s = s := by simp [settle, h]

theorem settle_passes {s : State} (hf : s.regs.fault = false) (h : s.pipe.stage = .passes) :
    settle s = nextPass s.pipe.later s := by simp [settle, hf, h]

theorem settle_record {s : State} (hf : s.regs.fault = false) (h : s.pipe.stage = .record) :
    settle s = { s with pipe := { s.pipe with stage := .unpack } } := by simp [settle, hf, h]

theorem settle_unpack {s : State} (hf : s.regs.fault = false) (h : s.pipe.stage = .unpack) :
    settle s = { s with pipe := { s.pipe with stage := .place } } := by simp [settle, hf, h]

/-! ## The stages of a whole DECODE -/

/-- A property that every stage keeps holds at the end of a DECODE. -/
theorem runStages_keeps {P : State → Prop}
    (hstep : ∀ s t, s.pipe.stage ≠ .idle → P s → stageStep s = .next t → P t) {k : Nat} {s t : State}
    (hs : P s) (h : runStages k s = .next t) : P t := by
  induction k generalizing s with
  | zero => cases h; exact hs
  | succ k ih =>
    unfold runStages at h
    split at h
    · cases h; exact hs
    · rename_i hi
      split at h
      · exact ih (hstep _ _ hi hs ‹_›) h
      · cases h
      · cases h

/-- When every stage answers and lessens the stages left, a DECODE ends. -/
theorem runStages_ends {P : State → Prop}
    (hstep : ∀ s, s.pipe.stage ≠ .idle → P s → ∃ t, stageStep s = .next t ∧ P t ∧ stagesLeft t < stagesLeft s)
    {k : Nat} {s : State} (hs : P s) (hk : stagesLeft s ≤ k) :
    ∃ t, runStages k s = .next t ∧ P t ∧ (t.pipe.stage = .idle ∨ stagesLeft t = 0) := by
  induction k generalizing s with
  | zero => exact ⟨s, rfl, hs, .inr (by omega)⟩
  | succ k ih =>
    by_cases hi : s.pipe.stage = .idle
    · exact ⟨s, by simp [runStages, hi], hs, .inl hi⟩
    · obtain ⟨t, ht, hPt, hlt⟩ := hstep s hi hs
      obtain ⟨u, hu, hPu, hend⟩ := ih hPt (by omega)
      exact ⟨u, by simp [runStages, hi, ht, hu], hPu, hend⟩

end Sys2Proof.Machine
end

