-- ==== Sys2Proof/Laws/Decode.lean ====
section
/-! SUPPORT. A stage of a DECODE that stands where its stage says: it answers a next state that again stands where its
stage says, and it lessens the number of stages left. -/

namespace Sys2Proof.Machine

open Sys2Proof.Safety

/-- The distance the filters use is `max(1, C * BD / 8)` (rule R107). -/
theorem pixelBytes_eq_pixelDistance (s : State) : pixelBytes s = pixelDistance s := rfl

theorem passRecords_congr {s t : State} (h : t.pipe.latch = s.pipe.latch) (l : List Pass) :
    passRecords t l = passRecords s l := by
  induction l with
  | nil => rfl
  | cons p rest ih => simp [passRecords, ih, skipped, h]

theorem passRecords_enter (s : State) (before : List Pass) (p : Pass) (rest : List Pass) (hp : skipped s p = false) :
    passRecords s rest + passHeight s.pipe.latch.h.toNat p ≤ passRecords s (before ++ p :: rest) := by
  induction before with
  | nil => simp [passRecords, hp]; omega
  | cons b bs ih => simp [passRecords]; omega

theorem stagesLeft_nextPass (l : List Pass) (s : State) : stagesLeft (nextPass l s) ≤ 3 * passRecords s l := by
  rcases nextPass_cases l s with ⟨before, p, rest, rfl, -, hp, he⟩ | ⟨-, he⟩ <;> rw [he]
  · have h1 := passRecords_enter s before p rest hp
    have h2 := passRecords_congr (s := s) (t := enterPass p rest s) rfl rest
    have h3 : stagesLeft (enterPass p rest s) =
        3 * (passHeight s.pipe.latch.h.toNat p - 0) + 3 * passRecords (enterPass p rest s) rest := rfl
    omega
  · simp [stagesLeft, finishDecode, setDone]

theorem latchedPasses_of {s : State} {m : InterlaceMode} (h : decodeInterlace s.pipe.latch.il = .ok m) :
    latchedPasses s = passList m := by simp [latchedPasses, h]

theorem nextPass_sound {l : List Pass} {s : State} (hd : s.regs.done = false) (hf : s.regs.fault = false)
    (hc : Configured s) (hl : ∀ p ∈ l, p ∈ latchedPasses s) (hn : s.regs.spos.toNat ≤ s.pipe.latch.n.toNat) :
    StageSound (nextPass l s) := by
  rcases nextPass_cases l s with ⟨before, p, rest, rfl, -, hp, he⟩ | ⟨-, he⟩ <;> rw [he]
  · exact ⟨hd, hf, hc, ⟨hl p (by simp), hp, fun q hq => hl q (by simp [enterPass] at hq ⊢; tauto),
      (skipped_eq_false.mp hp).2⟩, hn, by simp [enterPass, rowStride, passStride]⟩
  · rfl

theorem dstPutAll_keeps (ws : List DstWrite) (s : State) :
    dstPutAll ws s = { s with dst := (dstPutAll ws s).dst, dstLog := (dstPutAll ws s).dstLog } := by
  induction ws generalizing s with
  | nil => rfl
  | cons w ws ih => rw [dstPutAll_cons, ih]; rfl

/-- Everything the scatter and the commit of a record keep (rule R105). -/
theorem commitRecord_keeps (s : State) :
    (commitRecord (scatterRow s)).pipe = { s.pipe with prev := s.pipe.cur } ∧
      (commitRecord (scatterRow s)).regs =
        { s.regs with spos := s.regs.spos + BitVec.ofNat 32 (1 + rowStride s) } ∧
      (commitRecord (scatterRow s)).params = s.params := by
  unfold scatterRow
  rw [dstPutAll_keeps]
  exact ⟨rfl, rfl, rfl⟩

/-- Everything a stage of a sound DECODE can do, as far as the sequencer is concerned (rules R91, R105). -/
theorem stageStep_sound {s : State} (hi : s.pipe.stage ≠ .idle) (h : StageSound s) :
    ∃ t, stageStep s = .next t ∧ StageSound t ∧ stagesLeft t < stagesLeft s := by
  cases hg : s.pipe.stage with
  | idle => exact absurd hg hi
  | passes =>
    simp only [StageSound, hg] at h
    obtain ⟨hd, hf, hc, h0⟩ := h
    obtain ⟨m, hm⟩ := decodeInterlace_of_configCheck hc
    refine ⟨_, stageStep_passes hg hm, ?_⟩
    rw [settle_passes (by simpa [loadPasses]) (by simpa [loadPasses])]
    refine ⟨nextPass_sound hd hf hc (fun p hp => by simpa [latchedPasses, loadPasses, hm] using hp)
      (by simp [loadPasses, h0]), ?_⟩
    have h1 := stagesLeft_nextPass (passList m) (loadPasses m s)
    have h2 := passRecords_congr (s := s) (t := loadPasses m s) rfl (passList m)
    have h3 : stagesLeft s = 1 + 3 * passRecords s (passList m) := by
      simp only [stagesLeft, hg, latchedPasses_of hm]
    show stagesLeft (nextPass (passList m) (loadPasses m s)) < stagesLeft s
    omega
  | record =>
    simp only [StageSound, hg] at h
    obtain ⟨hd, hf, hc, hp, -, hl⟩ := h
    have hrow := hp.rowInPass
    have h3 : stagesLeft s = 3 * (passHeight s.pipe.latch.h.toNat s.pipe.geo - s.pipe.py) +
        3 * passRecords s s.pipe.later := by simp only [stagesLeft, hg]
    rcases stageStep_record hg with ⟨c, v, e, -⟩ | ⟨t, hfit, -, e⟩ <;> refine ⟨_, e, ?_⟩
    · refine ⟨rfl, ?_⟩
      show 0 < stagesLeft s
      omega
    · rw [settle_record (by simpa [filterRow, beginRecord]) (by simpa [filterRow, beginRecord])]
      refine ⟨⟨hd, hf, hc, ⟨hp.known, hp.entered, hp.laterKnown, hp.rowInPass⟩, hfit, ?_⟩, ?_⟩
      · simp [filterRow, recordData, beginRecord, rowStride, passStride]
      · generalize hu : ({ filterRow t (recordData s) (beginRecord s) with
          pipe := { (filterRow t (recordData s) (beginRecord s)).pipe with stage := .unpack } } : State) = u
        have h2 := passRecords_congr (s := s) (t := u) (by rw [← hu]; rfl) s.pipe.later
        have h4 : stagesLeft u = 3 * (passHeight s.pipe.latch.h.toNat s.pipe.geo - s.pipe.py) - 1 +
            3 * passRecords u s.pipe.later := by rw [← hu]; rfl
        omega
  | unpack =>
    simp only [StageSound, hg] at h
    obtain ⟨hd, hf, hc, hp, hn, hl⟩ := h
    have hrow := hp.rowInPass
    obtain ⟨d, hd'⟩ := decodeDepth_of_configCheck hc
    have h3 : stagesLeft s = 3 * (passHeight s.pipe.latch.h.toNat s.pipe.geo - s.pipe.py) - 1 +
        3 * passRecords s s.pipe.later := by simp only [stagesLeft, hg]
    refine ⟨_, stageStep_unpack hg hd', ?_⟩
    rcases unpackRow_cases d s with ⟨v, -, e⟩ | ⟨-, e⟩ <;> rw [e]
    · rw [settle_of_fault (by simp [raiseInRecord, raise])]
      refine ⟨rfl, ?_⟩
      show 0 < stagesLeft s
      omega
    · rw [settle_unpack (by simpa) (by simpa)]
      refine ⟨⟨hd, hf, hc, ⟨hp.known, hp.entered, hp.laterKnown, hp.rowInPass⟩, hn, hl,
        by simp [rowSamples, rowPixels]⟩, ?_⟩
      generalize hu : ({ s with pipe := { s.pipe with
        samples := unpackLine d.bits (rowSamples s) s.pipe.cur
        bitCursor := cursorAt d.bits (rowSamples s)
        stage := .place } } : State) = u
      have h2 := passRecords_congr (s := s) (t := u) (by rw [← hu]) s.pipe.later
      have h4 : stagesLeft u = 3 * (passHeight s.pipe.latch.h.toNat s.pipe.geo - s.pipe.py) - 2 +
          3 * passRecords u s.pipe.later := by rw [← hu]; rfl
      omega
  | place =>
    simp only [StageSound, hg] at h
    obtain ⟨hd, hf, hc, hp, hn, hl, hl2⟩ := h
    have hrow := hp.rowInPass
    obtain ⟨a1, a2, a3⟩ := commitRecord_keeps s
    have h3 : stagesLeft s = 3 * (passHeight s.pipe.latch.h.toNat s.pipe.geo - s.pipe.py) - 2 +
        3 * passRecords s s.pipe.later := by simp only [stagesLeft, hg]
    refine ⟨_, stageStep_place hg, ?_⟩
    unfold placeRecord
    generalize hu : commitRecord (scatterRow s) = u at a1 a2 a3
    have hspos : u.regs.spos.toNat ≤ u.pipe.latch.n.toNat := by
      unfold RecordFits at hn
      rw [a1, a2]
      simp only [BitVec.toNat_add, BitVec.toNat_ofNat]
      have := s.pipe.latch.n.isLt
      omega
    have hdu : u.regs.done = false := by rw [a2]; exact hd
    have hfu : u.regs.fault = false := by rw [a2]; exact hf
    have hcu : Configured u := by unfold Configured; rw [a1, a3]; exact hc
    have hlater : ∀ p ∈ u.pipe.later, p ∈ latchedPasses u := by
      unfold latchedPasses; rw [a1]; exact hp.laterKnown
    have hlat : u.pipe.latch = s.pipe.latch := by rw [a1]
    unfold nextRow
    split
    · rename_i hlt
      refine ⟨⟨hdu, hfu, hcu, ⟨?_, ?_, hlater, hlt⟩, hspos, ?_⟩, ?_⟩
      · show u.pipe.geo ∈ latchedPasses u
        unfold latchedPasses; rw [a1]; exact hp.known
      · show skipped u u.pipe.geo = false
        unfold skipped; rw [a1]; exact hp.entered
      · show u.pipe.prev.length = rowStride u
        unfold rowStride passStride; rw [a1]; exact hl
      · generalize hv : ({ u with pipe := { u.pipe with py := u.pipe.py + 1, stage := .record } } : State) = v
        have h2 := passRecords_congr (s := s) (t := v) (by rw [← hv]; exact hlat) s.pipe.later
        have h4 : stagesLeft v = 3 * (passHeight s.pipe.latch.h.toNat s.pipe.geo - (s.pipe.py + 1)) +
            3 * passRecords v s.pipe.later := by rw [← hv]; simp only [stagesLeft]; rw [a1]
        rw [a1] at hlt
        simp only at hlt
        omega
    · refine ⟨nextPass_sound hdu hfu hcu hlater hspos, ?_⟩
      have h1 := stagesLeft_nextPass u.pipe.later u
      have h2 := passRecords_congr hlat u.pipe.later
      have h4 : u.pipe.later = s.pipe.later := by rw [a1]
      rw [h4] at h1 h2 ⊢
      omega

/-- A sound DECODE with no stage left has ended. -/
theorem idle_of_stagesLeft {s : State} (h : StageSound s) (h0 : stagesLeft s = 0) : s.pipe.stage = .idle := by
  cases hg : s.pipe.stage with
  | idle => rfl
  | passes => simp [stagesLeft, hg] at h0
  | record => simp only [StageSound, hg] at h; have := h.2.2.2.1.rowInPass; simp [stagesLeft, hg] at h0; omega
  | unpack => simp only [StageSound, hg] at h; have := h.2.2.2.1.rowInPass; simp [stagesLeft, hg] at h0; omega
  | place => simp only [StageSound, hg] at h; have := h.2.2.2.1.rowInPass; simp [stagesLeft, hg] at h0; omega

end Sys2Proof.Machine
end

