-- ==== Sys2Proof/Laws/PerInstr.lean ====
section
/-! SUPPORT. A family of statements about every instruction as it is written: its encoding stands at the place of its
format (rule R60). -/

namespace Sys2Proof.Laws.Place

/-- An encoded instruction stands at the place of its format, whatever the other fields of `FMT` hold: a command is one
word of at most 3, a record starts with a filter-type byte of at most 4 and holds its data bytes after it, and a mode is a
word. -/
def Statement (i : Instr) : Prop :=
  ∀ fmt,
    match encodeIn fmt i with
    | .command v => i.filt? = none ∧ v.toNat ≤ 3
    | .record bytes => ∃ ft filt, bytes = ft :: filt ∧ ft.toNat ≤ 4 ∧ i.filt? = some filt
    | .depthField _ => i.filt? = none
    | .interlaceField _ => i.filt? = none

theorem nop : Statement .nop := fun _ => ⟨rfl, by decide⟩
theorem reset : Statement .reset := fun _ => ⟨rfl, by decide⟩
theorem crcchk : Statement .crcchk := fun _ => ⟨rfl, by decide⟩
theorem decode : Statement .decode := fun _ => ⟨rfl, by decide⟩
theorem recNone (filt : List Byte) : Statement (.recNone filt) := fun _ => ⟨0, filt, rfl, by decide, rfl⟩
theorem recSub (filt : List Byte) : Statement (.recSub filt) := fun _ => ⟨1, filt, rfl, by decide, rfl⟩
theorem recUp (filt : List Byte) : Statement (.recUp filt) := fun _ => ⟨2, filt, rfl, by decide, rfl⟩
theorem recAvg (filt : List Byte) : Statement (.recAvg filt) := fun _ => ⟨3, filt, rfl, by decide, rfl⟩
theorem recPaeth (filt : List Byte) : Statement (.recPaeth filt) := fun _ => ⟨4, filt, rfl, by decide, rfl⟩
theorem unpk1 : Statement .unpk1 := fun _ => rfl
theorem unpk2 : Statement .unpk2 := fun _ => rfl
theorem unpk4 : Statement .unpk4 := fun _ => rfl
theorem unpk8 : Statement .unpk8 := fun _ => rfl
theorem unpk16 : Statement .unpk16 := fun _ => rfl
theorem ilNone : Statement .ilNone := fun _ => rfl
theorem ilAdam7 : Statement .ilAdam7 := fun _ => rfl

end Sys2Proof.Laws.Place
end

