-- ==== Sys2Proof/Laws/Step.lean ====
section
/-! SUPPORT. One step: which instruction runs, and that inside a DECODE a step is a stage. -/

namespace Sys2Proof.Machine

/-- A data-path operation and the instruction it is have one meaning. -/
theorem exec_instr (op : DatapathOp) (s : State) : exec op.instr s = runOp op s := by
  rcases op with ⟨t, filt⟩ | d | m
  · cases t <;> rfl
  · cases d <;> rfl
  · cases m <;> rfl

/-- Inside a DECODE a step is a stage (rules R91, R105). -/
theorem step_of_busy {s : State} (h : s.pipe.stage ≠ .idle) : step s = stageStep s := by
  have hf : fetch s = asInstr (fetchStage s) := by
    unfold fetch
    cases hs : s.pipe.stage <;> first | exact absurd hs h | rfl
  unfold step stageStep
  rw [hf]
  cases fetchStage s <;> simp [asInstr, execFetched, exec_instr]

/-- While no command is in progress a step takes the host's next action (rules R11, R171). -/
theorem step_of_idle {s : State} (h : s.pipe.stage = .idle) : step s = execFetched (fetchHost s) := by
  simp only [step, fetch, h]

theorem step_of_nothing_pending {s : State} (h : s.pipe.stage = .idle) (hp : s.pending = []) : step s = .next s := by
  simp only [step_of_idle h, fetchHost, hp, execFetched]

/-- What a write of a command word does, and a write of any other register (rules R11, R13, R90). -/
theorem step_of_command {s : State} {v : Word} {rest : List HostAction} {i : Instr} (h : s.pipe.stage = .idle)
    (hp : s.pending = .regWrite 1 v :: rest) (hi : decodeCommand v = .ok i) :
    step s = onNext (exec i { s with pending := rest }) settle := by
  simp only [step_of_idle h, fetchHost, hp, hostAct, hostCommand, hi, if_true, execFetched]

theorem step_of_illegal {s : State} {v : Word} {rest : List HostAction} {r : Reject} (h : s.pipe.stage = .idle)
    (hp : s.pending = .regWrite 1 v :: rest) (hi : decodeCommand v = .error r) :
    step s = .next (illegalCommand v { s with pending := rest }) := by
  simp only [step_of_idle h, fetchHost, hp, hostAct, hostCommand, hi, if_true, execFetched]

theorem decodeCommand_ok {v : Word} {i : Instr} (h : decodeCommand v = .ok i) :
    (v = 0 ∧ i = .nop) ∨ (v = 1 ∧ i = .reset) ∨ (v = 2 ∧ i = .crcchk) ∨ (v = 3 ∧ i = .decode) := by
  unfold decodeCommand at h
  repeat' split at h
  all_goals first | (cases h; done) | (cases h; simp_all)

/-- CRCCHK always answers a next state (rule R82). -/
theorem execCrcchk_next (s : State) : ∃ t, execCrcchk s = .next t := by
  unfold execCrcchk
  split
  · exact ⟨_, rfl⟩
  · exact ⟨_, rfl⟩

end Sys2Proof.Machine
end

