-- ==== Sys2Proof/Tests/Slice0.lean ====
section
/-! SUPPORT. The model's own tests: ill-formed instructions refused, words of the encoding tables decoded, vectors of
95_test_vectors.md on one step each, and for every statement with hypotheses a state that meets them. -/

namespace Sys2Proof.Tests

open Sys2Proof.Machine Sys2Proof.Safety

/-! ## Helpers -/

/-- The outcome is a next state with a property. -/
def nextIs (o : Host.Outcome State Fault Refusal) (p : State → Bool) : Bool :=
  match o with
  | .next t => p t
  | .fault _ => false
  | .refused _ => false

/-- A host that has written the operand registers, and SRC. -/
def image (w h : Nat) (fmt : Word) (pal : Nat) (src : List Byte) : State :=
  { State.reset with
    regs :=
      { Regs.reset with
        width := BitVec.ofNat 32 w
        height := BitVec.ofNat 32 h
        fmt := fmtStored fmt
        palsize := BitVec.ofNat 32 pal
        slen := BitVec.ofNat 32 src.length }
    src := writeBytes [] 0 src }

/-- A host that has put a byte sequence into CHK and written `CLEN` and `CPOS`. -/
def chunks (clen cpos : Nat) (bytes : List Byte) : State :=
  { State.reset with
    regs := { Regs.reset with clen := BitVec.ofNat 32 clen, cpos := BitVec.ofNat 32 cpos }
    chk := writeBytes [] 0 bytes }

/-- A row in the data path: previous row, depth, `C` channels, a width of `w` pixels. -/
def row (prev cur : List Byte) (bd ct : Byte) (chan w ps : Nat) : State :=
  { State.reset with
    pipe :=
      { Pipe.reset with
        prev := prev
        cur := cur
        chan := chan
        latch := { Pipe.reset.latch with bd := bd, ct := ct, w := BitVec.ofNat 32 w, h := 1, ps := BitVec.ofNat 32 ps } } }

/-- The end of a DECODE: `STATUS`, `FCODE`, `FINFO`, `SPOS`, `PASS`, `ROW`. -/
def ends (s : State) (status fcode finfo spos pass py : Nat) : Bool :=
  nextIs (exec .decode s) fun t =>
    (regRead t 2).toNat == status && (regRead t 3).toNat == fcode && (regRead t 4).toNat == finfo &&
      (regRead t 10).toNat == spos && (regRead t 11).toNat == pass && (regRead t 12).toNat == py

/-- The cells DST holds after a DECODE, by rising cell. -/
def raster (s : State) (cells : List (Nat × Nat)) : Bool :=
  nextIs (exec .decode s) fun t => t.dst.map (fun c => (c.1, c.2.toNat)) == cells

/-- The reconstructed row a record leaves in `CUR`. -/
def leavesRow (i : Instr) (s : State) (cur : List Byte) : Bool := nextIs (exec i s) fun t => t.pipe.cur == cur

/-- The samples an unpack mode hands on. -/
def leavesSamples (i : Instr) (s : State) (samples : List Nat) : Bool :=
  nextIs (exec i s) fun t => t.pipe.samples.map BitVec.toNat == samples

/-! ## Ill-formed instructions (checks 1 and 2 of WellFormed) -/

theorem test_wf_record_without_data : WellFormed (.recSub []) = false := by decide
theorem test_wf_record_too_long (n : Nat) (h : n = 2 ^ 32 - 1) : WellFormed (.recUp (List.replicate n 0)) = false := by
  have hf : fitsSpace (List.replicate n 0) = false := by
    simp only [fitsSpace, List.length_replicate, decide_eq_false_iff_not]
    omega
  simp only [WellFormed, Instr.filt?, hf, Bool.and_false]
theorem test_wf_record : WellFormed (.recPaeth [0x07]) = true := by decide
theorem test_wf_command : WellFormed .decode = true := by decide

/-! ## Words of the encoding tables (30_encoding.md rules R62, R64, R66) -/

theorem test_word_nop : decode (.command 0b00000000000000000000000000000000#32) = .ok .nop := by decide
theorem test_word_reset : decode (.command 0b00000000000000000000000000000001#32) = .ok .reset := by decide
theorem test_word_crcchk : decode (.command 0b00000000000000000000000000000010#32) = .ok .crcchk := by decide
theorem test_word_decode : decode (.command 0b00000000000000000000000000000011#32) = .ok .decode := by decide
theorem test_word_none : decode (.record [0b00000000#8, 0x07#8]) = .ok (.recNone [0x07]) := by decide
theorem test_word_sub : decode (.record [0b00000001#8, 0x07#8]) = .ok (.recSub [0x07]) := by decide
theorem test_word_up : decode (.record [0b00000010#8, 0x07#8]) = .ok (.recUp [0x07]) := by decide
theorem test_word_avg : decode (.record [0b00000011#8, 0x07#8]) = .ok (.recAvg [0x07]) := by decide
theorem test_word_paeth : decode (.record [0b00000100#8, 0x07#8]) = .ok (.recPaeth [0x07]) := by decide
/- The fields of FMT are BD 7:0, CT 15:8, IL 23:16, PALP 24 (rule R19). -/
theorem test_word_unpk1 : decode (.depthField 0b00000001000000010000001100000001#32) = .ok .unpk1 := by decide
theorem test_word_unpk2 : decode (.depthField 0b00000001000000010000001100000010#32) = .ok .unpk2 := by decide
theorem test_word_unpk4 : decode (.depthField 0b00000000000000000000000000000100#32) = .ok .unpk4 := by decide
theorem test_word_unpk8 : decode (.depthField 0b00000000000000010000011000001000#32) = .ok .unpk8 := by decide
theorem test_word_unpk16 : decode (.depthField 0b00000000000000000000001000010000#32) = .ok .unpk16 := by decide
theorem test_word_ilnone : decode (.interlaceField 0b00000001000000000000001100000001#32) = .ok .ilNone := by decide
theorem test_word_iladam7 : decode (.interlaceField 0b00000001000000010000001100000001#32) = .ok .ilAdam7 := by decide

theorem test_word_illegal_command : decode (.command 0x00000103#32) = .error (.illegalCommand 0x103) := by decide
theorem test_word_illegal_filter : decode (.record [5, 0]) = .error (.unsupportedFilterType 5) := by decide
theorem test_word_illegal_depth : decode (.depthField 0x00000003#32) = .error (.invalidBitDepth 3) := by decide
theorem test_word_illegal_interlace : decode (.interlaceField 0x00020000#32) = .error (.unsupportedInterlaceMethod 2) := by
  decide
/- The boundaries of rule R69. -/
theorem test_word_illegal_boundaries :
    3 < (4 : Word).toNat ∧ 4 < (5 : Byte).toNat ∧ (0 : Byte).toNat ∉ [1, 2, 4, 8, 16] ∧ 1 < (2 : Byte).toNat := by decide
theorem test_record_missing_data : decodeRecord 2 [1, 7] = .error .streamUnderrun := by rfl
theorem test_encode_none : encode (.recNone [7]) = .record [0, 7] := by decide
/- The table's numbering: a command, a record with its least operand bytes, a mode. -/
theorem test_table_decode : decodeTableWord 32 3 = some .decode := by decide
theorem test_table_paeth : decodeTableWord 8 4 = some (.recPaeth [0]) := by decide
theorem test_table_unpk16 : decodeTableWord 32 16 = some .unpk16 := by decide
theorem test_table_iladam7 : decodeTableWord 32 0x10000 = some .ilAdam7 := by decide

/-! ## A word of the table as the first instruction after reset -/

theorem test_first_reset : nextIs (step (State.reset.withFetchWord 32 1)) (fun t => t.regs == Regs.reset && t.src == []) = true := by
  decide
theorem test_first_sub :
    nextIs (step (State.reset.withFetchWord 8 1)) (fun t => t.pipe.stage == .unpack && t.pipe.cur == [0]) = true := by
  decide
theorem test_first_unpk8 :
    nextIs (step (State.reset.withFetchWord 32 8)) (fun t => t.pipe.stage == .place && t.pipe.samples == [0]) = true := by
  decide
theorem test_first_iladam7 :
    nextIs (step (State.reset.withFetchWord 32 0x10000)) (fun t => t.pipe.stage == .record && t.regs.pass == 1) = true := by
  decide

/-! ## CRC (vectors V2, V5, V8 to V13) -/

/-- V8: an IEND chunk. -/
def iend : List Byte := [0x00, 0x00, 0x00, 0x00, 0x49, 0x45, 0x4E, 0x44, 0xAE, 0x42, 0x60, 0x82]

theorem test_crc_iend : crc32 [0x49, 0x45, 0x4E, 0x44] = 0xAE426082 := by decide +kernel
theorem test_crc_zero : crc32 [0x00] = 0xD202EF8D := by decide +kernel
theorem test_crcchk_good : nextIs (exec .crcchk (chunks 12 0 iend)) (fun t =>
    regRead t 2 == 4 && regRead t 14 == 12 && regRead t 15 == 0x49454E44 && regRead t 16 == 0 &&
      regRead t 17 == 0xAE426082 && regRead t 18 == 0xAE426082) = true := by decide +kernel
theorem test_crcchk_mismatch : nextIs (exec .crcchk (chunks 12 0 (iend.dropLast ++ [0x83]))) (fun t =>
    regRead t 2 == 2 && regRead t 3 == 1 && regRead t 4 == 0xAE426082 && regRead t 14 == 0 &&
      regRead t 15 == 0x49454E44 && regRead t 17 == 0xAE426082 && regRead t 18 == 0xAE426083) = true := by decide +kernel

/-! ## Commands (vectors V53 to V59) -/

theorem test_cmd_illegal : nextIs (step { State.reset with pending := [.regWrite 1 0x103] }) (fun t =>
    regRead t 2 == 2 && regRead t 3 == 12 && regRead t 4 == 0x103) = true := by decide
theorem test_nop : nextIs (exec .nop (image 2 2 8 0 [])) (fun t => t == image 2 2 8 0 []) = true := by decide
theorem test_reset : nextIs (exec .reset (raise .illegalCommand 0x103 (image 7 0 0 0 []))) (fun t =>
    t.regs == Regs.reset && regRead t 0 == 0x504E4701) = true := by decide
theorem test_fmt_masked : regRead (regWrite 7 0xFFFFFFFF State.reset) 7 = 0x01FFFFFF := by decide
theorem test_read_only : regRead (regWrite 2 7 State.reset) 2 = 0 ∧ regRead State.reset 1 = 0 ∧ regRead State.reset 19 = 0 := by
  decide

/-! ## DECODE (programs P1, vectors V46, V47; one step each) -/

/-- P1, which is T1: the 2 by 2 gray image. -/
def p1 : State := image 2 2 0x00000008 0 [0x00, 0x00, 0xFF, 0x00, 0x80, 0x40]

theorem test_decode_p1 : ends p1 1 0 0 6 0 1 = true := by decide
theorem test_decode_p1_raster : raster p1 [(0, 0), (1, 255), (2, 128), (3, 64)] = true := by decide

/-! ## The five record types (vectors V28, V30, V31, V33, V34, V40, V41) -/

/-- The row above and the filtered bytes of the vectors. -/
def prev6 : List Byte := [0x0A, 0x14, 0x1E, 0x28, 0x32, 0x3C]
def filt6 : List Byte := [0x01, 0x02, 0x03, 0xFA, 0xFB, 0xFC]

theorem test_none : leavesRow (.recNone filt6) (row prev6 [] 8 0 1 6 0) filt6 = true := by decide
theorem test_sub_bpp3 :
    leavesRow (.recSub filt6) (row prev6 [] 8 2 3 2 0) [0x01, 0x02, 0x03, 0xFB, 0xFD, 0xFF] = true := by decide
theorem test_sub_bpp1 :
    leavesRow (.recSub filt6) (row prev6 [] 8 0 1 6 0) [0x01, 0x03, 0x06, 0x00, 0xFB, 0xF7] = true := by decide
theorem test_up : leavesRow (.recUp filt6) (row prev6 [] 8 0 1 6 0) [0x0B, 0x16, 0x21, 0x22, 0x2D, 0x38] = true := by
  decide
theorem test_avg_exact_sum : leavesRow (.recAvg [0xC8, 0x05]) (row [0x00, 0x64] [] 8 0 1 2 0) [0xC8, 0x9B] = true := by
  decide
theorem test_avg_bpp3 :
    leavesRow (.recAvg filt6) (row prev6 [] 8 2 3 2 0) [0x06, 0x0C, 0x12, 0x11, 0x1A, 0x23] = true := by decide
theorem test_paeth_bpp1 :
    leavesRow (.recPaeth filt6) (row prev6 [] 8 0 1 6 0) [0x0B, 0x16, 0x21, 0x22, 0x23, 0x2E] = true := by decide
theorem test_paeth_first_row :
    leavesRow (.recPaeth filt6) (row [0, 0, 0, 0, 0, 0] [] 16 0 1 3 0) [0x01, 0x02, 0x04, 0xFC, 0xFF, 0xF8] = true := by
  decide
/- Rows of the Paeth table: p negative, p above 255, and the ties. -/
theorem test_paeth_table :
    paeth 0 0 255 = 0 ∧ paeth 255 255 0 = 255 ∧ paeth 0 3 1 = 3 ∧ paeth 3 0 1 = 3 ∧ paeth 50 60 55 = 55 ∧
      paeth 10 20 5 = 20 := by decide

/-! ## The five unpack modes (vectors V42a, V42c, V42e, V42g, V42h, V43) -/

theorem test_unpk1 :
    leavesSamples .unpk1 (row [] [0xB2, 0xC0] 1 0 1 10 0) [1, 0, 1, 1, 0, 0, 1, 0, 1, 1] = true := by decide
theorem test_unpk2 : leavesSamples .unpk2 (row [] [0xE4, 0x60] 2 0 1 6 0) [3, 2, 1, 0, 1, 2] = true := by decide
theorem test_unpk4 : leavesSamples .unpk4 (row [] [0xA5, 0xF0] 4 0 1 3 0) [10, 5, 15] = true := by decide
theorem test_unpk8 : leavesSamples .unpk8 (row [] [0x01, 0x02, 0x03, 0xFF] 8 0 1 4 0) [1, 2, 3, 255] = true := by decide
theorem test_unpk16 :
    leavesSamples .unpk16 (row [] [0x12, 0x34, 0xFF, 0xFE, 0x00, 0x01] 16 0 1 3 0) [4660, 65534, 1] = true := by decide
/- V43: the index equal to the palette size. -/
theorem test_palette_fault : nextIs (exec .unpk8 (row [] [0x01, 0x02] 8 3 1 2 2)) (fun t =>
    regRead t 2 == 2 && regRead t 3 == 7 && regRead t 4 == 2 && t.pipe.samples == []) = true := by decide

/-! ## The two interlace modes (table 2.6: 8 by 1, and 2 by 2) -/

theorem test_adam7_8x1 :
    adam7Passes.map (fun p => (passWidth 8 p, passHeight 1 p)) =
      [(1, 1), (1, 1), (2, 0), (2, 1), (4, 0), (4, 1), (8, 0)] := by decide
theorem test_adam7_2x2 :
    adam7Passes.map (fun p => (passWidth 2 p, passHeight 2 p)) =
      [(1, 1), (0, 1), (1, 0), (0, 1), (1, 0), (1, 1), (2, 1)] := by decide
theorem test_ilnone : nextIs (exec .ilNone (row [] [] 8 0 1 6 0)) (fun t => t.pipe.later.length == 1) = true := by decide
theorem test_iladam7 :
    nextIs (exec .ilAdam7 (row [] [] 8 0 1 6 0)) (fun t => t.pipe.later.map Pass.pno == [1, 2, 3, 4, 5, 6, 7]) = true := by
  decide

/-! ## Witnesses: for each statement with hypotheses, operands and a state that meet all of them -/

/-- The host's next actions. -/
def doing (acts : List HostAction) (s : State) : State := { s with pending := acts }

/-- V54: an illegal command has been written. -/
def faulted : State := raise .illegalCommand 0x103 (image 7 0 0 0 [])

theorem witness_IllegalEncodingsAreRejected :
    3 < (4 : Word).toNat ∧ 4 < (5 : Byte).toNat ∧ (3 : Byte).toNat ∉ [1, 2, 4, 8, 16] ∧ 1 < (2 : Byte).toNat ∧
      (1 : Byte).toNat ∉ [0, 2, 3, 4, 6] ∧ (7 : Byte).toNat ∉ [0, 2, 3, 4, 6] ∧
      decodeColor 3 = some .palette ∧ (16 : Byte).toNat ∉ allowedByCode (3 : Byte).toNat := by decide

theorem witness_RegisterWritesReadBack : 0 ≠ 1 ∧ 2 ≠ 1 ∧ 7 ≠ 1 ∧ 19 ≠ 1 := by decide

theorem witness_IdentityIsHardWired : exec .nop faulted = .next faulted := rfl

/- Every kind of action; a write of SRC that unlists a byte, and both kinds of DST cell read. -/
theorem witness_HostActionsTakeOneStep :
    (∀ a ∈ [HostAction.regRead 18, .regWrite 7 3, .srcWrite 2 0, .chkWrite 0 7, .dstWrite 1 9, .dstRead 1, .dstRead 0],
        (doing [a] { p1 with dst := [(1, 9)] }).pipe.stage = .idle ∧
          (doing [a] { p1 with dst := [(1, 9)] }).pending = a :: []) ∧
      7 ≠ 1 ∧ memoryWf p1.src ∧ memoryWf p1.chk ∧ dstCell [(1, 9)] 1 = some 9 ∧ dstCell [(1, 9)] 0 = none := by
  refine ⟨fun _ _ => ⟨rfl, rfl⟩, by decide, by decide, by decide, rfl, rfl⟩

theorem test_src_write_reads_back :
    nextIs (step (doing [.srcWrite 2 0] p1)) (fun t => readByte t.src 2 == 0 && readByte t.src 4 == 0x80) = true := by
  decide
theorem test_dst_read : nextIs (step (doing [.dstRead 1] { p1 with dst := [(1, 9)] })) (fun t => t.replies == [9]) = true := by
  decide

theorem witness_PowerOnIsReset :
    (doing [.powerOn] faulted).pipe.stage = .idle ∧ (doing [.powerOn] faulted).pending = .powerOn :: [] := by decide

/- Every clause of the dispatch has its word; the last word is the first illegal one. -/
theorem witness_CommandWordsDispatch :
    ∀ v ∈ [(0 : Word), 1, 2, 3, 4], (doing [.regWrite 1 v] p1).pipe.stage = .idle ∧
      (doing [.regWrite 1 v] p1).pending = .regWrite 1 v :: [] := fun _ _ => ⟨rfl, rfl⟩

theorem witness_FaultedBlockIgnoresCommands :
    ∀ a ∈ [HostAction.regWrite 1 3, .regRead 3, .regWrite 5 7], (doing [a] faulted).pipe.stage = .idle ∧
      (doing [a] faulted).regs.fault = true ∧ (doing [a] faulted).pending = a :: [] := by decide

theorem witness_OnlyResetLeavesTheFaultedState :
    faulted.regs.fault = true ∧ step (doing [.regWrite 1 1] faulted) = .next (resetBlock faulted) ∧
      step (doing [.regWrite 1 0] faulted) = .next faulted := ⟨rfl, rfl, rfl⟩

/- The second half: after a finished DECODE an illegal command word, and a CRCCHK with `CLEN` = 0 (log 20). -/
theorem witness_OnlyResetLeavesTheFaultedState_both_flags :
    Sound (doing [.regWrite 1 4] (setDone true p1)) ∧
      nextIs (step (doing [.regWrite 1 4] (setDone true p1))) (fun t => regRead t 2 == 3) = true ∧
      nextIs (step (doing [.regWrite 1 2] (setDone true p1))) (fun t => regRead t 2 == 3) = true :=
  ⟨⟨by decide, by decide, by decide, ⟨by decide, by decide, by decide⟩, rfl⟩, by decide, by decide⟩

/- The three ways to be too short: the cursor past the end, V10 with 11 bytes, V12 with a payload that does not fit. -/
theorem witness_CrcchkFaultsOnTruncation :
    (chunks 12 13 iend).regs.cpos.toNat > (chunks 12 13 iend).regs.clen.toNat ∧
      (chunks 11 0 iend).regs.clen.toNat - (chunks 11 0 iend).regs.cpos.toNat < 12 ∧
      (chunks 12 0 (iend.set 3 1)).regs.clen.toNat - 0 - 12 <
        (be32List (readBytes (chunks 12 0 (iend.set 3 1)).chk 0 4)).toNat := by decide

/- V9. -/
theorem witness_CrcchkFaultsOnMismatch :
    let s := chunks 12 0 (iend.dropLast ++ [0x83])
    let len := be32List (readBytes s.chk 0 4)
    s.regs.fault = false ∧ 0 + 12 + len.toNat ≤ s.regs.clen.toNat ∧
      crc32 (readBytes s.chk 4 (4 + len.toNat)) ≠ be32List (readBytes s.chk (8 + len.toNat) 4) := by decide +kernel

/- V8. -/
theorem witness_CrcchkStepsOverAGoodRecord :
    let s := chunks 12 0 iend
    let len := be32List (readBytes s.chk 0 4)
    s.regs.fault = false ∧ 0 + 12 + len.toNat ≤ s.regs.clen.toNat ∧
      crc32 (readBytes s.chk 4 (4 + len.toNat)) = be32List (readBytes s.chk (8 + len.toNat) 4) := by decide +kernel

theorem witness_CrcchkWritesItsOwnRegistersOnly : exec .crcchk faulted = .next faulted := rfl

theorem witness_CrcchkAcceptsEncodedChunks :
    (chunks 12 0 iend).regs.fault = false ∧
      readBytes (chunks 12 0 iend).chk 0 (12 + 0) = encodeChunk 0x49454E44 [] ∧
      0 + 12 + 0 ≤ (chunks 12 0 iend).regs.clen.toNat := by decide +kernel

/- A byte at `CLEN` differs. -/
theorem witness_CrcchkReadsBelowClenOnly :
    (∀ a < (chunks 12 0 iend).regs.clen.toNat,
        readByte (writeByte (chunks 12 0 iend).chk 12 7) a = readByte (chunks 12 0 iend).chk a) ∧
      writeByte (chunks 12 0 iend).chk 12 7 ≠ (chunks 12 0 iend).chk := by decide

/- Every test of the configuration check fails once, at V16, V19, V21, V23, V24, V25, V26 and V27; and P1 is legal. -/
theorem witness_ConfigurationIsCheckedInOrder :
    verdictOf (image 2 2 0x00000108 0 []) (some (3, 1)) ∧ verdictOf (image 2 2 0x01000310 0 []) (some (4, 16)) ∧
      verdictOf (image 2 2 0x00020008 0 []) (some (5, 2)) ∧ verdictOf (image 0 2 0x00000008 0 []) (some (9, 0)) ∧
      verdictOf (image 2 0 0x00000008 0 []) (some (9, 1)) ∧ verdictOf (image 2 2 0x00000308 0 []) (some (8, 0)) ∧
      verdictOf { image 9 1 0x00000008 0 [] with params := ⟨some ⟨8, by decide⟩, none⟩ } (some (10, 0)) ∧
      verdictOf { image 3 3 0x00000008 0 [] with params := ⟨none, some ⟨8, by decide⟩⟩ } (some (10, 1)) ∧ verdictOf p1 none ∧
      p1.regs.fault = false := by
  refine ⟨.color ?_, .depth ?_ ?_, .interlace ?_ ?_ ?_, .width ?_ ?_ ?_ ?_, .height ?_ ?_ ?_ ?_ ?_,
    .noPalette ?_ ?_ ?_ ?_ ?_ ?_, .strideTooLong ?_ ?_ ?_ ?_ ?_ ?_ ⟨⟨8, by decide⟩, rfl, ?_⟩,
    .tooManySamples ?_ ?_ ?_ ?_ ?_ ?_ ?_ ⟨⟨8, by decide⟩, rfl, ?_⟩, .legal ?_ ?_ ?_ ?_ ?_ ?_ ?_ ?_, rfl⟩
  all_goals first | decide | exact fun h => by obtain ⟨m, hm, -⟩ := h; cases hm

/- V19: the legal boundary on the other side, the largest depth of a palette image. -/
theorem witness_palette_depth_boundary : verdictOf (image 2 2 0x01000308 0 []) none := by
  refine .legal ?_ ?_ ?_ ?_ ?_ ?_ ?_ ?_
  all_goals first | decide | exact fun h => by obtain ⟨m, hm, -⟩ := h; cases hm

/- P1 meets the hypotheses of DecodeLeavesTheRestAlone, DecodeIsThePassAndRowLoops, DoneMeansEveryCellWrittenOnce,
DoneLeavesTheCursorsAtTheEnd and DecodeIsARunOfSteps. -/
theorem witness_decode_done :
    p1.regs.fault = false ∧ configCheck p1.params (latchOf p1.regs) = .ok 1 ∧
      nextIs (exec .decode p1) (fun t => t.regs.done) = true := by decide

theorem witness_DecodeCompletesOnALegalStream :
    p1.regs.fault = false ∧ configCheck p1.params (latchOf p1.regs) = .ok 1 ∧
      streamNeed 1 (latchOf p1.regs) ≤ p1.regs.slen.toNat ∧
      (∀ o ∈ recordStarts 1 (latchOf p1.regs) 0 (recordPlan (latchOf p1.regs)), (readByte p1.src o).toNat ≤ 4) ∧
      (fmtCT p1.regs.fmt = 3 → indicesInPalette 1 (latchOf p1.regs) p1.src) :=
  ⟨rfl, by decide, by decide, by decide, fun h => absurd h (by decide)⟩

/- V44: a palette of three entries at depth 8, and the indices 1 and 2. -/
theorem witness_DecodeCompletesOnALegalStream_palette :
    let s := image 2 1 0x01000308 3 [0x00, 0x01, 0x02]
    s.regs.fault = false ∧ configCheck s.params (latchOf s.regs) = .ok 1 ∧
      streamNeed 1 (latchOf s.regs) ≤ s.regs.slen.toNat ∧
      (∀ o ∈ recordStarts 1 (latchOf s.regs) 0 (recordPlan (latchOf s.regs)), (readByte s.src o).toNat ≤ 4) ∧
      fmtCT s.regs.fmt = 3 ∧ indicesInPalette 1 (latchOf s.regs) s.src :=
  ⟨rfl, by decide, by decide, by decide, by decide, by unfold indicesInPalette; decide⟩

theorem witness_DecodeReadsBelowSlenOnly :
    (∀ a < p1.regs.slen.toNat, readByte (writeByte p1.src 6 7) a = readByte p1.src a) ∧ writeByte p1.src 6 7 ≠ p1.src := by
  decide

theorem witness_OldLineBuffersAreUnobservable : nextIs (exec .decode p1) (fun _ => true) = true := by decide

/-- A DECODE of `p1` at a stage of its first record. -/
def p1At (stage : Stage) : State :=
  { inDecode (latchOf p1.regs) stage p1 with
    pipe := { (inDecode (latchOf p1.regs) stage p1).pipe with prev := [0, 0], cur := [0x00, 0xFF], samples := [0, 255] } }

theorem witness_StepRunsTheDecodedInstruction :
    ((doing [.regWrite 1 3] p1).pipe.stage = .idle ∧ decode (.command 3) = .ok .decode) ∧
      ((p1At .record).pipe.stage = .record ∧
        (p1At .record).regs.spos.toNat + 1 + rowStride (p1At .record) ≤ (p1At .record).pipe.latch.n.toNat ∧
        decode (.record (readBytes (p1At .record).src (p1At .record).regs.spos.toNat (1 + rowStride (p1At .record)))) =
          .ok (.recNone [0x00, 0xFF])) ∧
      ((p1At .unpack).pipe.stage = .unpack ∧ fmtBD (fmtStored 8) = (p1At .unpack).pipe.latch.bd ∧
        decode (.depthField 8) = .ok .unpk8) ∧
      ((p1At .passes).pipe.stage = .passes ∧ fmtIL (fmtStored 8) = (p1At .passes).pipe.latch.il ∧
        decode (.interlaceField 8) = .ok .ilNone) := by decide

/- The three tests of a record where they meet: V52 without a byte, V47's type 5, V48 with one data byte of two. -/
theorem witness_RecordFaultsArePrecise :
    let cut := fun (n : Nat) (src : List Byte) =>
      inDecode { latchOf p1.regs with n := BitVec.ofNat 32 n } .record { State.reset with src := writeBytes [] 0 src }
    (cut 0 []).pipe.stage = .record ∧ (cut 0 []).pipe.latch.n.toNat ≤ (cut 0 []).regs.spos.toNat ∧
      ((cut 1 [5]).regs.spos.toNat < (cut 1 [5]).pipe.latch.n.toNat ∧ 4 < (readByte (cut 1 [5]).src 0).toNat) ∧
      (cut 2 [4, 1]).regs.spos.toNat < (cut 2 [4, 1]).pipe.latch.n.toNat ∧
      (readByte (cut 2 [4, 1]).src 0).toNat ≤ 4 ∧
      (cut 2 [4, 1]).pipe.latch.n.toNat - 0 - 1 < rowStride (cut 2 [4, 1]) := by decide

/- Pass 2 of a 2 by 2 image has no column, pass 3 no row, and pass 6 has one of each. -/
theorem witness_EmptyPassesAreSkipped :
    let w := (p1At .place).pipe.latch.w.toNat
    let h := (p1At .place).pipe.latch.h.toNat
    passWidth w ⟨2, 4, 0, 8, 8⟩ = 0 ∧ passHeight h ⟨3, 0, 4, 4, 8⟩ = 0 ∧ 0 < passWidth w ⟨6, 1, 0, 2, 2⟩ ∧
      0 < passHeight h ⟨6, 1, 0, 2, 2⟩ := by decide

theorem witness_sound_passes : Sound (p1At .passes) := by
  refine ⟨by decide, by decide, by decide, ⟨by decide, by decide, by decide⟩, ?_⟩
  exact ⟨rfl, rfl, by unfold Configured; decide, rfl⟩

theorem witness_sound_record : Sound (p1At .record) := by
  refine ⟨by decide, by decide, by decide, ⟨by decide, by decide, by decide⟩, ?_⟩
  exact ⟨rfl, rfl, by unfold Configured; decide, ⟨by decide, by decide, by decide, by decide⟩, by decide, by decide⟩

theorem witness_sound_unpack : Sound (p1At .unpack) := by
  refine ⟨by decide, by decide, by decide, ⟨by decide, by decide, by decide⟩, ?_⟩
  exact ⟨rfl, rfl, by unfold Configured; decide, ⟨by decide, by decide, by decide, by decide⟩,
    by unfold RecordFits; decide, by decide⟩

theorem witness_RowsAreScattered : Sound (p1At .place) ∧ (p1At .place).pipe.stage = .place := by
  refine ⟨⟨by decide, by decide, by decide, ⟨by decide, by decide, by decide⟩, ?_⟩, rfl⟩
  exact ⟨rfl, rfl, by unfold Configured; decide, ⟨by decide, by decide, by decide, by decide⟩,
    by unfold RecordFits; decide, by decide, by decide⟩

theorem witness_EveryStepKeepsSoundness : Sound State.reset ∧ step State.reset = .next State.reset :=
  ⟨⟨by decide, by decide, by decide, ⟨by decide, by decide, by decide⟩, rfl⟩, rfl⟩

theorem witness_SoundStatesNeverStop : Sound (p1At .unpack) := witness_sound_unpack

theorem witness_OnlyTheHostWritesTheInputs :
    step (doing [.regRead 2] p1) = .next { p1 with replies := [0] } := rfl

/- Both sides of the palette bound, for each depth a palette image may have, and the free case of another colour type. -/
theorem witness_UnpackMode :
    (∀ k < 2, byteAt (row [] [0x01, 0x02] 8 3 1 2 3).pipe.cur k < (row [] [0x01, 0x02] 8 3 1 2 3).pipe.latch.ps.toNat) ∧
      ((row [] [0x01, 0x02] 8 3 1 2 2).pipe.latch.ct = 3 ∧
        (row [] [0x01, 0x02] 8 3 1 2 2).pipe.latch.ps.toNat ≤ byteAt (row [] [0x01, 0x02] 8 3 1 2 2).pipe.cur 1 ∧
        ∀ j < 1, byteAt (row [] [0x01, 0x02] 8 3 1 2 2).pipe.cur j < (row [] [0x01, 0x02] 8 3 1 2 2).pipe.latch.ps.toNat) ∧
      (row [] [0xB2, 0xC0] 1 0 1 10 0).pipe.latch.ct ≠ 3 := by decide

theorem witness_palette_fault_depth1 : nextIs (exec .unpk1 (row [] [0x40] 1 3 1 2 1)) (fun t =>
    regRead t 3 == 7 && regRead t 4 == 1) = true := by decide
theorem witness_palette_fault_depth2 : nextIs (exec .unpk2 (row [] [0x30] 2 3 1 2 3)) (fun t =>
    regRead t 3 == 7 && regRead t 4 == 3) = true := by decide
theorem witness_palette_fault_depth4 : nextIs (exec .unpk4 (row [] [0x1F] 4 3 1 2 15)) (fun t =>
    regRead t 3 == 7 && regRead t 4 == 15) = true := by decide

theorem witness_Unpk16TakesTwoBytes :
    (row [] [0x12, 0x34] 16 0 1 1 0).pipe.latch.ct ≠ 3 ∧ (row [] [0x12, 0x34] 16 0 1 1 0).pipe.latch.bd = 16 ∧
      Configured (row [] [0x12, 0x34] 16 0 1 1 0) := by
  refine ⟨by decide, by decide, ?_⟩
  unfold Configured
  decide

theorem witness_UnfilterUndoesFilter :
    1 ≤ bpp 1 8 ∧ unfilter .paeth 1 [0x0A, 0x14, 0x1E] [0x01, 0x02, 0x03] = [0x0B, 0x16, 0x21] ∧
      filterForward .paeth 1 [0x0A, 0x14, 0x1E] [0x0B, 0x16, 0x21] = [0x01, 0x02, 0x03] := by decide

theorem witness_FirstRowAndFirstPixelLaws :
    1 ≤ 3 ∧ (∀ b ∈ List.replicate 6 (0 : Byte), b = 0) ∧ 2 < filt6.length ∧ 2 < 3 := by decide

theorem witness_ExtremeRowsUnpackToExtremes : 1 ≤ 1 ∧ 1 ≤ 4 ∧ 4 ≤ 4 := by decide

/- Two rows that differ in padding bits only: three samples of depth 1. -/
theorem witness_PaddingBitsAreIgnored :
    (∀ o < 3 * Depth.d1.bits, rowBit [0xE0] o = rowBit [0xFF] o) ∧ [(0xE0 : Byte)] ≠ [0xFF] := by decide

theorem witness_IlNoneIsOneWholePass : (⟨0, 0, 0, 1, 1⟩ : Pass) ∈ wholeImage := by decide

/- The last pass of a 2 by 2 image, and its last pixel. -/
theorem witness_PassesPartitionTheImage :
    (⟨7, 0, 1, 1, 2⟩ : Pass) ∈ passList .adam7 ∧ 1 < passWidth 2 ⟨7, 0, 1, 1, 2⟩ ∧ 0 < passHeight 2 ⟨7, 0, 1, 1, 2⟩ ∧
      1 < 2 := by decide

end Sys2Proof.Tests
end

section
/-! What a step does to the parameters and the data spaces (rules R7, R40): the frame of every operation, the inversion
of a step between commands, and obligation O60. -/

namespace Sys2Proof.Machine

/-- The parameters and the two spaces the block only reads are the same in both states. -/
structure SameInputs (s t : State) : Prop where
  params : t.params = s.params
  src : t.src = s.src
  chk : t.chk = s.chk

/-- Nothing outside the block is written: DST and its port keep still as well. -/
structure SameSpaces (s t : State) : Prop extends SameInputs s t where
  dst : t.dst = s.dst
  dstLog : t.dstLog = s.dstLog

theorem SameInputs.trans {s t u : State} (h : SameInputs s t) (k : SameInputs t u) : SameInputs s u :=
  ⟨k.params.trans h.params, k.src.trans h.src, k.chk.trans h.chk⟩

theorem SameSpaces.refl (s : State) : SameSpaces s s := ⟨⟨rfl, rfl, rfl⟩, rfl, rfl⟩

theorem SameSpaces.trans {s t u : State} (h : SameSpaces s t) (k : SameSpaces t u) : SameSpaces s u :=
  ⟨h.toSameInputs.trans k.toSameInputs, k.dst.trans h.dst, k.dstLog.trans h.dstLog⟩

/-! ## The sequencer -/

theorem loadPasses_sameSpaces (m : InterlaceMode) (s : State) : SameSpaces s (loadPasses m s) :=
  ⟨⟨rfl, rfl, rfl⟩, rfl, rfl⟩

theorem beginRecord_sameSpaces (s : State) : SameSpaces s (beginRecord s) := ⟨⟨rfl, rfl, rfl⟩, rfl, rfl⟩

theorem filterRow_sameSpaces (t : FilterType) (filt : List Byte) (s : State) : SameSpaces s (filterRow t filt s) :=
  ⟨⟨rfl, rfl, rfl⟩, rfl, rfl⟩

theorem raise_sameSpaces (c : Cause) (v : Word) (s : State) : SameSpaces s (raise c v s) :=
  ⟨⟨rfl, rfl, rfl⟩, rfl, rfl⟩

theorem raiseInRecord_sameSpaces (c : Cause) (v : Word) (s : State) : SameSpaces s (raiseInRecord c v s) :=
  ⟨⟨rfl, rfl, rfl⟩, rfl, rfl⟩

theorem nextPass_sameSpaces (l : List Pass) (s : State) : SameSpaces s (nextPass l s) := by
  rcases nextPass_cases l s with ⟨_, p, rest, _, _, _, he⟩ | ⟨_, he⟩ <;> rw [he]
  · exact ⟨⟨rfl, rfl, rfl⟩, rfl, rfl⟩
  · exact ⟨⟨rfl, rfl, rfl⟩, rfl, rfl⟩

theorem nextRow_sameSpaces (s : State) : SameSpaces s (nextRow s) := by
  unfold nextRow
  split
  · exact ⟨⟨rfl, rfl, rfl⟩, rfl, rfl⟩
  · exact nextPass_sameSpaces _ _

theorem settle_sameSpaces (s : State) : SameSpaces s (settle s) := by
  unfold settle
  split
  · exact .refl s
  · split
    · exact .refl s
    · exact nextPass_sameSpaces _ _
    · exact ⟨⟨rfl, rfl, rfl⟩, rfl, rfl⟩
    · exact ⟨⟨rfl, rfl, rfl⟩, rfl, rfl⟩
    · exact .refl s

theorem unpackRow_sameSpaces (d : Depth) (s : State) : SameSpaces s (unpackRow d s) := by
  rcases unpackRow_cases d s with ⟨_, _, he⟩ | ⟨_, he⟩ <;> rw [he]
  · exact raiseInRecord_sameSpaces _ _ s
  · exact ⟨⟨rfl, rfl, rfl⟩, rfl, rfl⟩

/-- Only the placing of a row writes outside the block (rules R105, R135). -/
theorem stageStep_sameSpaces {s t : State} (hp : s.pipe.stage ≠ .place) (h : stageStep s = .next t) :
    SameSpaces s t := by
  cases hg : s.pipe.stage with
  | idle =>
    simp only [stageStep, fetchStage, hg, Host.Outcome.next.injEq] at h
    exact h ▸ .refl s
  | passes =>
    cases hm : decodeInterlace s.pipe.latch.il with
    | ok m =>
      cases (stageStep_passes hg hm).symm.trans h
      exact (loadPasses_sameSpaces m s).trans (settle_sameSpaces _)
    | error e => simp [stageStep, fetchStage, hg, hm] at h
  | record =>
    rcases stageStep_record hg with ⟨c, v, he, -⟩ | ⟨ft, -, -, he⟩ <;> cases he.symm.trans h
    · exact (beginRecord_sameSpaces s).trans (raiseInRecord_sameSpaces c v _)
    · exact ((beginRecord_sameSpaces s).trans (filterRow_sameSpaces ft _ _)).trans (settle_sameSpaces _)
  | unpack =>
    cases hd : decodeDepth s.pipe.latch.bd with
    | ok d =>
      cases (stageStep_unpack hg hd).symm.trans h
      exact (unpackRow_sameSpaces d s).trans (settle_sameSpaces _)
    | error e => simp [stageStep, fetchStage, hg, hd] at h
  | place => exact absurd hg hp

theorem placeRecord_sameInputs (s : State) : SameInputs s (placeRecord s) := by
  have hcommit : SameInputs s (commitRecord (scatterRow s)) := ⟨by simp, by simp, by simp⟩
  exact hcommit.trans (nextRow_sameSpaces _).toSameInputs

/-- No stage of a DECODE writes SRC or CHK (rule R40). -/
theorem stageStep_sameInputs {s t : State} (h : stageStep s = .next t) : SameInputs s t := by
  by_cases hg : s.pipe.stage = .place
  · cases (stageStep_place hg).symm.trans h
    exact placeRecord_sameInputs s
  · exact (stageStep_sameSpaces hg h).toSameInputs

/-! ## The commands -/

theorem resetBlock_sameSpaces (s : State) : SameSpaces s (resetBlock s) := ⟨⟨rfl, rfl, rfl⟩, rfl, rfl⟩

theorem captureChunk_sameSpaces (s : State) : SameSpaces s (captureChunk s) := ⟨⟨rfl, rfl, rfl⟩, rfl, rfl⟩

theorem latchOperands_sameSpaces (s : State) : SameSpaces s (latchOperands s) := ⟨⟨rfl, rfl, rfl⟩, rfl, rfl⟩

theorem startDecode_sameSpaces (s : State) : SameSpaces s (startDecode s) := by
  rcases startDecode_cases s with ⟨_, _, _, he⟩ | ⟨_, _, he⟩ <;> rw [he]
  · exact (latchOperands_sameSpaces s).trans (raise_sameSpaces _ _ _)
  · exact ⟨⟨rfl, rfl, rfl⟩, rfl, rfl⟩

theorem execDecode_sameInputs {s t : State} (h : execDecode s = .next t) : SameInputs s t := by
  unfold execDecode at h
  split at h
  · cases h
    exact (SameSpaces.refl s).toSameInputs
  · exact runStages_keeps (P := SameInputs s) (fun _ _ _ hk hstep => hk.trans (stageStep_sameInputs hstep))
      (startDecode_sameSpaces s).toSameInputs h

theorem checkChunk_sameSpaces (s : State) : SameSpaces s (checkChunk s) := by
  rcases checkChunk_cases s with ⟨_, he⟩ | ⟨_, _, he⟩ | ⟨_, _, he⟩ <;> rw [he]
  · exact raise_sameSpaces _ _ s
  · exact (captureChunk_sameSpaces s).trans (raise_sameSpaces _ _ _)
  · exact ⟨⟨rfl, rfl, rfl⟩, rfl, rfl⟩

theorem execCrcchk_sameSpaces {s t : State} (h : execCrcchk s = .next t) : SameSpaces s t := by
  unfold execCrcchk at h
  split at h <;> cases h
  · exact .refl s
  · have hstart : SameSpaces s (startCrcchk s) := ⟨⟨rfl, rfl, rfl⟩, rfl, rfl⟩
    exact hstart.trans (checkChunk_sameSpaces _)

theorem illegalCommand_sameSpaces (v : Word) (s : State) : SameSpaces s (illegalCommand v s) := by
  unfold illegalCommand
  split
  · exact .refl s
  · exact raise_sameSpaces _ _ s

theorem regWrite_sameSpaces (n : Nat) (v : Word) (s : State) : SameSpaces s (regWrite n v s) := by
  unfold regWrite
  split <;> exact ⟨⟨rfl, rfl, rfl⟩, rfl, rfl⟩

/-- Going on to the sequencer keeps what the operation before it kept. -/
theorem onNext_settle_eq_next {o : Host.Outcome State Fault Refusal} {t : State} (h : onNext o settle = .next t) :
    ∃ u, o = .next u ∧ SameSpaces u t := by
  cases o with
  | next u =>
    cases h
    exact ⟨u, rfl, settle_sameSpaces u⟩
  | fault r => cases h
  | refused r => cases h

/-- A command word other than DECODE's writes nothing outside the block; DECODE's writes DST only (rules R82, R90,
R98 to R100). -/
theorem hostCommand_cases {s t : State} {v : Word} (h : execFetched (hostCommand v s) = .next t) :
    SameSpaces s t ∨ v = 3 ∧ SameInputs s t := by
  cases hd : decodeCommand v with
  | error r =>
    simp only [hostCommand, hd, execFetched, Host.Outcome.next.injEq] at h
    exact .inl (h ▸ illegalCommand_sameSpaces v s)
  | ok i =>
    simp only [hostCommand, hd, execFetched] at h
    obtain ⟨u, hu, hut⟩ := onNext_settle_eq_next h
    rcases decodeCommand_ok hd with ⟨-, rfl⟩ | ⟨-, rfl⟩ | ⟨-, rfl⟩ | ⟨hv, rfl⟩
    · cases hu
      exact .inl hut
    · cases hu
      exact .inl ((resetBlock_sameSpaces s).trans hut)
    · exact .inl ((execCrcchk_sameSpaces hu).trans hut)
    · exact .inr ⟨hv, (execDecode_sameInputs hu).trans hut.toSameInputs⟩

/-! ## A step -/

/-- What a step between commands does to the data spaces: nothing, unless the host's action is a write of one of them or
the command DECODE (rules R40, R90). -/
theorem step_spaces_of_idle {s t : State} (hi : s.pipe.stage = .idle) (h : step s = .next t) :
    SameSpaces s t ∨
      (∃ a b rest, s.pending = .srcWrite a b :: rest ∧
        t = { s with pending := rest, src := writeByte s.src a.toNat b }) ∨
      (∃ a b rest, s.pending = .chkWrite a b :: rest ∧
        t = { s with pending := rest, chk := writeByte s.chk a.toNat b }) ∨
      (∃ i v rest, s.pending = .dstWrite i v :: rest ∧ t = { s with pending := rest, dst := putCell i v s.dst }) ∨
      ∃ rest, s.pending = .regWrite 1 3 :: rest ∧ SameInputs s t := by
  cases hp : s.pending with
  | nil =>
    cases (step_of_nothing_pending hi hp).symm.trans h
    exact .inl (.refl s)
  | cons act rest =>
    have htaken : SameSpaces s { s with pending := rest } := ⟨⟨rfl, rfl, rfl⟩, rfl, rfl⟩
    simp only [step_of_idle hi, fetchHost, hp] at h
    cases act with
    | regWrite n v =>
      simp only [hostAct] at h
      split at h
      · rename_i hn
        subst hn
        rcases hostCommand_cases h with hk | ⟨rfl, hk⟩
        · exact .inl (htaken.trans hk)
        · exact .inr (.inr (.inr (.inr ⟨rest, rfl, htaken.toSameInputs.trans hk⟩)))
      · cases h
        exact .inl (htaken.trans (regWrite_sameSpaces n v _))
    | srcWrite a b =>
      cases h
      exact .inr (.inl ⟨a, b, rest, rfl, rfl⟩)
    | chkWrite a b =>
      cases h
      exact .inr (.inr (.inl ⟨a, b, rest, rfl, rfl⟩))
    | dstWrite i v =>
      cases h
      exact .inr (.inr (.inr (.inl ⟨i, v, rest, rfl, rfl⟩)))
    | regRead n =>
      cases h
      exact .inl ⟨⟨rfl, rfl, rfl⟩, rfl, rfl⟩
    | dstRead i =>
      cases h
      exact .inl ⟨⟨rfl, rfl, rfl⟩, rfl, rfl⟩
    | powerOn =>
      cases h
      exact .inl ⟨⟨rfl, rfl, rfl⟩, rfl, rfl⟩

/-- Settles O60: inside a DECODE by the frames of its stages, between commands by the host's action. -/
theorem onlyTheHostWritesTheInputs : Obligations.OnlyTheHostWritesTheInputs := by
  intro s t h
  by_cases hi : s.pipe.stage = .idle
  · rcases step_spaces_of_idle hi h with ⟨⟨hparams, hsrc, hchk⟩, hdst, hlog⟩ | ⟨a, b, rest, hp, rfl⟩ |
      ⟨a, b, rest, hp, rfl⟩ | ⟨i, v, rest, hp, rfl⟩ | ⟨rest, hp, hparams, hsrc, hchk⟩
    · exact ⟨hparams, fun _ => hsrc, fun _ => hchk, fun _ _ _ => ⟨hdst, hlog⟩, fun _ => ⟨hdst, hlog⟩⟩
    · simp [hi, hp]
    · simp [hi, hp]
    · simp [hi, hp]
    · simp [hi, hp, hparams, hsrc, hchk]
  · rw [step_of_busy hi] at h
    obtain ⟨hparams, hsrc, hchk⟩ := stageStep_sameInputs h
    refine ⟨hparams, fun _ => hsrc, fun _ => hchk, fun hidle => absurd hidle hi, fun hg => ?_⟩
    have hplace : s.pipe.stage ≠ .place := by rcases hg with hg | hg | hg <;> simp [hg]
    have hk := stageStep_sameSpaces hplace h
    exact ⟨hk.dst, hk.dstLog⟩

end Sys2Proof.Machine
end

section
/-! Soundness of a state (rules R14 to R16, R51, R142, R146): what a step does to the status registers, the inversion of
a step between commands, and obligations O58, O57 and O16. -/

namespace Sys2Proof.Machine

open Sys2Proof.Safety

/-! ## The status registers -/

/-- The recorded fault is the same. -/
structure FaultKept (r r' : Regs) : Prop where
  fault : r'.fault = r.fault
  fcode : r'.fcode = r.fcode
  finfo : r'.finfo = r.finfo

/-- A fault of the table has been recorded, and `DONE` is as it was (rule R142). -/
structure FaultRaised (r r' : Regs) : Prop where
  fault : r'.fault = true
  fcode : ∃ c, r'.fcode = causeCode c
  done : r'.done = r.done

theorem FaultKept.refl (r : Regs) : FaultKept r r := ⟨rfl, rfl, rfl⟩

theorem FaultKept.trans {r r' r'' : Regs} (h : FaultKept r r') (k : FaultKept r' r'') : FaultKept r r'' :=
  ⟨k.fault.trans h.fault, k.fcode.trans h.fcode, k.finfo.trans h.finfo⟩

theorem raise_faultRaised (c : Cause) (v : Word) (s : State) : FaultRaised s.regs (raise c v s).regs :=
  ⟨rfl, ⟨c, rfl⟩, rfl⟩

theorem raiseInRecord_faultRaised (c : Cause) (v : Word) (s : State) :
    FaultRaised s.regs (raiseInRecord c v s).regs := ⟨rfl, ⟨c, rfl⟩, rfl⟩

/-- A code of the table is not the code of no fault, and is at most 12 (rules R15, R141). -/
theorem causeCode_bounds (c : Cause) : causeCode c ≠ 0 ∧ (causeCode c).toNat ≤ 12 := by cases c <;> decide

theorem statusSound_reset : StatusSound Regs.reset := ⟨by decide, by decide, by decide⟩

theorem FaultKept.statusSound {r r' : Regs} (h : FaultKept r r') (hs : StatusSound r) : StatusSound r' := by
  obtain ⟨hiff, htable, hinfo⟩ := hs
  rw [← h.fault, ← h.fcode] at hiff
  rw [← h.fcode] at htable
  rw [← h.fcode, ← h.finfo] at hinfo
  exact ⟨hiff, htable, hinfo⟩

theorem FaultRaised.statusSound {r r' : Regs} (h : FaultRaised r r') : StatusSound r' := by
  obtain ⟨hfault, ⟨c, hcode⟩, -⟩ := h
  obtain ⟨hne, hle⟩ := causeCode_bounds c
  exact ⟨iff_of_true hfault (hcode ▸ hne), hcode ▸ hle, fun h0 => absurd (hcode.symm.trans h0) hne⟩

/-! ## The stages -/

theorem nextPass_faultKept (l : List Pass) (s : State) : FaultKept s.regs (nextPass l s).regs := by
  rcases nextPass_cases l s with ⟨_, p, rest, _, _, _, he⟩ | ⟨_, he⟩ <;> rw [he]
  · exact ⟨rfl, rfl, rfl⟩
  · exact ⟨rfl, rfl, rfl⟩

theorem faultKept_settle {r : Regs} {s : State} (h : FaultKept r s.regs) : FaultKept r (settle s).regs := by
  refine h.trans ?_
  unfold settle
  split
  · exact .refl _
  · split
    · exact .refl _
    · exact nextPass_faultKept _ _
    · exact .refl _
    · exact .refl _
    · exact .refl _

theorem placeRecord_faultKept (s : State) : FaultKept s.regs (placeRecord s).regs := by
  have hcommit : FaultKept s.regs (commitRecord (scatterRow s)).regs := ⟨by simp, by simp, by simp⟩
  refine hcommit.trans ?_
  unfold placeRecord nextRow
  split
  · exact .refl _
  · exact nextPass_faultKept _ _

/-- A stage leaves the recorded fault alone or raises one (rule R142). -/
theorem stageStep_fault_cases {s t : State} (h : stageStep s = .next t) :
    FaultKept s.regs t.regs ∨ FaultRaised s.regs t.regs := by
  cases hg : s.pipe.stage with
  | idle =>
    simp only [stageStep, fetchStage, hg, Host.Outcome.next.injEq] at h
    exact .inl (h ▸ .refl _)
  | passes =>
    cases hm : decodeInterlace s.pipe.latch.il with
    | ok m =>
      cases (stageStep_passes hg hm).symm.trans h
      exact .inl (faultKept_settle (.refl _))
    | error e => simp [stageStep, fetchStage, hg, hm] at h
  | record =>
    rcases stageStep_record hg with ⟨c, v, he, -⟩ | ⟨ft, -, -, he⟩ <;> cases he.symm.trans h
    · exact .inr ⟨rfl, ⟨c, rfl⟩, rfl⟩
    · exact .inl (faultKept_settle ⟨rfl, rfl, rfl⟩)
  | unpack =>
    cases hd : decodeDepth s.pipe.latch.bd with
    | ok d =>
      cases (stageStep_unpack hg hd).symm.trans h
      rcases unpackRow_cases d s with ⟨v, -, he⟩ | ⟨-, he⟩ <;> rw [he]
      · rw [settle_of_fault rfl]
        exact .inr (raiseInRecord_faultRaised _ _ s)
      · exact .inl (faultKept_settle (.refl _))
    | error e => simp [stageStep, fetchStage, hg, hd] at h
  | place =>
    cases (stageStep_place hg).symm.trans h
    exact .inl (placeRecord_faultKept s)

theorem stageStep_statusSound {s t : State} (h : stageStep s = .next t) (hs : StatusSound s.regs) :
    StatusSound t.regs := by
  rcases stageStep_fault_cases h with hk | hr
  · exact hk.statusSound hs
  · exact hr.statusSound

/-- No stage sets `DONE` and `FAULT` together (rules R97, R142). -/
theorem stageStep_not_done_and_fault {s t : State} (hi : s.pipe.stage ≠ .idle) (hs : StageSound s)
    (h : stageStep s = .next t) : t.regs.done = false ∨ t.regs.fault = false := by
  obtain ⟨hdone, hfault⟩ : s.regs.done = false ∧ s.regs.fault = false := by
    cases hg : s.pipe.stage <;> simp only [StageSound, hg] at hs
    case idle => exact absurd hg hi
    all_goals exact ⟨hs.1, hs.2.1⟩
  rcases stageStep_fault_cases h with hk | hr
  · exact .inr (hk.fault.trans hfault)
  · exact .inl (hr.done.trans hdone)

theorem stageStep_dstWf {s t : State} (h : stageStep s = .next t) (hs : dstWf s.dst) : dstWf t.dst := by
  by_cases hg : s.pipe.stage = .place
  · cases (stageStep_place hg).symm.trans h
    have hdst : (placeRecord s).dst = (scatterRow s).dst := (nextRow_sameSpaces _).dst
    exact hdst ▸ dstWf_dstPutAll (rowWrites s) s hs
  · exact (stageStep_sameSpaces hg h).dst ▸ hs

/-! ## A whole DECODE -/

/-- A DECODE keeps the canonical form of DST, ignored or not (log 4). -/
theorem execDecode_dstWf {s t : State} (h : execDecode s = .next t) (hs : dstWf s.dst) : dstWf t.dst := by
  unfold execDecode at h
  split at h
  · cases h
    exact hs
  · exact runStages_keeps (P := fun u => dstWf u.dst) (fun _ _ _ hu hstep => stageStep_dstWf hstep hu)
      ((startDecode_sameSpaces s).dst ▸ hs) h

theorem execDecode_of_ready {s : State} (hf : s.regs.fault = false) :
    execDecode s = runStages (stagesLeft (startDecode s)) (startDecode s) := by simp [execDecode, hf]

/-- What holds at the start of a DECODE that is not ignored, and is kept by each of its stages, holds at its end; and
there no command is in progress any more. -/
theorem execDecode_keeps {P : State → Prop} {s t : State}
    (hstep : ∀ u v, u.pipe.stage ≠ .idle → StageSound u → P u → stageStep u = .next v → P v)
    (hf : s.regs.fault = false) (hs : StageSound (startDecode s)) (hP : P (startDecode s))
    (h : execDecode s = .next t) : P t ∧ StageSound t ∧ t.pipe.stage = .idle := by
  rw [execDecode_of_ready hf] at h
  have hadvance : ∀ u, u.pipe.stage ≠ .idle → (StageSound u ∧ P u) →
      ∃ v, stageStep u = .next v ∧ (StageSound v ∧ P v) ∧ stagesLeft v < stagesLeft u := by
    rintro u hi ⟨hu, hPu⟩
    obtain ⟨v, hv, hsv, hlt⟩ := stageStep_sound hi hu
    exact ⟨v, hv, ⟨hsv, hstep u v hi hu hPu hv⟩, hlt⟩
  obtain ⟨t', ht', ⟨hst, hPt⟩, hend⟩ := runStages_ends hadvance ⟨hs, hP⟩ le_rfl
  cases ht'.symm.trans h
  exact ⟨hPt, hst, hend.elim id (idle_of_stagesLeft hst)⟩

/-- A DECODE whose configuration passes starts where its first stage says. -/
theorem initCursors_sound {s : State} {c : Nat} (hf : s.regs.fault = false)
    (hc : configCheck s.params (latchOf s.regs) = .ok c) : StageSound (initCursors c (latchOperands s)) :=
  ⟨rfl, hf, hc, rfl⟩

theorem startDecode_sound {s : State} (hf : s.regs.fault = false) (hrow : s.pipe.samples = []) :
    StageSound (startDecode s) := by
  rcases startDecode_cases s with ⟨cause, v, -, he⟩ | ⟨c, hc, he⟩ <;> rw [he]
  · exact hrow
  · exact initCursors_sound hf hc

theorem startDecode_statusSound {s : State} (hs : StatusSound s.regs) : StatusSound (startDecode s).regs := by
  rcases startDecode_cases s with ⟨cause, v, -, he⟩ | ⟨c, -, he⟩ <;> rw [he]
  · exact (raise_faultRaised cause v (latchOperands s)).statusSound
  · have hkept : FaultKept s.regs (initCursors c (latchOperands s)).regs := ⟨rfl, rfl, rfl⟩
    exact hkept.statusSound hs

theorem startDecode_done (s : State) : (startDecode s).regs.done = false := by
  rcases startDecode_cases s with ⟨cause, v, -, he⟩ | ⟨c, -, he⟩ <;> rw [he] <;> rfl

/-- A DECODE leaves the status registers in agreement, sets `DONE` or `FAULT` but never both, and keeps no row (rules
R51, R97, R142). -/
theorem execDecode_sound {s t : State} (hf : s.regs.fault = false) (hrow : s.pipe.samples = [])
    (hstatus : StatusSound s.regs) (h : execDecode s = .next t) :
    StatusSound t.regs ∧ (t.regs.done = false ∨ t.regs.fault = false) ∧ StageSound t ∧ t.pipe.stage = .idle := by
  have hkeep : ∀ u v, u.pipe.stage ≠ .idle → StageSound u →
      (StatusSound u.regs ∧ (u.regs.done = false ∨ u.regs.fault = false)) → stageStep u = .next v →
      StatusSound v.regs ∧ (v.regs.done = false ∨ v.regs.fault = false) :=
    fun u v hi hu hP hv => ⟨stageStep_statusSound hv hP.1, stageStep_not_done_and_fault hi hu hv⟩
  obtain ⟨⟨hst, hflags⟩, hstage, hidle⟩ :=
    execDecode_keeps hkeep hf (startDecode_sound hf hrow)
      ⟨startDecode_statusSound hstatus, .inl (startDecode_done s)⟩ h
  exact ⟨hst, hflags, hstage, hidle⟩

/-! ## A step between commands -/

/-- What a step between commands does to the status registers and to the hidden state. -/
inductive HostStep (s t : State) : Prop where
  /-- Nothing: a read, a write of a register other than `CMD`, a write of a space, an ignored command, NOP. -/
  | kept (pipe : t.pipe = s.pipe) (fault : FaultKept s.regs t.regs) (done : t.regs.done = s.regs.done)
  /-- The command RESET or power-on reset (rules R99, R170). -/
  | reset {rest : List HostAction} (action : s.pending = .regWrite 1 1 :: rest ∨ s.pending = .powerOn :: rest)
    (regs : t.regs = Regs.reset) (idle : t.pipe.stage = .idle) (row : t.pipe.samples = [])
  /-- A CRCCHK or an illegal command word that is not ignored (rules R82, R100). -/
  | check {v : Word} {rest : List HostAction} (action : s.pending = .regWrite 1 v :: rest)
    (word : v = 2 ∨ 3 < v.toNat) (ready : s.regs.fault = false)
    (fault : FaultKept s.regs t.regs ∨ FaultRaised s.regs t.regs) (done : t.regs.done = s.regs.done)
    (idle : t.pipe.stage = .idle) (row : t.pipe.samples = s.pipe.samples)
  /-- A DECODE that is not ignored (rule R91). -/
  | decode {u : State} (rest : List HostAction) (action : s.pending = .regWrite 1 3 :: rest)
    (ready : s.regs.fault = false) (runs : execDecode { s with pending := rest } = .next u) (ends : t = settle u)

/-- A step between commands does the action at the head of the list (rules R11, R40). -/
theorem step_of_action {s : State} {act : HostAction} {rest : List HostAction} (hi : s.pipe.stage = .idle)
    (hp : s.pending = act :: rest) : step s = execFetched (hostAct act { s with pending := rest }) := by
  simp only [step_of_idle hi, fetchHost, hp]

theorem decodeCommand_error {v : Word} {r : Reject} (h : decodeCommand v = .error r) : 3 < v.toNat := by
  unfold decodeCommand at h
  iterate 4
    split at h
    · cases h
  bv_omega

theorem regWrite_flags (n : Nat) (v : Word) (s : State) :
    FaultKept s.regs (regWrite n v s).regs ∧ (regWrite n v s).regs.done = s.regs.done ∧
      (regWrite n v s).pipe = s.pipe := by
  unfold regWrite
  split <;> exact ⟨⟨rfl, rfl, rfl⟩, rfl, rfl⟩

/-- What the check of a record does to the status registers and to the hidden state (rules R82 to R86). -/
theorem checkChunk_flags (s : State) :
    (FaultKept s.regs (checkChunk s).regs ∨ FaultRaised s.regs (checkChunk s).regs) ∧
      (checkChunk s).regs.done = s.regs.done ∧ (checkChunk s).pipe.samples = s.pipe.samples ∧
      (s.pipe.stage = .idle → (checkChunk s).pipe.stage = .idle) := by
  rcases checkChunk_cases s with ⟨-, he⟩ | ⟨-, -, he⟩ | ⟨-, -, he⟩ <;> rw [he]
  · exact ⟨.inr (raise_faultRaised _ _ s), rfl, rfl, fun _ => rfl⟩
  · exact ⟨.inr ⟨rfl, ⟨.crcMismatch, rfl⟩, rfl⟩, rfl, rfl, fun _ => rfl⟩
  · exact ⟨.inl ⟨rfl, rfl, rfl⟩, rfl, rfl, id⟩

/-- An ignored command, and NOP (rules R90, R98). -/
theorem hostStep_of_ignored {s : State} (hi : s.pipe.stage = .idle) (rest : List HostAction) :
    HostStep s (settle { s with pending := rest }) := by
  rw [settle_idle (s := { s with pending := rest }) hi]
  exact .kept rfl (.refl _) rfl

theorem hostStep_of_illegal {s : State} {v : Word} {rest : List HostAction}
    (hp : s.pending = .regWrite 1 v :: rest) (hv : 3 < v.toNat) :
    HostStep s (illegalCommand v { s with pending := rest }) := by
  unfold illegalCommand
  split
  · exact .kept rfl (.refl _) rfl
  · rename_i hf
    exact .check hp (.inr hv) (by simpa using hf) (.inr (raise_faultRaised _ v _)) rfl rfl rfl

theorem hostStep_of_crcchk {s u : State} {rest : List HostAction} (hi : s.pipe.stage = .idle)
    (hp : s.pending = .regWrite 1 2 :: rest) (hu : execCrcchk { s with pending := rest } = .next u) :
    HostStep s (settle u) := by
  unfold execCrcchk at hu
  split at hu <;> cases hu
  · exact hostStep_of_ignored hi rest
  · rename_i hf
    obtain ⟨hfault, hdone, hrow, hidle⟩ := checkChunk_flags (startCrcchk { s with pending := rest })
    rw [settle_idle (hidle hi)]
    have hstart : FaultKept s.regs (startCrcchk { s with pending := rest }).regs := ⟨rfl, rfl, rfl⟩
    exact .check hp (.inl rfl) (by simpa using hf)
      (hfault.imp hstart.trans fun ⟨hfault, hcode, hdone⟩ => ⟨hfault, hcode, hdone⟩) hdone (hidle hi) hrow

theorem hostStep_of_decode {s u : State} {rest : List HostAction} (hi : s.pipe.stage = .idle)
    (hp : s.pending = .regWrite 1 3 :: rest) (hu : execDecode { s with pending := rest } = .next u) :
    HostStep s (settle u) := by
  cases hf : s.regs.fault with
  | false => exact .decode rest hp hf hu rfl
  | true =>
    simp only [execDecode, hf, if_true, Host.Outcome.next.injEq] at hu
    subst hu
    exact hostStep_of_ignored hi rest

/-- What a command word does (rules R90, R98 to R100). -/
theorem hostStep_of_command {s t : State} {v : Word} {rest : List HostAction} (hi : s.pipe.stage = .idle)
    (hp : s.pending = .regWrite 1 v :: rest) (h : step s = .next t) : HostStep s t := by
  cases hd : decodeCommand v with
  | error r =>
    cases (step_of_illegal hi hp hd).symm.trans h
    exact hostStep_of_illegal hp (decodeCommand_error hd)
  | ok i =>
    rw [step_of_command hi hp hd] at h
    cases hu : exec i { s with pending := rest } with
    | fault r => simp [hu, onNext] at h
    | refused r => simp [hu, onNext] at h
    | next u =>
      simp only [hu, onNext, Host.Outcome.next.injEq] at h
      subst h
      rcases decodeCommand_ok hd with ⟨rfl, rfl⟩ | ⟨rfl, rfl⟩ | ⟨rfl, rfl⟩ | ⟨rfl, rfl⟩
      · cases hu
        exact hostStep_of_ignored hi rest
      · cases hu
        rw [settle_idle rfl]
        exact .reset (.inl hp) rfl rfl rfl
      · exact hostStep_of_crcchk hi hp hu
      · exact hostStep_of_decode hi hp hu

/-- Everything a step between commands can do to the status registers and to the hidden state (rules R11, R40, R90). -/
theorem hostStep_of_idle {s t : State} (hi : s.pipe.stage = .idle) (h : step s = .next t) : HostStep s t := by
  cases hp : s.pending with
  | nil =>
    cases (step_of_nothing_pending hi hp).symm.trans h
    exact .kept rfl (.refl _) rfl
  | cons act rest =>
    have hact := (step_of_action hi hp).symm.trans h
    cases act with
    | regWrite n v =>
      by_cases hn : n = 1
      · subst hn
        exact hostStep_of_command hi hp h
      · simp only [hostAct, hn, if_false, execFetched, Host.Outcome.next.injEq] at hact
        subst hact
        obtain ⟨hfault, hdone, hpipe⟩ := regWrite_flags n v { s with pending := rest }
        exact .kept hpipe hfault hdone
    | powerOn =>
      cases hact
      exact .reset (.inr hp) rfl rfl rfl
    | regRead n => cases hact; exact .kept rfl (.refl _) rfl
    | srcWrite a b => cases hact; exact .kept rfl (.refl _) rfl
    | chkWrite a b => cases hact; exact .kept rfl (.refl _) rfl
    | dstWrite i v => cases hact; exact .kept rfl (.refl _) rfl
    | dstRead i => cases hact; exact .kept rfl (.refl _) rfl

/-! ## The obligations -/

theorem step_dstWf_of_decode {s t : State} {rest : List HostAction} (hi : s.pipe.stage = .idle)
    (hp : s.pending = .regWrite 1 3 :: rest) (h : step s = .next t) (hs : dstWf s.dst) : dstWf t.dst := by
  rw [step_of_command hi hp (i := .decode) (by decide)] at h
  obtain ⟨u, hu, hut⟩ := onNext_settle_eq_next h
  exact hut.dst ▸ execDecode_dstWf hu hs

/-- Every step keeps the spaces in canonical form (log 4). -/
theorem step_spacesWf {s t : State} (hsrc : memoryWf s.src) (hchk : memoryWf s.chk) (hdst : dstWf s.dst)
    (h : step s = .next t) : memoryWf t.src ∧ memoryWf t.chk ∧ dstWf t.dst := by
  by_cases hi : s.pipe.stage = .idle
  · rcases step_spaces_of_idle hi h with hk | ⟨a, b, rest, -, rfl⟩ | ⟨a, b, rest, -, rfl⟩ | ⟨i, v, rest, -, rfl⟩ |
      ⟨rest, hp, hk⟩
    · exact ⟨hk.src ▸ hsrc, hk.chk ▸ hchk, hk.dst ▸ hdst⟩
    · exact ⟨memoryWf_writeByte s.src a.toNat b hsrc, hchk, hdst⟩
    · exact ⟨hsrc, memoryWf_writeByte s.chk a.toNat b hchk, hdst⟩
    · exact ⟨hsrc, hchk, cellsRise_putCell s.dst i v hdst⟩
    · exact ⟨hk.src ▸ hsrc, hk.chk ▸ hchk, step_dstWf_of_decode hi hp h hdst⟩
  · rw [step_of_busy hi] at h
    have hk := stageStep_sameInputs h
    exact ⟨hk.src ▸ hsrc, hk.chk ▸ hchk, stageStep_dstWf h hdst⟩

theorem stageSound_of_idle {s : State} (hi : s.pipe.stage = .idle) (hrow : s.pipe.samples = []) : StageSound s := by
  simpa only [StageSound, hi] using hrow

theorem samples_of_idle {s : State} (hi : s.pipe.stage = .idle) (hs : StageSound s) : s.pipe.samples = [] := by
  simpa only [StageSound, hi] using hs

/-- Between commands, a step of the host keeps the status registers in agreement and keeps no row (rule R51). -/
theorem HostStep.sound {s t : State} (hi : s.pipe.stage = .idle) (hstatus : StatusSound s.regs)
    (hrow : s.pipe.samples = []) (h : HostStep s t) : StatusSound t.regs ∧ StageSound t := by
  cases h with
  | kept hpipe hfault _ => exact ⟨hfault.statusSound hstatus, stageSound_of_idle (hpipe ▸ hi) (hpipe ▸ hrow)⟩
  | reset _ hregs hidle hempty => exact ⟨hregs ▸ statusSound_reset, stageSound_of_idle hidle hempty⟩
  | check _ _ _ hfault _ hidle hsame =>
    exact ⟨hfault.elim (·.statusSound hstatus) (·.statusSound), stageSound_of_idle hidle (hsame.trans hrow)⟩
  | decode rest _ hready hruns hends =>
    obtain ⟨hst, -, hstage, hidle⟩ := execDecode_sound (s := { s with pending := rest }) hready hrow hstatus hruns
    rw [hends, settle_idle hidle]
    exact ⟨hst, hstage⟩

/-- Every step keeps the status registers in agreement and a DECODE in progress where its stage says. -/
theorem step_statusSound_stageSound {s t : State} (hs : Sound s) (h : step s = .next t) :
    StatusSound t.regs ∧ StageSound t := by
  by_cases hi : s.pipe.stage = .idle
  · exact (hostStep_of_idle hi h).sound hi hs.status (samples_of_idle hi hs.stage)
  · rw [step_of_busy hi] at h
    obtain ⟨u, hu, hsound, -⟩ := stageStep_sound hi hs.stage
    cases hu.symm.trans h
    exact ⟨stageStep_statusSound h hs.status, hsound⟩

/-- Settles O58: the spaces by the frame of a step, the registers and the stage by its inversion. -/
theorem everyStepKeepsSoundness : Obligations.EveryStepKeepsSoundness := by
  intro s t hs h
  obtain ⟨hsrc, hchk, hdst⟩ := step_spacesWf hs.src hs.chk hs.dst h
  obtain ⟨hstatus, hstage⟩ := step_statusSound_stageSound hs h
  exact ⟨hsrc, hchk, hdst, hstatus, hstage⟩

/-- Settles O57: the spaces are empty, the registers hold their reset values, and no command is in progress. -/
theorem resetStateIsSound : Obligations.ResetStateIsSound :=
  ⟨memoryWf_nil, memoryWf_nil, dstWf_nil, statusSound_reset, stageSound_of_idle rfl rfl⟩

/-- In the faulted state a step of the host resets the block or leaves the recorded fault alone (rules R144, R146). -/
theorem HostStep.of_fault {s t : State} (hf : s.regs.fault = true) (h : HostStep s t) :
    (∃ rest, s.pending = .regWrite 1 1 :: rest ∨ s.pending = .powerOn :: rest) ∨ FaultKept s.regs t.regs := by
  cases h with
  | kept _ hfault _ => exact .inr hfault
  | reset haction _ _ _ => exact .inl ⟨_, haction⟩
  | check _ _ hready _ _ _ _ => exact absurd (hf.symm.trans hready) (by decide)
  | decode _ _ hready _ _ => exact absurd (hf.symm.trans hready) (by decide)

/-- How `DONE` and `FAULT` come to be both 1 between commands (log 20). -/
theorem HostStep.of_done_and_fault {s t : State} (hstatus : StatusSound s.regs) (hrow : s.pipe.samples = [])
    (hdone : t.regs.done = true) (hfault : t.regs.fault = true) (h : HostStep s t) :
    s.regs.done = true ∧
      (s.regs.fault = true ∨ ∃ v rest, s.pending = .regWrite 1 v :: rest ∧ (v = 2 ∨ 3 < v.toNat)) := by
  cases h with
  | kept _ hkept hsame => exact ⟨hsame ▸ hdone, .inl (hkept.fault ▸ hfault)⟩
  | reset _ hregs _ _ => exact absurd (hregs ▸ hdone) (by decide)
  | check haction hword _ _ hsame _ _ => exact ⟨hsame ▸ hdone, .inr ⟨_, _, haction, hword⟩⟩
  | decode rest _ hready hruns hends =>
    obtain ⟨-, hflags, -, hidle⟩ := execDecode_sound (s := { s with pending := rest }) hready hrow hstatus hruns
    rw [hends, settle_idle hidle] at hdone hfault
    simp [hdone, hfault] at hflags

/-- Settles O16: inside a DECODE by what a stage does to the recorded fault, between commands by the inversion of a
step. -/
theorem onlyResetLeavesTheFaultedState : Obligations.OnlyResetLeavesTheFaultedState := by
  refine ⟨fun s t hf h => ?_, fun s t hs h hdone hfault => ?_⟩
  · by_cases hi : s.pipe.stage = .idle
    · rcases (hostStep_of_idle hi h).of_fault hf with hreset | hk
      · exact .inl ⟨hi, hreset⟩
      · exact .inr ⟨hk.fault.trans hf, fun _ => ⟨hk.fcode, hk.finfo⟩⟩
    · rw [step_of_busy hi] at h
      refine .inr ⟨?_, fun hidle => absurd hidle hi⟩
      rcases stageStep_fault_cases h with hk | hr
      · exact hk.fault.trans hf
      · exact hr.fault
  · by_cases hi : s.pipe.stage = .idle
    · obtain ⟨hdone', hcause⟩ :=
        (hostStep_of_idle hi h).of_done_and_fault hs.status (samples_of_idle hi hs.stage) hdone hfault
      exact ⟨hdone', hcause.imp_right fun hword => ⟨hi, hword⟩⟩
    · rw [step_of_busy hi] at h
      simpa [hdone, hfault] using stageStep_not_done_and_fault hi hs.stage h

end Sys2Proof.Machine
end

section
/-! The register port (rules R11 to R30) and the host's actions (rules R11, R40): what a register number reads, what a
write of it stores, the step of each action, and obligations O5, O6, O7 and O8. -/

namespace Sys2Proof.Machine

/-! ## The fields of `FMT` -/

/-- `FMT` holds every bit of the word `fmt`: the four fields side by side (rules R19, R71). -/
theorem getLsbD_fmtStored_fmtWord (bd ct il : Byte) (palp : Bool) (i : Nat) :
    (fmtStored (fmtWord bd ct il palp)).getLsbD i =
      if i < 8 then bd.getLsbD i
      else if i - 8 < 8 then ct.getLsbD (i - 8)
      else if i - 8 - 8 < 8 then il.getLsbD (i - 8 - 8)
      else (BitVec.ofBool palp).getLsbD (i - 8 - 8 - 8) := by
  have hfields : fmtStored (fmtWord bd ct il palp) = BitVec.ofBool palp ++ il ++ ct ++ bd :=
    BitVec.setWidth_setWidth_of_le _ (by decide)
  rw [hfields]
  simp only [BitVec.getLsbD_append]

/-- Settles O5: each field is one part of the concatenation that `FMT` holds. -/
theorem fmtFieldsReadBack : Obligations.FmtFieldsReadBack := by
  intro bd ct il palp
  refine ⟨?_, ?_, ?_, ?_⟩
  · ext i hi
    simp [fmtBD, getLsbD_fmtStored_fmtWord, hi]
  · ext i hi
    simp [fmtCT, getLsbD_fmtStored_fmtWord, hi]
  · ext i hi
    have hbd : ¬ 16 + i < 8 := by omega
    have hct : ¬ 16 + i - 8 < 8 := by omega
    have hil : 16 + i - 8 - 8 = i := by omega
    simp [fmtIL, getLsbD_fmtStored_fmtWord, hi, hbd, hct, hil]
  · rw [fmtPALP, getLsbD_fmtStored_fmtWord]
    simp

/-! ## Reading and writing a register -/

theorem statusWord_toNat (r : Regs) :
    (statusWord r).toNat = r.done.toNat + 2 * r.fault.toNat + 4 * r.crcOk.toNat := by
  unfold statusWord
  generalize r.done = d, r.fault = f, r.crcOk = c
  revert d f c
  decide

/-- The numbers above 18 read 0 (rule R11). -/
theorem regRead_above (s : State) {n : Nat} (h : 18 < n) : regRead s n = 0 := by
  unfold regRead
  split
  case h_19 => rfl
  all_goals omega

theorem regWrite_eq_withRegs (n : Nat) (v : Word) (s : State) :
    regWrite n v s = { s with regs := (regWrite n v s).regs } := by
  unfold regWrite
  split <;> rfl

/-- Six of the RW registers store the whole word (rules R17, R18, R21, R22, R25, R26). -/
theorem regRead_regWrite_same {n : Nat} (v : Word) (s : State) (h : n ∈ [5, 6, 8, 9, 13, 14]) :
    regRead (regWrite n v s) n = v := by
  simp only [List.mem_cons, List.not_mem_nil, or_false] at h
  rcases h with rfl | rfl | rfl | rfl | rfl | rfl <;> rfl

/-- `FMT` stores 25 bits and reads with zeros above (rule R19). -/
theorem regRead_regWrite_fmt (v : Word) (s : State) : regRead (regWrite 7 v s) 7 = v &&& 0x01FFFFFF#32 := by
  show (v.setWidth 25).setWidth 32 = v &&& 0x01FFFFFF#32
  apply BitVec.eq_of_toNat_eq
  have hmask : (0x01FFFFFF#32).toNat = 2 ^ 25 - 1 := rfl
  rw [BitVec.toNat_and, hmask, Nat.and_two_pow_sub_one_eq_mod]
  simp
  omega

/-- A write of a register changes no other register. -/
theorem regRead_regWrite_other {m n : Nat} (v : Word) (s : State) (h : m ≠ n) :
    regRead (regWrite n v s) m = regRead s m := by
  unfold regWrite
  split
  case h_8 => rfl
  all_goals
    unfold regRead
    split <;> simp_all [statusWord]

/-- A write of a number that is no RW register has no effect (rule R11). -/
theorem regWrite_of_not_rw {n : Nat} (v : Word) (s : State) (h : n ∉ [5, 6, 7, 8, 9, 13, 14]) :
    regWrite n v s = s := by
  unfold regWrite
  split
  case h_8 => rfl
  all_goals simp at h

/-- Settles O6: the read of number 0 looks at no state, and number 0 is no RW register. -/
theorem identityIsHardWired : Obligations.IdentityIsHardWired :=
  ⟨fun _ => rfl, fun v s => regWrite_of_not_rw v s (by decide), fun _ _ _ _ => rfl⟩

/-- Settles O7: by the number written, against the number read. -/
theorem registerWritesReadBack : Obligations.RegisterWritesReadBack := by
  refine ⟨fun s => ?_, fun n v s m _ => ⟨?_, regWrite_eq_withRegs n v s⟩⟩
  · have hfcode : (regRead s 3).toNat = s.regs.fcode.toNat := BitVec.toNat_setWidth_of_le (by decide)
    have hfmt : (regRead s 7).toNat = s.regs.fmt.toNat := BitVec.toNat_setWidth_of_le (by decide)
    have hpass : (regRead s 11).toNat = s.regs.pass.toNat := BitVec.toNat_setWidth_of_le (by decide)
    exact ⟨rfl, rfl, statusWord_toNat s.regs, hfcode, rfl, rfl, rfl, hfmt, rfl, rfl, rfl, hpass, rfl, rfl, rfl, rfl,
      rfl, rfl, rfl, fun _ => regRead_above s⟩
  · by_cases hmn : m = n
    · subst hmn
      by_cases hword : m ∈ [5, 6, 8, 9, 13, 14]
      · rw [if_pos ⟨rfl, hword⟩, regRead_regWrite_same v s hword]
      · rw [if_neg (hword ·.2)]
        by_cases hfmt : m = 7
        · subst hfmt
          exact regRead_regWrite_fmt v s
        · rw [if_neg (hfmt ·.2), regWrite_of_not_rw v s (by simp at hword ⊢; tauto)]
    · rw [if_neg (hmn ·.1), if_neg (hmn ·.1), regRead_regWrite_other v s hmn]

/-! ## The host's actions -/

/-- Settles O8: the step of each action, and the read after the write of a space. -/
theorem hostActionsTakeOneStep : Obligations.HostActionsTakeOneStep := by
  intro s rest hi
  refine ⟨fun n hp => step_of_action hi hp, fun n v hp hn => ?_, fun a b hp => ?_, fun a b hp => ?_,
    fun idx v hp => ?_, fun idx hp => ?_⟩
  · simp only [step_of_action hi hp, hostAct, hn, if_false, execFetched]
  · refine ⟨writeByte s.src a.toNat b, step_of_action hi hp, fun hwf x => ?_⟩
    simp only [readByte_writeByte s.src a.toNat x b hwf, eq_comm]
  · refine ⟨writeByte s.chk a.toNat b, step_of_action hi hp, fun hwf x => ?_⟩
    simp only [readByte_writeByte s.chk a.toNat x b hwf, eq_comm]
  · refine ⟨putCell idx v s.dst, step_of_action hi hp, fun x => ?_⟩
    simp only [dstCell, cellAt_putCell s.dst idx x v, eq_comm]
  · exact ⟨dstReply s idx, step_of_action hi hp, fun x hx => by simp [dstReply, hx]⟩

end Sys2Proof.Machine
end

section
/-! The cursors of a DECODE (rules R20, R23, R24, R97, R139): how many records of the plan are read at each stage, and
obligation O30. -/

namespace Sys2Proof.Machine

open Sys2Proof.Safety

/-! ## The plan of records -/

/-- The records of a pass from its row `py` on. -/
def rowsFrom (l : Latch) (p : Pass) (py : Nat) : List (Pass × Nat) :=
  (List.range' py (passHeight l.h.toNat p - py)).map fun y => (p, y)

/-- The records of a list of passes, in stream order. -/
def passesPlan (l : Latch) (ps : List Pass) : List (Pass × Nat) :=
  ps.flatMap fun p => if passWidth l.w.toNat p = 0 then [] else rowsFrom l p 0

theorem recordPlan_eq_passesPlan (l : Latch) : recordPlan l = passesPlan l (latchPasses l) := by
  simp only [recordPlan, passesPlan, rowsFrom, List.range_eq_range', Nat.sub_zero]

theorem rowsFrom_of_lt {l : Latch} {p : Pass} {py : Nat} (h : py < passHeight l.h.toNat p) :
    rowsFrom l p py = (p, py) :: rowsFrom l p (py + 1) := by
  obtain ⟨k, hk⟩ : ∃ k, passHeight l.h.toNat p - py = k + 1 := ⟨passHeight l.h.toNat p - py - 1, by omega⟩
  have hk' : passHeight l.h.toNat p - (py + 1) = k := by omega
  simp only [rowsFrom, hk, hk', List.range'_succ, List.map_cons]

theorem rowsFrom_of_le {l : Latch} {p : Pass} {py : Nat} (h : passHeight l.h.toNat p ≤ py) : rowsFrom l p py = [] := by
  simp [rowsFrom, Nat.sub_eq_zero_of_le h]

theorem passesPlan_append (l : Latch) (ps qs : List Pass) :
    passesPlan l (ps ++ qs) = passesPlan l ps ++ passesPlan l qs := by simp [passesPlan]

/-- Skipped passes have no record (rule R133). -/
theorem passesPlan_of_skipped {s : State} {ps : List Pass} (h : ∀ p ∈ ps, skipped s p = true) :
    passesPlan s.pipe.latch ps = [] := by
  refine List.flatMap_eq_nil_iff.mpr fun p hp => ?_
  have hskip := h p hp
  simp only [skipped, Bool.or_eq_true, beq_iff_eq] at hskip
  rcases hskip with hw | hh
  · simp [hw]
  · simp [rowsFrom, hh]

theorem passesPlan_cons_of_entered {s : State} {p : Pass} (h : skipped s p = false) (rest : List Pass) :
    passesPlan s.pipe.latch (p :: rest) = rowsFrom s.pipe.latch p 0 ++ passesPlan s.pipe.latch rest := by
  have hw := (skipped_eq_false.mp h).1
  simp [passesPlan, Nat.pos_iff_ne_zero.mp hw]

/-- The first pass of either method starts at the first pixel (rules R131, R137). -/
theorem exists_pass_at_origin (m : InterlaceMode) : ∃ p ∈ passList m, p.xo = 0 ∧ p.yo = 0 := by cases m <;> decide

/-- A legal configuration has at least one record (rules R91, R94). -/
theorem recordPlan_ne_nil {p : Params} {l : Latch} {c : Nat} (h : configCheck p l = .ok c) : recordPlan l ≠ [] := by
  obtain ⟨m, hm⟩ := decodeInterlace_of_configCheck h
  obtain ⟨-, -, -, -, -, hw, hh, -⟩ := configCheck_ok h
  obtain ⟨q, hq, hx, hy⟩ := exists_pass_at_origin m
  obtain ⟨hxs, hys⟩ := passList_offsets hq
  have hwidth : 0 < passWidth l.w.toNat q := by
    rw [lt_passWidth_iff hxs, hx]
    simpa [BitVec.toNat_eq, Nat.pos_iff_ne_zero] using hw
  have hheight : 0 < passHeight l.h.toNat q := by
    rw [lt_passHeight_iff hys, hy]
    simpa [BitVec.toNat_eq, Nat.pos_iff_ne_zero] using hh
  have hmem : (q, 0) ∈ recordPlan l := by
    have hpasses : latchPasses l = passList m := by simp only [latchPasses, hm]
    rw [recordPlan, hpasses]
    refine List.mem_flatMap.mpr ⟨q, hq, ?_⟩
    simp [Nat.pos_iff_ne_zero.mp hwidth, hheight]
  exact List.ne_nil_of_mem hmem

/-! ## Where the cursors stand -/

/-- `PASS` and `ROW` identify a record (rules R23, R24). -/
def CursorsOn (r : Regs) (q : Pass × Nat) : Prop := r.pass = BitVec.ofNat 3 q.1.pno ∧ r.row = BitVec.ofNat 32 q.2

/-- `SPOS` is the size of the records `read`, and they and the records `todo` are the plan (rule R20). -/
structure PlanRead (l : Latch) (c : Nat) (r : Regs) (read todo : List (Pass × Nat)) : Prop where
  plan : recordPlan l = read ++ todo
  spos : r.spos.toNat = (read.map (recordSize c l)).sum

/-- The records still to be read from the row in hand on. -/
def recordsLeft (l : Latch) (g : Pipe) : List (Pass × Nat) := rowsFrom l g.geo g.py ++ passesPlan l g.later

/-- Where the cursors stand at each stage of a DECODE of the configuration `l` with `c` channels, and at its end. -/
def CursorsAt (l : Latch) (c : Nat) (s : State) : Prop :=
  match s.pipe.stage with
  | .idle =>
    s.regs.done = true →
      s.regs.spos.toNat = streamNeed c l ∧ ∃ q, (recordPlan l).getLast? = some q ∧ CursorsOn s.regs q
  | .passes => True
  | .record =>
    s.regs.pass = BitVec.ofNat 3 s.pipe.geo.pno ∧ ∃ read, PlanRead l c s.regs read (recordsLeft l s.pipe)
  | .unpack =>
    CursorsOn s.regs (s.pipe.geo, s.pipe.py) ∧ ∃ read, PlanRead l c s.regs read (recordsLeft l s.pipe)
  | .place =>
    CursorsOn s.regs (s.pipe.geo, s.pipe.py) ∧ ∃ read, PlanRead l c s.regs read (recordsLeft l s.pipe)

/-- A DECODE of the configuration `l` with `c` channels, with its cursors where they belong. -/
structure OnPlan (l : Latch) (c : Nat) (s : State) : Prop where
  latch : s.pipe.latch = l
  chan : s.pipe.chan = c
  cursors : CursorsAt l c s

/-- A command that has ended without `DONE` says nothing of the cursors. -/
theorem onPlan_of_not_done {l : Latch} {c : Nat} {s : State} (hl : s.pipe.latch = l) (hc : s.pipe.chan = c)
    (hi : s.pipe.stage = .idle) (hd : s.regs.done = false) : OnPlan l c s :=
  ⟨hl, hc, by simp [CursorsAt, hi, hd]⟩

/-- The move to the next pass: past its skipped passes, the records left are those of the pass entered and of the passes
after it; when there is none, the last record read is the last of the plan (rules R91, R97, R133). -/
theorem nextPass_onPlan {s : State} {l : Latch} {c : Nat} {ps : List Pass} {read : List (Pass × Nat)}
    (hl : s.pipe.latch = l) (hc : s.pipe.chan = c) (hne : recordPlan l ≠ [])
    (hread : PlanRead l c s.regs read (passesPlan l ps))
    (hlast : ∀ q, read.getLast? = some q → CursorsOn s.regs q) : OnPlan l c (nextPass ps s) := by
  subst hl hc
  obtain ⟨hplan, hspos⟩ := hread
  rcases nextPass_cases ps s with ⟨before, p, rest, rfl, hskip, hp, he⟩ | ⟨hskip, he⟩ <;> rw [he]
  · rw [passesPlan_append, passesPlan_of_skipped hskip, List.nil_append, passesPlan_cons_of_entered hp] at hplan
    exact ⟨rfl, rfl, rfl, read, hplan, hspos⟩
  · rw [passesPlan_of_skipped hskip, List.append_nil] at hplan
    have hneed : s.regs.spos.toNat = streamNeed s.pipe.chan s.pipe.latch := by rw [streamNeed, hplan, hspos]
    refine ⟨rfl, rfl, fun _ => ⟨hneed, ?_⟩⟩
    obtain ⟨q, hq⟩ := Option.ne_none_iff_exists'.mp (List.getLast?_eq_none_iff.not.mpr hne)
    exact ⟨q, hq, hlast q (hplan ▸ hq)⟩

/-- `SPOS` steps over the record without wrapping, for the record fits (rule R105). -/
theorem commitRecord_spos {s : State} (h : RecordFits s) :
    (commitRecord (scatterRow s)).regs.spos.toNat = s.regs.spos.toNat + (1 + rowStride s) := by
  have hlt := s.pipe.latch.n.isLt
  unfold RecordFits at h
  rw [(commitRecord_keeps s).2.1]
  simp only [BitVec.toNat_add, BitVec.toNat_ofNat]
  omega

/-- The placing of a record: the record in hand is now the last one read (rules R91, R105). -/
theorem placeRecord_onPlan {s : State} {read : List (Pass × Nat)} (hfit : RecordFits s) (hpass : PassSound s)
    (hne : recordPlan s.pipe.latch ≠ []) (hon : CursorsOn s.regs (s.pipe.geo, s.pipe.py))
    (hread : PlanRead s.pipe.latch s.pipe.chan s.regs read (recordsLeft s.pipe.latch s.pipe)) :
    OnPlan s.pipe.latch s.pipe.chan (placeRecord s) := by
  obtain ⟨hpipe, hregs, -⟩ := commitRecord_keeps s
  have hspos := commitRecord_spos hfit
  unfold placeRecord
  generalize commitRecord (scatterRow s) = u at hpipe hregs hspos
  have hlatch : u.pipe.latch = s.pipe.latch := by rw [hpipe]
  have hchan : u.pipe.chan = s.pipe.chan := by rw [hpipe]
  have hon' : CursorsOn u.regs (s.pipe.geo, s.pipe.py) := by rw [hregs]; exact hon
  have hread' : PlanRead s.pipe.latch s.pipe.chan u.regs (read ++ [(s.pipe.geo, s.pipe.py)])
      (rowsFrom s.pipe.latch s.pipe.geo (s.pipe.py + 1) ++ passesPlan s.pipe.latch s.pipe.later) := by
    obtain ⟨hplan, hsum⟩ := hread
    refine ⟨?_, ?_⟩
    · rw [hplan, recordsLeft, rowsFrom_of_lt hpass.rowInPass]
      simp
    · rw [hspos, hsum]
      simp [recordSize, rowStride, passStride]
  unfold nextRow
  split
  · refine ⟨hlatch, hchan, ?_, read ++ [(s.pipe.geo, s.pipe.py)], ?_⟩
    · show u.regs.pass = BitVec.ofNat 3 u.pipe.geo.pno
      rw [hpipe]
      exact hon'.1
    · simpa only [recordsLeft, hpipe] using hread'
  · rename_i hlast
    rw [hpipe] at hlast ⊢
    rw [rowsFrom_of_le (not_lt.mp hlast), List.nil_append] at hread'
    refine nextPass_onPlan hlatch hchan hne hread' fun q hq => ?_
    cases (List.getLast?_concat).symm.trans hq
    exact hon'

/-- Every stage of a sound DECODE leaves the cursors where they belong (rules R91, R105). -/
theorem stageStep_onPlan {l : Latch} {c : Nat} {s t : State} (hi : s.pipe.stage ≠ .idle) (hs : StageSound s)
    (hplan : OnPlan l c s) (h : stageStep s = .next t) : OnPlan l c t := by
  obtain ⟨rfl, rfl, hcur⟩ := hplan
  cases hg : s.pipe.stage with
  | idle => exact absurd hg hi
  | passes =>
    simp only [StageSound, hg] at hs
    obtain ⟨-, hf, hconf, h0⟩ := hs
    obtain ⟨m, hm⟩ := decodeInterlace_of_configCheck hconf
    cases (stageStep_passes hg hm).symm.trans h
    rw [settle_passes (by exact hf) (by exact hg)]
    have hpasses : latchPasses s.pipe.latch = passList m := by simp only [latchPasses, hm]
    refine nextPass_onPlan (read := []) rfl rfl (recordPlan_ne_nil hconf) ⟨?_, ?_⟩ (by simp)
    · rw [recordPlan_eq_passesPlan, hpasses]
      rfl
    · simp [h0]
  | record =>
    simp only [StageSound, hg] at hs
    simp only [CursorsAt, hg] at hcur
    obtain ⟨hd, hf, -⟩ := hs
    obtain ⟨hp, read, hread⟩ := hcur
    rcases stageStep_record hg with ⟨cause, v, he, -⟩ | ⟨ft, -, -, he⟩ <;> cases he.symm.trans h
    · exact onPlan_of_not_done rfl rfl rfl hd
    · rw [settle_record (by exact hf) (by exact hg)]
      exact ⟨rfl, rfl, ⟨hp, rfl⟩, read, hread.plan, hread.spos⟩
  | unpack =>
    simp only [StageSound, hg] at hs
    simp only [CursorsAt, hg] at hcur
    obtain ⟨hd, hf, hconf, -⟩ := hs
    obtain ⟨d, hbits⟩ := decodeDepth_of_configCheck hconf
    cases (stageStep_unpack hg hbits).symm.trans h
    rcases unpackRow_cases d s with ⟨v, -, he⟩ | ⟨-, he⟩ <;> rw [he]
    · rw [settle_of_fault rfl]
      exact onPlan_of_not_done rfl rfl rfl hd
    · rw [settle_unpack (by exact hf) (by exact hg)]
      exact ⟨rfl, rfl, hcur⟩
  | place =>
    simp only [StageSound, hg] at hs
    simp only [CursorsAt, hg] at hcur
    obtain ⟨-, -, hconf, hpass, hfit, -⟩ := hs
    obtain ⟨hon, read, hread⟩ := hcur
    cases (stageStep_place hg).symm.trans h
    exact placeRecord_onPlan hfit hpass (recordPlan_ne_nil hconf) hon hread

/-- Settles O30: the cursors stand where they belong at the start, and every stage leaves them so. -/
theorem doneLeavesTheCursorsAtTheEnd : Obligations.DoneLeavesTheCursorsAtTheEnd := by
  intro s t c hf hc h hdone
  have hstart : startDecode s = initCursors c (latchOperands s) := by simp only [startDecode, hc]
  obtain ⟨⟨-, -, hcur⟩, -, hidle⟩ :=
    execDecode_keeps (P := OnPlan (latchOf s.regs) c) (fun _ _ hi hs hplan hstep => stageStep_onPlan hi hs hplan hstep)
      hf (hstart ▸ initCursors_sound hf hc) (hstart ▸ ⟨rfl, rfl, trivial⟩) h
  simp only [CursorsAt, hidle] at hcur
  exact hcur hdone

end Sys2Proof.Machine
end

section
/-! The line buffers of before a DECODE (rule R31): entering a pass overwrites `PREV`, reconstructing a record
overwrites `CUR`; and obligation O33. -/

namespace Sys2Proof.Machine

open Sys2Proof.Safety

/-! ## Fetching a record, test by test (rule R105) -/

section FetchAt

variable {s : State} {t : FilterType} {r : Reject}

theorem fetchAt_of_end (hend : s.pipe.latch.n.toNat ≤ s.regs.spos.toNat) :
    fetchAt s = .quiet (raiseInRecord .streamUnderrun s.regs.spos s) := by simp only [fetchAt, hend, if_true]

theorem fetchAt_of_illegal (hend : ¬ s.pipe.latch.n.toNat ≤ s.regs.spos.toNat)
    (hft : decodeFilter (readByte s.src s.regs.spos.toNat) = .error r) :
    fetchAt s =
      .quiet (raiseInRecord .unsupportedFilterType ((readByte s.src s.regs.spos.toNat).setWidth 32) s) := by
  simp only [fetchAt, hend, hft, if_false]

theorem fetchAt_of_short (hend : ¬ s.pipe.latch.n.toNat ≤ s.regs.spos.toNat)
    (hft : decodeFilter (readByte s.src s.regs.spos.toNat) = .ok t)
    (hshort : s.pipe.latch.n.toNat - s.regs.spos.toNat - 1 < rowStride s) :
    fetchAt s = .quiet (raiseInRecord .streamUnderrun s.regs.spos s) := by
  simp only [fetchAt, hend, hft, hshort, if_true, if_false]

theorem fetchAt_of_whole (hend : ¬ s.pipe.latch.n.toNat ≤ s.regs.spos.toNat)
    (hft : decodeFilter (readByte s.src s.regs.spos.toNat) = .ok t)
    (hwhole : ¬ s.pipe.latch.n.toNat - s.regs.spos.toNat - 1 < rowStride s) :
    fetchAt s = .run (.filter t (recordData s)) s := by
  simp only [fetchAt, hend, hft, hwhole, if_false]

end FetchAt

/-! ## Other contents of the line buffers -/

/-- The state with other contents of the line buffers. -/
def withLines (prev cur : List Byte) (s : State) : State := { s with pipe := { s.pipe with prev := prev, cur := cur } }

/-- Neither a register nor anything outside the block shows the line buffers. -/
theorem withLines_shows (prev cur : List Byte) (s : State) :
    (withLines prev cur s).regs = s.regs ∧ OutsideKept s (withLines prev cur s) :=
  ⟨rfl, rfl, rfl, rfl, rfl, rfl, rfl, rfl⟩

theorem startDecode_withLines (prev cur : List Byte) (s : State) :
    startDecode (withLines prev cur s) = withLines prev cur (startDecode s) := by
  rcases startDecode_cases s with ⟨cause, v, hc, he⟩ | ⟨c, hc, he⟩ <;> rw [he]
  · have hc' : configCheck (withLines prev cur s).params (latchOf (withLines prev cur s).regs) = .error (cause, v) := hc
    simp only [startDecode, hc']
    rfl
  · have hc' : configCheck (withLines prev cur s).params (latchOf (withLines prev cur s).regs) = .ok c := hc
    simp only [startDecode, hc']
    rfl

theorem stagesLeft_withLines (prev cur : List Byte) (s : State) : stagesLeft (withLines prev cur s) = stagesLeft s := by
  have hrecords : ∀ ps, passRecords (withLines prev cur s) ps = passRecords s ps := passRecords_congr rfl
  simp only [stagesLeft, hrecords]
  rfl

/-- The pass entered next does not depend on the line buffers, and `PREV` is zeroed when it is entered (rule R134). -/
theorem nextPass_withLines (prev cur : List Byte) (ps : List Pass) (s : State) :
    nextPass ps (withLines prev cur s) = nextPass ps s ∨
      (nextPass ps s).pipe.stage = .record ∧
        nextPass ps (withLines prev cur s) = withLines (nextPass ps s).pipe.prev cur (nextPass ps s) := by
  induction ps with
  | nil => exact .inl rfl
  | cons p rest ih =>
    have hskip : skipped (withLines prev cur s) p = skipped s p := rfl
    cases hp : skipped s p with
    | true => simpa only [nextPass, hskip, hp, if_true] using ih
    | false =>
      simp only [nextPass, hskip, hp, Bool.false_eq_true, if_false]
      exact .inr ⟨rfl, rfl⟩

/-- Fetching a record does not look at `CUR`, and a record that faults loses it (rules R105, R145). -/
theorem fetchAt_withLines (cur : List Byte) (s : State) :
    (∃ u, fetchAt s = .quiet u ∧ fetchAt (withLines s.pipe.prev cur s) = .quiet u) ∨
      ∃ t filt, fetchAt s = .run (.filter t filt) s ∧
        fetchAt (withLines s.pipe.prev cur s) = .run (.filter t filt) (withLines s.pipe.prev cur s) := by
  by_cases hend : s.pipe.latch.n.toNat ≤ s.regs.spos.toNat
  · exact .inl ⟨_, fetchAt_of_end hend, fetchAt_of_end (s := withLines s.pipe.prev cur s) hend⟩
  cases hft : decodeFilter (readByte s.src s.regs.spos.toNat) with
  | error r =>
    exact .inl ⟨_, fetchAt_of_illegal hend hft, fetchAt_of_illegal (s := withLines s.pipe.prev cur s) hend hft⟩
  | ok t =>
    by_cases hshort : s.pipe.latch.n.toNat - s.regs.spos.toNat - 1 < rowStride s
    · exact .inl ⟨_, fetchAt_of_short hend hft hshort,
        fetchAt_of_short (s := withLines s.pipe.prev cur s) hend hft hshort⟩
    · exact .inr ⟨t, recordData s, fetchAt_of_whole hend hft hshort,
        fetchAt_of_whole (s := withLines s.pipe.prev cur s) hend hft hshort⟩

/-- A record overwrites `CUR`, whether it is reconstructed or faults (rules R105, R145). -/
theorem stageStep_withLines_of_record {s : State} (hg : s.pipe.stage = .record) (cur : List Byte) :
    stageStep (withLines s.pipe.prev cur s) = stageStep s := by
  have hg' : (withLines s.pipe.prev cur s).pipe.stage = .record := hg
  have hbegin : beginRecord (withLines s.pipe.prev cur s) =
      withLines (beginRecord s).pipe.prev cur (beginRecord s) := rfl
  simp only [stageStep, fetchStage, hg, hg', fetchRecord, hbegin]
  rcases fetchAt_withLines cur (beginRecord s) with ⟨u, he, he'⟩ | ⟨t, filt, he, he'⟩
  · simp only [he, he']
  · simp only [he, he', runOp_filter]
    rfl

/-- What `CUR` holds before a record shows nowhere after it. -/
theorem runStages_withLines_of_record {s t : State} {k : Nat} (hg : s.pipe.stage = .record) (cur : List Byte)
    (h : runStages k s = .next t) :
    ∃ prev' cur', runStages k (withLines s.pipe.prev cur s) = .next (withLines prev' cur' t) := by
  cases k with
  | zero =>
    cases h
    exact ⟨s.pipe.prev, cur, rfl⟩
  | succ k =>
    refine ⟨t.pipe.prev, t.pipe.cur, .trans ?_ h⟩
    have hg' : (withLines s.pipe.prev cur s).pipe.stage = .record := hg
    simp only [runStages, hg, hg', stageStep_withLines_of_record hg cur, reduceCtorEq, if_false]

/-- A DECODE whose configuration passes, from its first stage on. -/
theorem runStages_withLines_of_passes {s t : State} {k : Nat} {m : InterlaceMode} (prev cur : List Byte)
    (hf : s.regs.fault = false) (hg : s.pipe.stage = .passes) (hm : decodeInterlace s.pipe.latch.il = .ok m)
    (h : runStages (k + 1) s = .next t) :
    ∃ prev' cur', runStages (k + 1) (withLines prev cur s) = .next (withLines prev' cur' t) := by
  have hg' : (withLines prev cur s).pipe.stage = .passes := hg
  have hstep : stageStep s = .next (nextPass (passList m) (loadPasses m s)) := by
    rw [stageStep_passes hg hm, settle_passes (by exact hf) (by exact hg)]
    rfl
  have hstep' : stageStep (withLines prev cur s) =
      .next (nextPass (passList m) (withLines prev cur (loadPasses m s))) := by
    rw [stageStep_passes hg' hm, settle_passes (by exact hf) (by exact hg)]
    rfl
  simp only [runStages, hg, hstep, reduceCtorEq, if_false] at h
  simp only [runStages, hg', hstep', reduceCtorEq, if_false]
  rcases nextPass_withLines prev cur (passList m) (loadPasses m s) with he | ⟨hrecord, he⟩ <;> rw [he]
  · exact ⟨t.pipe.prev, t.pipe.cur, h⟩
  · exact runStages_withLines_of_record hrecord cur h

/-- A DECODE from other line buffers ends in the same state but for the line buffers. -/
theorem execDecode_withLines {s t : State} (prev cur : List Byte) (h : execDecode s = .next t) :
    ∃ prev' cur', execDecode (withLines prev cur s) = .next (withLines prev' cur' t) := by
  cases hf : s.regs.fault with
  | true =>
    have hf' : (withLines prev cur s).regs.fault = true := hf
    simp only [execDecode, hf, hf', if_true] at h ⊢
    cases h
    exact ⟨prev, cur, rfl⟩
  | false =>
    have hf' : (withLines prev cur s).regs.fault = false := hf
    rw [execDecode_of_ready hf] at h
    rw [execDecode_of_ready hf', startDecode_withLines, stagesLeft_withLines]
    rcases startDecode_cases s with ⟨cause, v, -, he⟩ | ⟨c, hc, he⟩ <;> rw [he] at h ⊢
    · cases h
      exact ⟨prev, cur, rfl⟩
    · obtain ⟨m, hm⟩ := decodeInterlace_of_configCheck hc
      have hk : stagesLeft (initCursors c (latchOperands s)) =
          3 * passRecords (initCursors c (latchOperands s)) (latchedPasses (initCursors c (latchOperands s))) + 1 :=
        Nat.add_comm _ _
      rw [hk] at h ⊢
      exact runStages_withLines_of_passes prev cur hf rfl hm h

/-- Settles O33: the two runs end in states that differ in the line buffers only. -/
theorem oldLineBuffersAreUnobservable : Obligations.OldLineBuffersAreUnobservable := by
  intro s t prev cur h
  obtain ⟨prev', cur', hu⟩ := execDecode_withLines prev cur h
  exact ⟨withLines prev' cur' t, hu, withLines_shows prev' cur' t⟩

end Sys2Proof.Machine
end

section
/-! CRCCHK and the CHK space (rules R42, R50): a record that fits is read below `CLEN`, one that does not is not looked at
beyond its length field; and obligation O23. -/

namespace Sys2Proof.Machine

/-- The state with another CHK space. -/
def withChk (m : Memory) (s : State) : State := { s with chk := m }

@[simp] theorem withChk_regs (m : Memory) (s : State) : (withChk m s).regs = s.regs := rfl
@[simp] theorem withChk_chk (m : Memory) (s : State) : (withChk m s).chk = m := rfl

/-- The spaces agree below `CLEN`. -/
def ChkAgrees (m : Memory) (s : State) : Prop := ∀ a < s.regs.clen.toNat, readByte m a = readByte s.chk a

section Agreeing

variable {m : Memory} {s : State} (h : ChkAgrees m s)

include h

theorem readBytes_of_chkAgrees {a n : Nat} (hn : a + n ≤ s.regs.clen.toNat) :
    readBytes m a n = readBytes s.chk a n :=
  readBytes_congr m a s.chk n fun k hk => h (a + k) (by omega)

/-- The length field of a record with room for its fixed fields lies below `CLEN` (rule R83). -/
theorem chunkLength_withChk (hroom : s.regs.cpos.toNat + 12 ≤ s.regs.clen.toNat) :
    chunkLength (withChk m s) = chunkLength s :=
  congrArg be32List (readBytes_of_chkAgrees h (a := s.regs.cpos.toNat) (n := 4) (by omega))

theorem chunkFits_withChk : chunkFits (withChk m s) = chunkFits s := by
  rw [Bool.eq_iff_iff, chunkFits_iff, chunkFits_iff, withChk_regs]
  by_cases hroom : s.regs.cpos.toNat + 12 ≤ s.regs.clen.toNat
  · rw [chunkLength_withChk h hroom]
  · omega

/-- Every field of a record that fits lies below `CLEN` (rules R84, R85). -/
theorem captureChunk_withChk (hfits : chunkFits s = true) :
    captureChunk (withChk m s) = withChk m (captureChunk s) := by
  rw [chunkFits_iff] at hfits
  have hlength : chunkLength (withChk m s) = chunkLength s := chunkLength_withChk h (by omega)
  have hcovered : readBytes m (s.regs.cpos.toNat + 4) (4 + (chunkLength s).toNat) =
      readBytes s.chk (s.regs.cpos.toNat + 4) (4 + (chunkLength s).toNat) := readBytes_of_chkAgrees h (by omega)
  have htype : readBytes m (s.regs.cpos.toNat + 4) 4 = readBytes s.chk (s.regs.cpos.toNat + 4) 4 :=
    readBytes_of_chkAgrees h (by omega)
  have hstored : readBytes m (s.regs.cpos.toNat + 8 + (chunkLength s).toNat) 4 =
      readBytes s.chk (s.regs.cpos.toNat + 8 + (chunkLength s).toNat) 4 := readBytes_of_chkAgrees h (by omega)
  have hacc : chunkAcc (withChk m s) = chunkAcc s := by
    simp only [chunkAcc, withChk_regs, withChk_chk, hlength, hcovered]
  simp only [captureChunk, withChk_regs, withChk_chk, hlength, hacc, htype, hstored]
  rfl

theorem checkChunk_withChk : checkChunk (withChk m s) = withChk m (checkChunk s) := by
  rcases checkChunk_cases s with ⟨hfits, he⟩ | ⟨hfits, hcrc, he⟩ | ⟨hfits, hcrc, he⟩ <;>
    rw [he, checkChunk, chunkFits_withChk h, hfits]
  · rfl
  · rw [if_pos rfl, captureChunk_withChk h hfits]
    exact if_neg hcrc
  · rw [if_pos rfl, captureChunk_withChk h hfits]
    exact if_pos hcrc

end Agreeing

/-- Settles O23: the check of a record commutes with a change of the bytes that `CLEN` leaves out. -/
theorem crcchkReadsBelowClenOnly : Obligations.CrcchkReadsBelowClenOnly := by
  intro s m hm
  show execCrcchk (withChk m s) = onNext (execCrcchk s) (withChk m)
  have hfault : (withChk m s).regs.fault = s.regs.fault := rfl
  cases hf : s.regs.fault with
  | true => simp only [execCrcchk, hfault, hf, if_true, onNext]
  | false =>
    have hagrees : ChkAgrees m (startCrcchk s) := hm
    simp only [execCrcchk, hfault, hf, Bool.false_eq_true, if_false, onNext]
    exact congrArg Host.Outcome.next (checkChunk_withChk hagrees)

end Sys2Proof.Machine
end

section
/-! What a DECODE keeps besides the spaces (rules R40, R91): the host's side, the latch once it is taken, the CRC
accumulator (log 3), and every register that is not its own. -/

namespace Sys2Proof.Machine

/-- The registers with those cleared that a DECODE writes: `DONE`, the recorded fault and the three cursors. -/
def Regs.withoutDecode (r : Regs) : Regs :=
  { r with done := false, fault := false, fcode := 0, finfo := 0, spos := 0, pass := 0, row := 0 }

/-- What the start and the stages of a DECODE keep besides the spaces. -/
structure DecodeKeeps (s t : State) : Prop where
  regs : t.regs.withoutDecode = s.regs.withoutDecode
  pending : t.pending = s.pending
  replies : t.replies = s.replies
  crcAcc : t.pipe.crcAcc = s.pipe.crcAcc

/-- What the stages of a DECODE keep: also the latched configuration (rule R92). -/
structure StageKeeps (s t : State) : Prop extends DecodeKeeps s t where
  latch : t.pipe.latch = s.pipe.latch
  chan : t.pipe.chan = s.pipe.chan

theorem DecodeKeeps.refl (s : State) : DecodeKeeps s s := ⟨rfl, rfl, rfl, rfl⟩

theorem DecodeKeeps.trans {s t u : State} (h : DecodeKeeps s t) (k : DecodeKeeps t u) : DecodeKeeps s u :=
  ⟨k.regs.trans h.regs, k.pending.trans h.pending, k.replies.trans h.replies, k.crcAcc.trans h.crcAcc⟩

theorem StageKeeps.refl (s : State) : StageKeeps s s := ⟨.refl s, rfl, rfl⟩

theorem StageKeeps.trans {s t u : State} (h : StageKeeps s t) (k : StageKeeps t u) : StageKeeps s u :=
  ⟨h.toDecodeKeeps.trans k.toDecodeKeeps, k.latch.trans h.latch, k.chan.trans h.chan⟩

/-- The registers of which no other one is written, field by field. -/
theorem Regs.eq_of_withoutDecode {r r' : Regs} (h : r'.withoutDecode = r.withoutDecode) :
    r' = { r with
      done := r'.done, fault := r'.fault, fcode := r'.fcode, finfo := r'.finfo, spos := r'.spos, pass := r'.pass,
      row := r'.row } := by
  cases r
  cases r'
  simpa [withoutDecode] using h

/-! ## The stages -/

theorem enterPass_keeps (p : Pass) (rest : List Pass) (s : State) : StageKeeps s (enterPass p rest s) :=
  ⟨⟨rfl, rfl, rfl, rfl⟩, rfl, rfl⟩

theorem finishDecode_keeps (s : State) : StageKeeps s (finishDecode s) := ⟨⟨rfl, rfl, rfl, rfl⟩, rfl, rfl⟩

theorem nextPass_keeps (l : List Pass) (s : State) : StageKeeps s (nextPass l s) := by
  rcases nextPass_cases l s with ⟨_, p, rest, _, _, _, he⟩ | ⟨_, he⟩ <;> rw [he]
  · exact enterPass_keeps p rest s
  · exact finishDecode_keeps s

theorem nextRow_keeps (s : State) : StageKeeps s (nextRow s) := by
  unfold nextRow
  split
  · exact ⟨⟨rfl, rfl, rfl, rfl⟩, rfl, rfl⟩
  · exact nextPass_keeps _ s

theorem settle_keeps (s : State) : StageKeeps s (settle s) := by
  unfold settle
  split
  · exact .refl s
  · split
    case h_2 => exact nextPass_keeps _ s
    all_goals exact ⟨⟨rfl, rfl, rfl, rfl⟩, rfl, rfl⟩

theorem loadPasses_keeps (m : InterlaceMode) (s : State) : StageKeeps s (loadPasses m s) :=
  ⟨⟨rfl, rfl, rfl, rfl⟩, rfl, rfl⟩

theorem raiseInRecord_beginRecord_keeps (c : Cause) (v : Word) (s : State) :
    StageKeeps s (raiseInRecord c v (beginRecord s)) := ⟨⟨rfl, rfl, rfl, rfl⟩, rfl, rfl⟩

theorem filterRow_beginRecord_keeps (t : FilterType) (filt : List Byte) (s : State) :
    StageKeeps s (filterRow t filt (beginRecord s)) := ⟨⟨rfl, rfl, rfl, rfl⟩, rfl, rfl⟩

theorem unpackRow_keeps (d : Depth) (s : State) : StageKeeps s (unpackRow d s) := by
  rcases unpackRow_cases d s with ⟨_, _, he⟩ | ⟨_, he⟩ <;> rw [he] <;>
    exact ⟨⟨rfl, rfl, rfl, rfl⟩, rfl, rfl⟩

theorem placeRecord_keeps (s : State) : StageKeeps s (placeRecord s) := by
  have hplaced : StageKeeps s (commitRecord (scatterRow s)) := by
    unfold scatterRow
    rw [dstPutAll_keeps]
    exact ⟨⟨rfl, rfl, rfl, rfl⟩, rfl, rfl⟩
  exact hplaced.trans (nextRow_keeps _)

theorem stageStep_keeps {s t : State} (h : stageStep s = .next t) : StageKeeps s t := by
  cases hg : s.pipe.stage with
  | idle =>
    simp only [stageStep, fetchStage, hg, Host.Outcome.next.injEq] at h
    exact h ▸ .refl s
  | passes =>
    cases hm : decodeInterlace s.pipe.latch.il with
    | ok m =>
      cases (stageStep_passes hg hm).symm.trans h
      exact (loadPasses_keeps m s).trans (settle_keeps _)
    | error e => simp [stageStep, fetchStage, hg, hm] at h
  | record =>
    rcases stageStep_record hg with ⟨c, v, he, -⟩ | ⟨ft, -, -, he⟩ <;> cases he.symm.trans h
    · exact raiseInRecord_beginRecord_keeps c v s
    · exact (filterRow_beginRecord_keeps ft _ s).trans (settle_keeps _)
  | unpack =>
    cases hd : decodeDepth s.pipe.latch.bd with
    | ok d =>
      cases (stageStep_unpack hg hd).symm.trans h
      exact (unpackRow_keeps d s).trans (settle_keeps _)
    | error e => simp [stageStep, fetchStage, hg, hd] at h
  | place =>
    cases (stageStep_place hg).symm.trans h
    exact placeRecord_keeps s

/-! ## A whole DECODE -/

theorem startDecode_keeps (s : State) : DecodeKeeps s (startDecode s) := by
  rcases startDecode_cases s with ⟨_, _, _, he⟩ | ⟨_, _, he⟩ <;> rw [he] <;> exact ⟨rfl, rfl, rfl, rfl⟩

theorem startDecode_latch (s : State) : (startDecode s).pipe.latch = latchOf s.regs := by
  rcases startDecode_cases s with ⟨_, _, _, he⟩ | ⟨_, _, he⟩ <;> rw [he] <;> rfl

theorem execDecode_decodeKeeps {s t : State} (h : execDecode s = .next t) : DecodeKeeps s t := by
  cases hf : s.regs.fault with
  | true =>
    simp only [execDecode, hf, if_true] at h
    cases h
    exact .refl s
  | false =>
    rw [execDecode_of_ready hf] at h
    exact runStages_keeps (P := DecodeKeeps s)
      (fun _ _ _ hk hstep => hk.trans (stageStep_keeps hstep).toDecodeKeeps) (startDecode_keeps s) h

end Sys2Proof.Machine
end

section
/-! A DECODE as a run of steps (rules R51, R91, R105; log 7): a run of stages is a run of the machine, it always answers,
and obligation O31. -/

namespace Sys2Proof.Machine

open Sys2Proof.Safety

theorem startDecode_of_ok {s : State} {c : Nat} (hc : configCheck s.params (latchOf s.regs) = .ok c) :
    startDecode s = initCursors c (latchOperands s) := by simp only [startDecode, hc]

/-- A run of stages is a run of the machine's steps, as long as the DECODE is in progress. -/
theorem exists_run_of_runStages {k : Nat} {s t : State} (h : runStages k s = .next t) :
    ∃ n, Host.Core.run Sys2Proof.core n s = .next t := by
  induction k generalizing s with
  | zero => exact ⟨0, h⟩
  | succ k ih =>
    by_cases hi : s.pipe.stage = .idle
    · simp only [runStages, hi, if_true] at h
      exact ⟨0, h⟩
    · simp only [runStages, hi, if_false] at h
      cases hu : stageStep s with
      | next u =>
        simp only [hu] at h
        obtain ⟨n, hn⟩ := ih h
        have hstep : Sys2Proof.core.step s = .next u := (step_of_busy hi).trans hu
        exact ⟨n + 1, by simp only [Host.Core.run, hstep]; exact hn⟩
      | fault r => simp [hu] at h
      | refused r => simp [hu] at h

/-- A DECODE always answers a next state (rule R101). -/
theorem execDecode_next (s : State) : ∃ t, execDecode s = .next t := by
  cases hf : s.regs.fault with
  | true => exact ⟨s, by simp only [execDecode, hf, if_true]⟩
  | false =>
    rw [execDecode_of_ready hf]
    rcases startDecode_cases s with ⟨cause, v, -, he⟩ | ⟨c, hc, he⟩ <;> rw [he]
    · exact ⟨raise cause v (latchOperands s), rfl⟩
    · have hadvance : ∀ u, u.pipe.stage ≠ .idle → StageSound u →
          ∃ v, stageStep u = .next v ∧ StageSound v ∧ stagesLeft v < stagesLeft u :=
        fun u hi hu => stageStep_sound hi hu
      obtain ⟨t, ht, -⟩ := runStages_ends hadvance (initCursors_sound hf hc) le_rfl
      exact ⟨t, ht⟩

/-- Settles O31: a DECODE answers, and its run of stages is a run of steps. -/
theorem decodeIsARunOfSteps : Obligations.DecodeIsARunOfSteps := by
  intro s hf
  obtain ⟨t, ht⟩ := execDecode_next s
  obtain ⟨n, hn⟩ := exists_run_of_runStages ((execDecode_of_ready hf).symm.trans ht)
  exact ⟨n, t, ht, hn⟩

end Sys2Proof.Machine
end

section
/-! DECODE and the SRC space (rules R41, R50): every byte a record's fetch reads lies below the latched `SLEN`; and
obligation O32. -/

namespace Sys2Proof.Machine

/-- The state with another SRC space. -/
def withSrc (m : Memory) (s : State) : State := { s with src := m }

@[simp] theorem withSrc_regs (m : Memory) (s : State) : (withSrc m s).regs = s.regs := rfl
@[simp] theorem withSrc_pipe (m : Memory) (s : State) : (withSrc m s).pipe = s.pipe := rfl
@[simp] theorem withSrc_params (m : Memory) (s : State) : (withSrc m s).params = s.params := rfl

/-- The spaces agree below the latched `SLEN`. -/
def SrcAgrees (m : Memory) (s : State) : Prop := ∀ a < s.pipe.latch.n.toNat, readByte m a = readByte s.src a

variable {m : Memory} {s : State}

/-! ## The sequencer's moves, case by case -/

theorem settle_place (hg : s.pipe.stage = .place) : settle s = s := by simp [settle, hg]

theorem nextRow_of_lt (h : s.pipe.py + 1 < passHeight s.pipe.latch.h.toNat s.pipe.geo) :
    nextRow s = { s with pipe := { s.pipe with py := s.pipe.py + 1, stage := .record } } := if_pos h

theorem nextRow_of_last (h : ¬ s.pipe.py + 1 < passHeight s.pipe.latch.h.toNat s.pipe.geo) :
    nextRow s = nextPass s.pipe.later s := if_neg h

/-! ## What does not look at SRC -/

theorem startDecode_withSrc (m : Memory) (s : State) : startDecode (withSrc m s) = withSrc m (startDecode s) := by
  cases hc : configCheck s.params (latchOf s.regs) with
  | error e =>
    simp only [startDecode, withSrc_params, withSrc_regs, hc]
    rfl
  | ok c =>
    rw [startDecode_of_ok hc, startDecode_of_ok (s := withSrc m s) hc]
    rfl

theorem stagesLeft_withSrc (m : Memory) (s : State) : stagesLeft (withSrc m s) = stagesLeft s := by
  have hrecords : ∀ ps, passRecords (withSrc m s) ps = passRecords s ps := passRecords_congr rfl
  simp only [stagesLeft, hrecords]
  rfl

theorem nextPass_withSrc (m : Memory) (ps : List Pass) (s : State) :
    nextPass ps (withSrc m s) = withSrc m (nextPass ps s) := by
  induction ps with
  | nil => rfl
  | cons p rest ih =>
    have hskip : skipped (withSrc m s) p = skipped s p := rfl
    cases hp : skipped s p with
    | true => simpa only [nextPass, hskip, hp, if_true] using ih
    | false =>
      simp only [nextPass, hskip, hp, Bool.false_eq_true, if_false]
      rfl

theorem settle_withSrc (m : Memory) (s : State) : settle (withSrc m s) = withSrc m (settle s) := by
  cases hf : s.regs.fault with
  | true => rw [settle_of_fault hf, settle_of_fault (s := withSrc m s) hf]
  | false =>
    cases hg : s.pipe.stage with
    | idle => rw [settle_idle hg, settle_idle (s := withSrc m s) hg]
    | passes =>
      rw [settle_passes hf hg, settle_passes (s := withSrc m s) hf hg]
      exact nextPass_withSrc m s.pipe.later s
    | record =>
      rw [settle_record hf hg, settle_record (s := withSrc m s) hf hg]
      rfl
    | unpack =>
      rw [settle_unpack hf hg, settle_unpack (s := withSrc m s) hf hg]
      rfl
    | place => rw [settle_place hg, settle_place (s := withSrc m s) hg]

theorem nextRow_withSrc (m : Memory) (s : State) : nextRow (withSrc m s) = withSrc m (nextRow s) := by
  by_cases hrow : s.pipe.py + 1 < passHeight s.pipe.latch.h.toNat s.pipe.geo
  · rw [nextRow_of_lt hrow, nextRow_of_lt (s := withSrc m s) hrow]
    rfl
  · rw [nextRow_of_last hrow, nextRow_of_last (s := withSrc m s) hrow]
    exact nextPass_withSrc m s.pipe.later s

theorem dstPutAll_withSrc (m : Memory) (ws : List DstWrite) (s : State) :
    dstPutAll ws (withSrc m s) = withSrc m (dstPutAll ws s) := by
  induction ws generalizing s with
  | nil => rfl
  | cons w ws ih => exact ih (dstPut w s)

theorem placeRecord_withSrc (m : Memory) (s : State) : placeRecord (withSrc m s) = withSrc m (placeRecord s) := by
  have hscatter : scatterRow (withSrc m s) = withSrc m (scatterRow s) := dstPutAll_withSrc m (rowWrites s) s
  unfold placeRecord
  rw [hscatter]
  exact nextRow_withSrc m (commitRecord (scatterRow s))

theorem rowSamples_withSrc (m : Memory) (s : State) : rowSamples (withSrc m s) = rowSamples s := rfl

theorem paletteOffender_withSrc (m : Memory) (s : State) (row : List Sample) :
    paletteOffender (withSrc m s) row = paletteOffender s row := rfl

theorem unpackRow_withSrc (m : Memory) (d : Depth) (s : State) :
    unpackRow d (withSrc m s) = withSrc m (unpackRow d s) := by
  simp only [unpackRow, withSrc_pipe, rowSamples_withSrc, paletteOffender_withSrc]
  cases paletteOffender s (unpackLine d.bits (rowSamples s) s.pipe.cur) <;> rfl

/-! ## Fetching a record -/

/-- The bytes a record's fetch looks at lie below the latched `SLEN` (rule R105). -/
theorem fetchAt_withSrc (h : SrcAgrees m s) :
    (∃ u, fetchAt s = .quiet u ∧ fetchAt (withSrc m s) = .quiet (withSrc m u)) ∨
      ∃ t filt, fetchAt s = .run (.filter t filt) s ∧
        fetchAt (withSrc m s) = .run (.filter t filt) (withSrc m s) := by
  by_cases hend : s.pipe.latch.n.toNat ≤ s.regs.spos.toNat
  · exact .inl ⟨_, fetchAt_of_end hend, fetchAt_of_end (s := withSrc m s) hend⟩
  have htype : readByte (withSrc m s).src (withSrc m s).regs.spos.toNat = readByte s.src s.regs.spos.toNat :=
    h s.regs.spos.toNat (by omega)
  cases hft : decodeFilter (readByte s.src s.regs.spos.toNat) with
  | error r =>
    refine .inl ⟨_, fetchAt_of_illegal hend hft, ?_⟩
    rw [fetchAt_of_illegal (s := withSrc m s) hend (by rw [htype, hft]), htype]
    rfl
  | ok t =>
    have hft' : decodeFilter (readByte (withSrc m s).src (withSrc m s).regs.spos.toNat) = .ok t := by rw [htype, hft]
    by_cases hshort : s.pipe.latch.n.toNat - s.regs.spos.toNat - 1 < rowStride s
    · exact .inl ⟨_, fetchAt_of_short hend hft hshort, fetchAt_of_short (s := withSrc m s) hend hft' hshort⟩
    · have hdata : recordData (withSrc m s) = recordData s :=
        readBytes_congr m (s.regs.spos.toNat + 1) s.src (rowStride s) fun k hk => h _ (by omega)
      refine .inr ⟨t, recordData s, fetchAt_of_whole hend hft hshort, ?_⟩
      rw [fetchAt_of_whole (s := withSrc m s) hend hft' hshort, hdata]

/-! ## A stage and a whole DECODE -/

theorem stageStep_withSrc (h : SrcAgrees m s) : stageStep (withSrc m s) = onNext (stageStep s) (withSrc m) := by
  cases hg : s.pipe.stage with
  | idle => simp only [stageStep, fetchStage, withSrc_pipe, hg, onNext]
  | passes =>
    cases hm : decodeInterlace s.pipe.latch.il with
    | error e => simp only [stageStep, fetchStage, withSrc_pipe, hg, hm, onNext]
    | ok mode =>
      rw [stageStep_passes hg hm, stageStep_passes (s := withSrc m s) hg hm]
      exact congrArg Host.Outcome.next (settle_withSrc m (loadPasses mode s))
  | record =>
    have hbegin : beginRecord (withSrc m s) = withSrc m (beginRecord s) := rfl
    have hagrees : SrcAgrees m (beginRecord s) := h
    simp only [stageStep, fetchStage, withSrc_pipe, hg, fetchRecord, hbegin]
    rcases fetchAt_withSrc hagrees with ⟨u, he, he'⟩ | ⟨t, filt, he, he'⟩
    · simp only [he, he', onNext]
    · simp only [he, he', runOp_filter, onNext]
      exact congrArg Host.Outcome.next (settle_withSrc m (filterRow t filt (beginRecord s)))
  | unpack =>
    cases hd : decodeDepth s.pipe.latch.bd with
    | error e => simp only [stageStep, fetchStage, withSrc_pipe, hg, hd, onNext]
    | ok d =>
      rw [stageStep_unpack hg hd, stageStep_unpack (s := withSrc m s) hg hd, unpackRow_withSrc, settle_withSrc]
      rfl
  | place =>
    rw [stageStep_place hg, stageStep_place (s := withSrc m s) hg, placeRecord_withSrc]
    rfl

/-- Every stage reads the same SRC bytes, for it keeps the latch and writes no SRC byte. -/
theorem SrcAgrees.of_stageStep {t : State} (h : SrcAgrees m s) (hstep : stageStep s = .next t) : SrcAgrees m t := by
  unfold SrcAgrees
  rw [(stageStep_keeps hstep).latch, (stageStep_sameInputs hstep).src]
  exact h

theorem runStages_withSrc {k : Nat} (h : SrcAgrees m s) :
    runStages k (withSrc m s) = onNext (runStages k s) (withSrc m) := by
  induction k generalizing s with
  | zero => rfl
  | succ k ih =>
    by_cases hi : s.pipe.stage = .idle
    · simp only [runStages, withSrc_pipe, hi, if_true, onNext]
    · simp only [runStages, withSrc_pipe, hi, if_false, stageStep_withSrc h]
      cases hu : stageStep s with
      | next u => exact ih (h.of_stageStep hu)
      | fault r => rfl
      | refused r => rfl

/-- Settles O32: the stages of a DECODE commute with a change of the bytes that `SLEN` leaves out. -/
theorem decodeReadsBelowSlenOnly : Obligations.DecodeReadsBelowSlenOnly := by
  intro s m hm
  show execDecode (withSrc m s) = onNext (execDecode s) (withSrc m)
  cases hf : s.regs.fault with
  | true =>
    simp only [execDecode, withSrc_regs, hf, if_true, onNext]
  | false =>
    have hagrees : SrcAgrees m (startDecode s) := by
      unfold SrcAgrees
      rw [startDecode_latch, (startDecode_sameSpaces s).src]
      exact hm
    rw [execDecode_of_ready hf, execDecode_of_ready (s := withSrc m s) hf, startDecode_withSrc, stagesLeft_withSrc]
    exact runStages_withSrc hagrees

end Sys2Proof.Machine
end

section
/-! The cells of a record and of the plan (rules R43, R131, R135, R136): which cells a row of a pass has, that no cell is
named twice, and that the plan names every cell of the image. -/

namespace Sys2Proof.Machine

open Sys2Proof.Safety

/-- Lists without a repeated entry, no two of which share an entry, make one list without a repeated entry. -/
theorem nodup_flatMap_of_shared {α β : Type} {l : List α} {f : α → List β} (hl : l.Nodup)
    (hf : ∀ a ∈ l, (f a).Nodup) (hshared : ∀ a ∈ l, ∀ b ∈ l, ∀ i, i ∈ f a → i ∈ f b → a = b) :
    (l.flatMap f).Nodup :=
  List.nodup_flatMap.mpr ⟨hf, hl.pairwise_of_forall_ne fun a ha b hb hne i hia hib =>
    hne (hshared a ha b hb i hia hib)⟩

/-! ## The cells of a record -/

/-- The cells the record `q` goes to, in the order of the writes, in an image `w` wide with `c` channels (rule R135). -/
def recordCells (w c : Nat) (q : Pass × Nat) : List Nat :=
  (List.range (passWidth w q.1)).flatMap fun px =>
    (List.range c).map fun ch => cellIndex w c (q.1.xo + px * q.1.xs) (q.1.yo + q.2 * q.1.ys) ch

/-- The writes of the row in hand name the cells of its record. -/
theorem rowWrites_map_idx (s : State) :
    (rowWrites s).map DstWrite.idx =
      recordCells s.pipe.latch.w.toNat s.pipe.chan (s.pipe.geo, s.pipe.py) := by
  simp [rowWrites, scatterWrites, recordCells, rowPixels, List.map_flatMap, Function.comp_def]

variable {w c : Nat} {p : Pass} {py i : Nat}

/-- A cell belongs to the pixel of its number divided by the channels (rule R43). -/
theorem exists_channel_iff (hc : 0 < c) (n : Nat) : (∃ ch < c, n * c + ch = i) ↔ i / c = n := by
  constructor
  · rintro ⟨ch, hch, rfl⟩
    rw [Nat.mul_comm, Nat.mul_add_div hc, Nat.div_eq_of_lt hch, Nat.add_zero]
  · rintro rfl
    exact ⟨i % c, Nat.mod_lt i hc, Nat.div_add_mod' i c⟩

theorem mem_recordCells (hc : 0 < c) :
    i ∈ recordCells w c (p, py) ↔
      ∃ px < passWidth w p, i / c = (p.yo + py * p.ys) * w + (p.xo + px * p.xs) := by
  simp only [recordCells, cellIndex, List.mem_flatMap, List.mem_map, List.mem_range, exists_channel_iff hc]

/-- A row goes to a different cell with each sample (rule R135). -/
theorem recordCells_nodup (hc : 0 < c) (hx : p.xo < p.xs) : (recordCells w c (p, py)).Nodup := by
  refine nodup_flatMap_of_shared List.nodup_range (fun px _ => ?_) fun px _ px' _ i hi hi' => ?_
  · exact List.nodup_range.map fun ch ch' h => Nat.add_left_cancel h
  · simp only [cellIndex, List.mem_map, List.mem_range, exists_channel_iff hc] at hi hi'
    have hcol : px * p.xs = px' * p.xs := by omega
    exact Nat.eq_of_mul_eq_mul_right (by omega) hcol

/-- The cells of a row, by column and row of the image (rules R43, R135). -/
theorem mem_recordCells_iff_pixel (hc : 0 < c) (hw : 0 < w) (hx : p.xo < p.xs) :
    i ∈ recordCells w c (p, py) ↔ i / c / w = p.yo + py * p.ys ∧ i / c % w % p.xs = p.xo := by
  rw [mem_recordCells hc]
  constructor
  · rintro ⟨px, hpx, hi⟩
    have hcol : p.xo + px * p.xs < w := (lt_passWidth_iff hx w px).mp hpx
    rw [hi, Nat.mul_comm _ w, Nat.mul_add_div hw, Nat.mul_add_mod, Nat.mod_eq_of_lt hcol, Nat.div_eq_of_lt hcol,
      Nat.add_mul_mod_self_right, Nat.mod_eq_of_lt hx]
    exact ⟨rfl, rfl⟩
  · rintro ⟨hrow, hcol⟩
    have hsplit : p.xo + i / c % w / p.xs * p.xs = i / c % w := by
      rw [← hcol]
      exact Nat.mod_add_div' _ _
    refine ⟨i / c % w / p.xs, (lt_passWidth_iff hx w _).mpr ?_, ?_⟩
    · rw [hsplit]
      exact Nat.mod_lt _ hw
    · rw [hsplit, ← hrow, Nat.div_add_mod']

/-- A cell belongs to the image exactly when its pixel's row does (rule R43). -/
theorem lt_imageCells_iff (hc : 0 < c) (hw : 0 < w) (h : Nat) : i < w * h * c ↔ i / c / w < h := by
  rw [Nat.div_lt_iff_lt_mul hw, Nat.div_lt_iff_lt_mul hc, Nat.mul_comm h w]

/-- No cell of a row of a pass lies beyond the image (rule R135). -/
theorem lt_of_mem_recordCells (hc : 0 < c) (hw : 0 < w) (hx : p.xo < p.xs) (hy : p.yo < p.ys) {h : Nat}
    (hpy : py < passHeight h p) (hi : i ∈ recordCells w c (p, py)) : i < w * h * c := by
  rw [lt_imageCells_iff hc hw, ((mem_recordCells_iff_pixel hc hw hx).mp hi).1]
  exact (lt_passHeight_iff hy h py).mp hpy

/-! ## The passes of a pixel -/

/-- The pass has the pixel of column `x` and row `y` (rules R131, R137). -/
abbrev HasPixel (p : Pass) (x y : Nat) : Prop := x % p.xs = p.xo ∧ y % p.ys = p.yo

/-- Whether a pass has a pixel depends on the pixel's place in its 8 by 8 block only (rule R131). -/
theorem hasPixel_iff_mod_eight {m : InterlaceMode} {p : Pass} (hp : p ∈ passList m) (x y : Nat) :
    HasPixel p x y ↔ HasPixel p (x % 8) (y % 8) := by
  have hdvd : ∀ q ∈ passList m, q.xs ∣ 8 ∧ q.ys ∣ 8 := by cases m <;> decide
  obtain ⟨hxs, hys⟩ := hdvd p hp
  simp only [HasPixel, Nat.mod_mod_of_dvd _ hxs, Nat.mod_mod_of_dvd _ hys]

/-- Every pixel is in a pass (rule R136). -/
theorem exists_pass_hasPixel (m : InterlaceMode) (x y : Nat) : ∃ p ∈ passList m, HasPixel p x y := by
  have hblock : ∀ x y : Fin 8, ∃ p ∈ passList m, HasPixel p x y := by cases m <;> decide
  obtain ⟨p, hp, h⟩ := hblock ⟨x % 8, Nat.mod_lt x (by decide)⟩ ⟨y % 8, Nat.mod_lt y (by decide)⟩
  exact ⟨p, hp, (hasPixel_iff_mod_eight hp x y).mpr h⟩

/-- No pixel is in two passes (rule R136). -/
theorem pass_unique_of_hasPixel {m : InterlaceMode} {p q : Pass} {x y : Nat} (hp : p ∈ passList m)
    (hq : q ∈ passList m) (hpx : HasPixel p x y) (hqx : HasPixel q x y) : p = q := by
  have hblock : ∀ x y : Fin 8, ∀ p ∈ passList m, ∀ q ∈ passList m, HasPixel p x y → HasPixel q x y → p = q := by
    cases m <;> decide
  exact hblock ⟨x % 8, Nat.mod_lt x (by decide)⟩ ⟨y % 8, Nat.mod_lt y (by decide)⟩ p hp q hq
    ((hasPixel_iff_mod_eight hp x y).mp hpx) ((hasPixel_iff_mod_eight hq x y).mp hqx)

/-! ## The cells of the plan -/

/-- The cells of a list of records of a configuration with `c` channels, in the order of the writes. -/
def planCells (l : Latch) (c : Nat) (qs : List (Pass × Nat)) : List Nat := qs.flatMap (recordCells l.w.toNat c)

theorem mem_recordPlan {l : Latch} {q : Pass × Nat} :
    q ∈ recordPlan l ↔ q.1 ∈ latchPasses l ∧ passWidth l.w.toNat q.1 ≠ 0 ∧ q.2 < passHeight l.h.toNat q.1 := by
  obtain ⟨p, py⟩ := q
  simp only [recordPlan, List.mem_flatMap]
  constructor
  · rintro ⟨p', hp', hmem⟩
    split at hmem
    · cases hmem
    · obtain ⟨py', hpy', he⟩ := List.mem_map.mp hmem
      cases he
      exact ⟨hp', ‹_›, List.mem_range.mp hpy'⟩
  · rintro ⟨hp, hw, hpy⟩
    refine ⟨p, hp, ?_⟩
    rw [if_neg hw]
    exact List.mem_map_of_mem (List.mem_range.mpr hpy)

theorem recordPlan_nodup {l : Latch} {m : InterlaceMode} (hm : latchPasses l = passList m) : (recordPlan l).Nodup := by
  have hpasses : (passList m).Nodup := by cases m <;> decide
  have hpass : ∀ p q, q ∈ (if passWidth l.w.toNat p = 0 then []
      else (List.range (passHeight l.h.toNat p)).map fun py => (p, py)) → q.1 = p := by
    intro p q hq
    split at hq
    · cases hq
    · obtain ⟨py, -, rfl⟩ := List.mem_map.mp hq
      rfl
  refine nodup_flatMap_of_shared (hm ▸ hpasses) (fun p _ => ?_) fun p _ p' _ q hq hq' =>
    (hpass p q hq).symm.trans (hpass p' q hq')
  split
  · exact List.nodup_nil
  · exact List.nodup_range.map fun py py' h => (Prod.mk.inj h).2

section Image

variable {l : Latch} {m : InterlaceMode} (hm : latchPasses l = passList m) (hc : 0 < c) (hw : 0 < l.w.toNat)

include hm hc hw

/-- No cell is named twice by the plan (rules R48, R136). -/
theorem planCells_nodup : (planCells l c (recordPlan l)).Nodup := by
  have hpass : ∀ q ∈ recordPlan l, q.1 ∈ passList m := fun q hq => hm ▸ (mem_recordPlan.mp hq).1
  refine nodup_flatMap_of_shared (recordPlan_nodup hm)
    (fun q hq => recordCells_nodup hc (passList_offsets (hpass q hq)).1) fun q hq q' hq' i hi hi' => ?_
  obtain ⟨hx, hy⟩ := passList_offsets (hpass q hq)
  obtain ⟨hx', hy'⟩ := passList_offsets (hpass q' hq')
  obtain ⟨hrow, hcol⟩ := (mem_recordCells_iff_pixel hc hw hx).mp hi
  obtain ⟨hrow', hcol'⟩ := (mem_recordCells_iff_pixel hc hw hx').mp hi'
  have hpixel : HasPixel q.1 (i / c % l.w.toNat) (i / c / l.w.toNat) :=
    ⟨hcol, by rw [hrow, Nat.add_mul_mod_self_right, Nat.mod_eq_of_lt hy]⟩
  have hpixel' : HasPixel q'.1 (i / c % l.w.toNat) (i / c / l.w.toNat) :=
    ⟨hcol', by rw [hrow', Nat.add_mul_mod_self_right, Nat.mod_eq_of_lt hy']⟩
  have hp : q.1 = q'.1 := pass_unique_of_hasPixel (hpass q hq) (hpass q' hq') hpixel hpixel'
  refine Prod.ext hp (Nat.eq_of_mul_eq_mul_right (by omega : 0 < q.1.ys) ?_)
  rw [← hp] at hrow'
  omega

/-- The plan names the cells of the image and no others (rule R136). -/
theorem mem_planCells : i ∈ planCells l c (recordPlan l) ↔ i < l.w.toNat * l.h.toNat * c := by
  rw [planCells, List.mem_flatMap]
  constructor
  · rintro ⟨q, hq, hi⟩
    obtain ⟨hp, -, hpy⟩ := mem_recordPlan.mp hq
    obtain ⟨hx, hy⟩ := passList_offsets (hm ▸ hp)
    exact lt_of_mem_recordCells hc hw hx hy hpy hi
  · intro hi
    rw [lt_imageCells_iff hc hw] at hi
    obtain ⟨p, hp, hcol, hrow⟩ := exists_pass_hasPixel m (i / c % l.w.toNat) (i / c / l.w.toNat)
    obtain ⟨hx, hy⟩ := passList_offsets hp
    have hsplit : p.yo + i / c / l.w.toNat / p.ys * p.ys = i / c / l.w.toNat := by
      rw [← hrow]
      exact Nat.mod_add_div' _ _
    have hcell : i ∈ recordCells l.w.toNat c (p, i / c / l.w.toNat / p.ys) :=
      (mem_recordCells_iff_pixel hc hw hx).mpr ⟨hsplit.symm, hcol⟩
    obtain ⟨px, hpx, -⟩ := (mem_recordCells hc).mp hcell
    have hheight : i / c / l.w.toNat / p.ys < passHeight l.h.toNat p :=
      (lt_passHeight_iff hy l.h.toNat _).mpr (hsplit.symm ▸ hi)
    exact ⟨_, mem_recordPlan.mpr ⟨hm ▸ hp, (Nat.zero_lt_of_lt hpx).ne', hheight⟩, hcell⟩

/-- The plan names each cell of the image once and no other cell (rules R48, R136). -/
theorem count_planCells (i : Nat) :
    (planCells l c (recordPlan l)).count i = if i < l.w.toNat * l.h.toNat * c then 1 else 0 := by
  rw [(planCells_nodup hm hc hw).count]
  simp only [mem_planCells hm hc hw]

end Image

end Sys2Proof.Machine
end

section
/-! The scatter of a row (rules R43, R44, R105, R135): what the placing of a record leaves in DST, on its port and in the
cursors; and obligation O37. -/

namespace Sys2Proof.Machine

open Sys2Proof.Safety

/-! ## The configuration of a DECODE in progress -/

theorem chan_pos_of_configCheck {p : Params} {l : Latch} {c : Nat} (h : configCheck p l = .ok c) : 0 < c := by
  obtain ⟨color, -, rfl, -⟩ := configCheck_ok h
  exact channels_pos color

theorem width_pos_of_configCheck {p : Params} {l : Latch} {c : Nat} (h : configCheck p l = .ok c) :
    0 < l.w.toNat := by
  obtain ⟨-, -, -, -, -, hw, -⟩ := configCheck_ok h
  simpa [BitVec.toNat_eq, Nat.pos_iff_ne_zero] using hw

theorem latchPasses_of_configCheck {p : Params} {l : Latch} {c : Nat} (h : configCheck p l = .ok c) :
    ∃ m, latchPasses l = passList m := by
  obtain ⟨m, hm⟩ := decodeInterlace_of_configCheck h
  exact ⟨m, by simp only [latchPasses, hm]⟩

/-- The pass in hand has its offsets below its strides (rule R131). -/
theorem geo_offsets {s : State} (hconf : Configured s) (hpass : PassSound s) :
    s.pipe.geo.xo < s.pipe.geo.xs ∧ s.pipe.geo.yo < s.pipe.geo.ys := by
  obtain ⟨m, hm⟩ := decodeInterlace_of_configCheck hconf
  exact passList_offsets (latchedPasses_of hm ▸ hpass.known)

/-! ## The placing of a record -/

theorem placeRecord_dst (s : State) : (placeRecord s).dst = (scatterRow s).dst := (nextRow_sameSpaces _).dst

theorem placeRecord_dstLog (s : State) : (placeRecord s).dstLog = (rowWrites s).reverse ++ s.dstLog :=
  (nextRow_sameSpaces _).dstLog.trans (dstPutAll_dstLog s (rowWrites s))

theorem nextPass_spos (l : List Pass) (s : State) : (nextPass l s).regs.spos = s.regs.spos := by
  rcases nextPass_cases l s with ⟨_, p, rest, _, _, _, he⟩ | ⟨_, he⟩ <;> rw [he] <;> rfl

theorem nextRow_spos (s : State) : (nextRow s).regs.spos = s.regs.spos := by
  unfold nextRow
  split
  · rfl
  · exact nextPass_spos _ s

/-- `SPOS` steps over the record (rule R105). -/
theorem placeRecord_spos {s : State} (hfit : RecordFits s) :
    (placeRecord s).regs.spos.toNat = s.regs.spos.toNat + 1 + rowStride s := by
  rw [placeRecord, nextRow_spos, commitRecord_spos hfit, Nat.add_assoc]

/-- The placing of a record leaves each cell that is no cell of the record (rule R135). -/
theorem dstCell_placeRecord_other {s : State} {idx : Nat}
    (h : idx ∉ recordCells s.pipe.latch.w.toNat s.pipe.chan (s.pipe.geo, s.pipe.py)) :
    dstCell (placeRecord s).dst idx = dstCell s.dst idx := by
  rw [placeRecord_dst]
  refine dstCell_dstPutAll_other (rowWrites s) s idx fun w hw he => h ?_
  rw [← rowWrites_map_idx]
  exact he ▸ List.mem_map_of_mem hw

/-- The write of one sample of the row in hand (rules R44, R135). -/
def sampleWrite (s : State) (px c : Nat) : DstWrite where
  idx := cellIndex s.pipe.latch.w.toNat s.pipe.chan (s.pipe.geo.xo + px * s.pipe.geo.xs)
    (s.pipe.geo.yo + s.pipe.py * s.pipe.geo.ys) c
  value := s.pipe.samples.getD (px * s.pipe.chan + c) 0
  wide := s.pipe.latch.bd == 16#8

theorem rowWrites_eq (s : State) :
    rowWrites s = (List.range (rowPixels s)).flatMap fun px => (List.range s.pipe.chan).map (sampleWrite s px) := rfl

theorem mem_rowWrites {s : State} {px c : Nat} (hpx : px < rowPixels s) (hc : c < s.pipe.chan) :
    sampleWrite s px c ∈ rowWrites s := by
  rw [rowWrites_eq]
  exact List.mem_flatMap.mpr ⟨px, List.mem_range.mpr hpx, List.mem_map_of_mem (List.mem_range.mpr hc)⟩

theorem mem_recordCells_iff_sampleWrite {s : State} {idx : Nat} :
    idx ∈ recordCells s.pipe.latch.w.toNat s.pipe.chan (s.pipe.geo, s.pipe.py) ↔
      ∃ px < rowPixels s, ∃ c < s.pipe.chan, (sampleWrite s px c).idx = idx := by
  simp only [recordCells, rowPixels, sampleWrite, List.mem_flatMap, List.mem_map, List.mem_range]

/-- What DST stores of a write: all 16 bits when it is wide, else the low 8 (rule R44). -/
theorem storedSample_eq_and (w : DstWrite) : storedSample w = w.value &&& if w.wide then 0xFFFF else 0x00FF := by
  unfold storedSample
  cases w.wide with
  | true =>
    exact BitVec.and_allOnes.symm
  | false =>
    apply BitVec.eq_of_toNat_eq
    have hmask : (0x00FF : Sample).toNat = 2 ^ 8 - 1 := rfl
    simp only [Bool.false_eq_true, if_false, BitVec.toNat_and]
    rw [hmask, Nat.and_two_pow_sub_one_eq_mod]
    simp only [BitVec.toNat_setWidth]
    omega

/-- The placing of a record puts each sample into its cell (rules R44, R135). -/
theorem dstCell_placeRecord {s : State} (hconf : Configured s) (hpass : PassSound s) {px c : Nat}
    (hpx : px < rowPixels s) (hc : c < s.pipe.chan) :
    dstCell (placeRecord s).dst (sampleWrite s px c).idx = some (storedSample (sampleWrite s px c)) := by
  rw [placeRecord_dst]
  refine dstCell_dstPutAll_of_mem (rowWrites s) s (sampleWrite s px c) ?_ (mem_rowWrites hpx hc)
  rw [rowWrites_map_idx]
  exact recordCells_nodup (chan_pos_of_configCheck hconf) (geo_offsets hconf hpass).1

/-- Settles O37: the step is the placing of the record, and its writes name each cell of the row once. -/
theorem rowsAreScattered : Obligations.RowsAreScattered := by
  intro s hs hg
  have hsound := hs.stage
  simp only [StageSound, hg] at hsound
  obtain ⟨-, -, hconf, hpass, hfit, -⟩ := hsound
  have hstep : step s = .next (placeRecord s) :=
    (step_of_busy (by rw [hg]; decide)).trans (stageStep_place hg)
  refine ⟨placeRecord s, hstep, fun px hpx c hc => ?_, fun idx hother => ?_, placeRecord_dstLog s,
    placeRecord_spos hfit, (placeRecord_sameInputs s).src, (placeRecord_sameInputs s).chk⟩
  · refine (dstCell_placeRecord hconf hpass hpx hc).trans ?_
    rw [storedSample_eq_and]
    simp only [sampleWrite, beq_iff_eq]
    rfl
  · refine dstCell_placeRecord_other fun hmem => ?_
    obtain ⟨px, hpx, c, hc, he⟩ := mem_recordCells_iff_sampleWrite.mp hmem
    exact hother px hpx c hc he

end Sys2Proof.Machine
end

section
/-! DST through a whole DECODE (rules R40, R48, R97, R135, R136): no cell beyond the image is written, and when the command
ends with `DONE` the writes of all its records are those of the plan; and obligations O26 and O29. -/

namespace Sys2Proof.Machine

open Sys2Proof.Safety

/-! ## The cells beyond the image -/

/-- A stage of a sound DECODE leaves every cell beyond the image (rule R135). -/
theorem stageStep_dstCell_beyond {s t : State} (hs : StageSound s) (h : stageStep s = .next t) {idx : Nat}
    (hidx : s.pipe.latch.w.toNat * s.pipe.latch.h.toNat * s.pipe.chan ≤ idx) :
    dstCell t.dst idx = dstCell s.dst idx := by
  by_cases hg : s.pipe.stage = .place
  · simp only [StageSound, hg] at hs
    obtain ⟨-, -, hconf, hpass, -⟩ := hs
    obtain ⟨hx, hy⟩ := geo_offsets hconf hpass
    cases (stageStep_place hg).symm.trans h
    refine dstCell_placeRecord_other fun hmem => ?_
    have hlt := lt_of_mem_recordCells (chan_pos_of_configCheck hconf) (width_pos_of_configCheck hconf) hx hy
      hpass.rowInPass hmem
    omega
  · rw [(stageStep_sameSpaces hg h).dst]

/-- A DECODE leaves every cell beyond the image (rule R135). -/
theorem execDecode_dstCell_beyond {s t : State} {c idx : Nat} (hf : s.regs.fault = false)
    (hc : configCheck s.params (latchOf s.regs) = .ok c) (h : execDecode s = .next t)
    (hidx : s.regs.width.toNat * s.regs.height.toNat * c ≤ idx) : dstCell t.dst idx = dstCell s.dst idx := by
  have hstart := startDecode_of_ok hc
  obtain ⟨⟨-, hcell⟩, -⟩ := execDecode_keeps
    (P := fun u => StageKeeps (startDecode s) u ∧ dstCell u.dst idx = dstCell s.dst idx)
    (fun u v _ hu hk hstep => ⟨hk.1.trans (stageStep_keeps hstep),
      (stageStep_dstCell_beyond hu hstep (by rw [hk.1.latch, hk.1.chan, hstart]; exact hidx)).trans hk.2⟩)
    hf (hstart ▸ initCursors_sound hf hc) ⟨.refl _, by rw [(startDecode_sameSpaces s).dst]⟩ h
  exact hcell

/-- Settles O26: the frames of the start and of the stages, and the cells beyond the image. -/
theorem decodeLeavesTheRestAlone : Obligations.DecodeLeavesTheRestAlone := by
  intro s t h
  have hinputs := execDecode_sameInputs h
  have hkeeps := execDecode_decodeKeeps h
  refine ⟨hinputs.params, hinputs.src, hinputs.chk, hkeeps.pending, hkeeps.replies, hkeeps.crcAcc,
    Regs.eq_of_withoutDecode hkeeps.regs, fun c hc idx hidx => ?_⟩
  cases hf : s.regs.fault with
  | false => exact execDecode_dstCell_beyond hf hc h hidx
  | true =>
    have hignored : execDecode s = .next s := by simp only [execDecode, hf, if_true]
    cases hignored.symm.trans h
    rfl

/-! ## The writes of a DECODE that ends with `DONE` -/

/-- The records of the plan still to be written, at each stage. -/
def recordsUnwritten (s : State) : List (Pass × Nat) :=
  match s.pipe.stage with
  | .idle => []
  | .passes => recordPlan s.pipe.latch
  | .record => recordsLeft s.pipe.latch s.pipe
  | .unpack => recordsLeft s.pipe.latch s.pipe
  | .place => recordsLeft s.pipe.latch s.pipe

/-- The writes since the port held `log` named the first cells of the plan, in order, up to those of the records `todo`. -/
def WrittenUpTo (log : List DstWrite) (s : State) (todo : List (Pass × Nat)) : Prop :=
  ∃ writes, s.dstLog = writes ++ log ∧
    (writes.map DstWrite.idx).reverse ++ planCells s.pipe.latch s.pipe.chan todo =
      planCells s.pipe.latch s.pipe.chan (recordPlan s.pipe.latch)

/-- The command has faulted, or all is written but what is still to come. -/
def WrittenSoFar (log : List DstWrite) (s : State) : Prop :=
  s.regs.done = false ∧ s.pipe.stage = .idle ∨ WrittenUpTo log s (recordsUnwritten s)

/-- What writes nothing and keeps the latch leaves the same records written. -/
theorem WrittenUpTo.of_keeps {log : List DstWrite} {s t : State} {todo : List (Pass × Nat)}
    (h : WrittenUpTo log s todo) (hlog : t.dstLog = s.dstLog) (hk : StageKeeps s t) : WrittenUpTo log t todo := by
  unfold WrittenUpTo
  rw [hlog, hk.latch, hk.chan]
  exact h

/-- The move to the next pass writes nothing, and the passes it skips have no record (rule R133). -/
theorem nextPass_writtenSoFar {log : List DstWrite} {s : State} {ps : List Pass}
    (h : WrittenUpTo log s (passesPlan s.pipe.latch ps)) : WrittenSoFar log (nextPass ps s) := by
  refine .inr ?_
  have hsame := h.of_keeps (nextPass_sameSpaces ps s).dstLog (nextPass_keeps ps s)
  suffices htodo : recordsUnwritten (nextPass ps s) = passesPlan s.pipe.latch ps by rwa [htodo]
  rcases nextPass_cases ps s with ⟨before, p, rest, rfl, hskip, hp, he⟩ | ⟨hskip, he⟩ <;> rw [he]
  · rw [passesPlan_append, passesPlan_of_skipped hskip, List.nil_append, passesPlan_cons_of_entered hp]
    rfl
  · rw [passesPlan_of_skipped hskip]
    rfl

/-- The placing of a record writes the cells of the first record still to be written (rule R135). -/
theorem placeRecord_writtenSoFar {log : List DstWrite} {s : State} (hpass : PassSound s)
    (h : WrittenUpTo log s (recordsLeft s.pipe.latch s.pipe)) : WrittenSoFar log (placeRecord s) := by
  obtain ⟨hpipe, -, -⟩ := commitRecord_keeps s
  have hlog : (commitRecord (scatterRow s)).dstLog = (rowWrites s).reverse ++ s.dstLog := dstPutAll_dstLog s _
  have hwritten : WrittenUpTo log (commitRecord (scatterRow s))
      (rowsFrom s.pipe.latch s.pipe.geo (s.pipe.py + 1) ++ passesPlan s.pipe.latch s.pipe.later) := by
    obtain ⟨writes, hwrites, hcells⟩ := h
    refine ⟨(rowWrites s).reverse ++ writes, by rw [hlog, hwrites, List.append_assoc], ?_⟩
    rw [hpipe, ← hcells, recordsLeft, rowsFrom_of_lt hpass.rowInPass]
    simp only [planCells, List.map_append, List.map_reverse, List.reverse_append, List.reverse_reverse,
      rowWrites_map_idx, List.cons_append, List.flatMap_cons, List.append_assoc]
  unfold placeRecord
  generalize commitRecord (scatterRow s) = u at hpipe hwritten
  by_cases hrow : u.pipe.py + 1 < passHeight u.pipe.latch.h.toNat u.pipe.geo
  · have hnext := hwritten.of_keeps (nextRow_sameSpaces u).dstLog (nextRow_keeps u)
    rw [nextRow_of_lt hrow] at hnext ⊢
    refine .inr ?_
    simpa only [recordsUnwritten, recordsLeft, hpipe] using hnext
  · rw [nextRow_of_last hrow]
    rw [hpipe] at hrow
    rw [rowsFrom_of_le (not_lt.mp hrow), List.nil_append] at hwritten
    refine nextPass_writtenSoFar ?_
    rw [hpipe]
    exact hwritten

/-- Every stage of a sound DECODE keeps count of the cells written (rules R91, R105). -/
theorem stageStep_writtenSoFar {log : List DstWrite} {s t : State} (hi : s.pipe.stage ≠ .idle) (hs : StageSound s)
    (hw : WrittenSoFar log s) (h : stageStep s = .next t) : WrittenSoFar log t := by
  replace hw : WrittenUpTo log s (recordsUnwritten s) := hw.resolve_left fun hend => hi hend.2
  cases hg : s.pipe.stage with
  | idle => exact absurd hg hi
  | passes =>
    simp only [StageSound, hg] at hs
    simp only [recordsUnwritten, hg] at hw
    obtain ⟨-, hf, hconf, -⟩ := hs
    obtain ⟨m, hm⟩ := decodeInterlace_of_configCheck hconf
    have hpasses : latchPasses s.pipe.latch = passList m := by simp only [latchPasses, hm]
    cases (stageStep_passes hg hm).symm.trans h
    rw [settle_passes (by exact hf) (by exact hg)]
    rw [recordPlan_eq_passesPlan, hpasses] at hw
    exact nextPass_writtenSoFar (hw.of_keeps rfl (loadPasses_keeps m s))
  | record =>
    simp only [StageSound, hg] at hs
    simp only [recordsUnwritten, hg] at hw
    obtain ⟨hd, hf, -⟩ := hs
    rcases stageStep_record hg with ⟨cause, v, he, -⟩ | ⟨ft, -, -, he⟩ <;> cases he.symm.trans h
    · exact .inl ⟨hd, rfl⟩
    · rw [settle_record (by exact hf) (by exact hg)]
      exact .inr hw
  | unpack =>
    simp only [StageSound, hg] at hs
    simp only [recordsUnwritten, hg] at hw
    obtain ⟨hd, hf, hconf, -⟩ := hs
    obtain ⟨d, hbits⟩ := decodeDepth_of_configCheck hconf
    cases (stageStep_unpack hg hbits).symm.trans h
    rcases unpackRow_cases d s with ⟨v, -, he⟩ | ⟨-, he⟩ <;> rw [he]
    · rw [settle_of_fault rfl]
      exact .inl ⟨hd, rfl⟩
    · rw [settle_unpack (by exact hf) (by exact hg)]
      exact .inr hw
  | place =>
    simp only [StageSound, hg] at hs
    simp only [recordsUnwritten, hg] at hw
    obtain ⟨-, -, -, hpass, -⟩ := hs
    cases (stageStep_place hg).symm.trans h
    exact placeRecord_writtenSoFar hpass hw

/-- Settles O29: a DECODE that ends with `DONE` has written the cells of the plan in order, and the plan names each cell of
the image once. -/
theorem doneMeansEveryCellWrittenOnce : Obligations.DoneMeansEveryCellWrittenOnce := by
  intro s t c hf hc h hdone
  have hstart := startDecode_of_ok hc
  have hbefore : WrittenSoFar s.dstLog (startDecode s) := by
    rw [hstart]
    exact .inr ⟨[], rfl, rfl⟩
  obtain ⟨⟨hkeeps, hwritten⟩, -, hidle⟩ := execDecode_keeps
    (P := fun u => StageKeeps (startDecode s) u ∧ WrittenSoFar s.dstLog u)
    (fun u v hi hu hk hstep => ⟨hk.1.trans (stageStep_keeps hstep), stageStep_writtenSoFar hi hu hk.2 hstep⟩)
    hf (hstart ▸ initCursors_sound hf hc) ⟨.refl _, hbefore⟩ h
  have hlatch : t.pipe.latch = latchOf s.regs := by rw [hkeeps.latch, startDecode_latch]
  have hchan : t.pipe.chan = c := by rw [hkeeps.chan, hstart]; rfl
  obtain ⟨writes, hlog, hcells⟩ := hwritten.resolve_left fun hend => by simp [hdone] at hend
  simp only [recordsUnwritten, hidle, hlatch, hchan] at hcells
  refine ⟨writes, hlog, fun idx => ?_⟩
  obtain ⟨m, hm⟩ := latchPasses_of_configCheck hc
  have hcount := count_planCells hm (chan_pos_of_configCheck hc) (width_pos_of_configCheck hc) idx
  rw [← hcells, planCells, List.flatMap_nil, List.append_nil, List.count_reverse] at hcount
  exact hcount

end Sys2Proof.Machine
end

section
/-! The encoding tables (rules R60 to R70, R93): each field of the decoder reads back the code the encoder writes, a record
is read off the front of a stream, and codes outside the tables are rejected; and obligations O1, O2, O3 and O4. -/

namespace Sys2Proof.Machine

open Sys2Proof.Safety

/-! ## The codes of the tables -/

/-- Every filter type is the one its code selects (rule R64). -/
@[simp] theorem decodeFilter_code (t : FilterType) : decodeFilter t.code = .ok t := by cases t <;> rfl

/-- Every depth is the one its number selects (rule R66). -/
@[simp] theorem decodeDepth_ofNat_bits (d : Depth) : decodeDepth (BitVec.ofNat 8 d.bits) = .ok d := by cases d <;> rfl

/-- Every interlace method is the one its code selects (rule R66). -/
@[simp] theorem decodeInterlace_code (m : InterlaceMode) : decodeInterlace m.code = .ok m := by cases m <;> rfl

/-- Only the code of a colour type selects it (rule R93). -/
theorem decodeColor_eq_some {ct : Byte} {c : ColorType} (h : decodeColor ct = some c) : ct = c.code := by
  unfold decodeColor at h
  iterate 5
    split at h
    · cases h; assumption
  cases h

/-- The depths allowed for a colour type are the numbers the table lists for its code (rule R93). -/
theorem mem_allowedDepths_iff (c : ColorType) (d : Depth) :
    d ∈ allowedDepths c ↔ d.bits ∈ allowedByCode c.code.toNat := by
  cases c <;> cases d <;> decide

/-! ## The fields of `FMT` -/

/-- The write of `FMT` drops none of the bits of its fields (rule R19). -/
theorem extractLsb'_fmtStored (fmt : Word) {start len : Nat} (h : start + len ≤ 25) :
    (fmtStored fmt).extractLsb' start len = fmt.extractLsb' start len := BitVec.extractLsb'_setWidth_of_le h

/-- A replaced depth field reads back, whatever the other fields hold (rules R19, R66). -/
theorem fmtBD_withDepthField (d : Depth) (fmt : Word) :
    fmtBD (fmtStored (withDepthField d fmt)) = BitVec.ofNat 8 d.bits := by
  have hcleared : (0xFFFFFF00#32).extractLsb' 0 8 = 0#8 := by decide
  have hcode : (BitVec.ofNat 32 d.bits).extractLsb' 0 8 = BitVec.ofNat 8 d.bits := by cases d <;> decide
  rw [fmtBD, extractLsb'_fmtStored _ (by decide), withDepthField, BitVec.extractLsb'_or, BitVec.extractLsb'_and,
    hcleared, hcode, BitVec.and_zero, BitVec.zero_or]

/-- A replaced interlace field reads back, whatever the other fields hold (rules R19, R66). -/
theorem fmtIL_withInterlaceField (m : InterlaceMode) (fmt : Word) :
    fmtIL (fmtStored (withInterlaceField m fmt)) = m.code := by
  have hcleared : (0xFF00FFFF#32).extractLsb' 16 8 = 0#8 := by decide
  have hcode : (m.code.setWidth 32 <<< 16).extractLsb' 16 8 = m.code := by cases m <;> decide
  rw [fmtIL, extractLsb'_fmtStored _ (by decide), withInterlaceField, BitVec.extractLsb'_or, BitVec.extractLsb'_and,
    hcleared, hcode, BitVec.and_zero, BitVec.zero_or]

/-! ## The places an instruction is fetched from -/

/-- The filter-type byte alone decides how a record with enough data is read, and the data is split off exactly (rules R63,
R70). -/
theorem decodeRecord_cons (ft : Byte) (filt rest : List Byte) :
    decodeRecord filt.length (ft :: (filt ++ rest)) = (decodeFilter ft).map fun t => (t.record filt, rest) := by
  have hlong : ¬ (filt ++ rest).length < filt.length := by simp
  cases hft : decodeFilter ft with
  | error r => simp only [decodeRecord, hft, Except.map]
  | ok t => simp only [decodeRecord, hft, hlong, if_false, List.take_left, List.drop_left, Except.map]

/-- What stands at a record's place is the record of its filter-type byte with the bytes after it (rules R63, R64). -/
theorem decode_record_cons (ft : Byte) (filt : List Byte) :
    decode (.record (ft :: filt)) = (decodeFilter ft).map (·.record filt) := by
  have h := decodeRecord_cons ft filt []
  rw [List.append_nil] at h
  rw [decode, List.length_cons, Nat.add_sub_cancel, h]
  cases decodeFilter ft <;> rfl

theorem decode_record_code (t : FilterType) (filt : List Byte) :
    decode (.record (t.code :: filt)) = .ok (t.record filt) := by
  rw [decode_record_cons, decodeFilter_code, Except.map]

theorem decode_depthField_withDepthField (d : Depth) (fmt : Word) :
    decode (.depthField (withDepthField d fmt)) = .ok d.mode := by
  rw [decode, fmtBD_withDepthField, decodeDepth_ofNat_bits, Except.map]

theorem decode_interlaceField_withInterlaceField (m : InterlaceMode) (fmt : Word) :
    decode (.interlaceField (withInterlaceField m fmt)) = .ok m.mode := by
  rw [decode, fmtIL_withInterlaceField, decodeInterlace_code, Except.map]

/-! ## Codes outside the tables (rule R69) -/

theorem decodeCommand_of_lt {v : Word} (h : 3 < v.toNat) : decodeCommand v = .error (.illegalCommand v) := by
  rw [decodeCommand, if_neg (by bv_omega), if_neg (by bv_omega), if_neg (by bv_omega), if_neg (by bv_omega)]

theorem decodeFilter_of_lt {ft : Byte} (h : 4 < ft.toNat) :
    decodeFilter ft = .error (.unsupportedFilterType ft) := by
  rw [decodeFilter, if_neg (by bv_omega), if_neg (by bv_omega), if_neg (by bv_omega), if_neg (by bv_omega),
    if_neg (by bv_omega)]

theorem decodeDepth_of_notMem {bd : Byte} (h : bd.toNat ∉ [1, 2, 4, 8, 16]) :
    decodeDepth bd = .error (.invalidBitDepth bd) := by
  simp only [List.mem_cons, List.not_mem_nil, or_false, not_or] at h
  rw [decodeDepth, if_neg (by bv_omega), if_neg (by bv_omega), if_neg (by bv_omega), if_neg (by bv_omega),
    if_neg (by bv_omega)]

theorem decodeInterlace_of_lt {il : Byte} (h : 1 < il.toNat) :
    decodeInterlace il = .error (.unsupportedInterlaceMethod il) := by
  rw [decodeInterlace, if_neg (by bv_omega), if_neg (by bv_omega)]

theorem decodeColor_of_notMem {ct : Byte} (h : ct.toNat ∉ [0, 2, 3, 4, 6]) : decodeColor ct = none := by
  cases hct : decodeColor ct with
  | none => rfl
  | some c =>
    rw [decodeColor_eq_some hct] at h
    exact absurd (by cases c <;> decide) h

/-- A depth that the table does not list for the colour type's code is not allowed (rule R93). -/
theorem depthAllowed_of_notMem {ct bd : Byte} {c : ColorType} (hct : decodeColor ct = some c)
    (h : bd.toNat ∉ allowedByCode ct.toNat) : depthAllowed c bd = false := by
  cases hbd : decodeDepth bd with
  | error r => simp only [depthAllowed, hbd]
  | ok d =>
    rw [decodeColor_eq_some hct, ← decodeDepth_bits hbd, ← mem_allowedDepths_iff] at h
    simp only [depthAllowed, hbd, h, decide_false]

/-! ## The obligations -/

/-- Settles O1: each field reads back, so the decoder meets the encoder at the place of each instruction. -/
theorem decodeUndoesEncode : Obligations.DecodeUndoesEncode := by
  intro fmt i
  cases i with
  | nop | reset | crcchk | decode => rfl
  | recNone filt => exact decode_record_code .none filt
  | recSub filt => exact decode_record_code .sub filt
  | recUp filt => exact decode_record_code .up filt
  | recAvg filt => exact decode_record_code .avg filt
  | recPaeth filt => exact decode_record_code .paeth filt
  | unpk1 => exact decode_depthField_withDepthField .d1 fmt
  | unpk2 => exact decode_depthField_withDepthField .d2 fmt
  | unpk4 => exact decode_depthField_withDepthField .d4 fmt
  | unpk8 => exact decode_depthField_withDepthField .d8 fmt
  | unpk16 => exact decode_depthField_withDepthField .d16 fmt
  | ilNone => exact decode_interlaceField_withInterlaceField .none fmt
  | ilAdam7 => exact decode_interlaceField_withInterlaceField .adam7 fmt

/-- Settles O2: the code of the filter type decodes to it, and the data is split off exactly. -/
theorem recordsFollowWithNoGap : Obligations.RecordsFollowWithNoGap := by
  intro t filt rest
  rw [decodeRecord_cons, decodeFilter_code, Except.map]

/-- Settles O3, table by table. -/
theorem illegalEncodingsAreRejected : Obligations.IllegalEncodingsAreRejected :=
  ⟨fun _ => decodeCommand_of_lt, fun _ => decodeFilter_of_lt, fun _ => decodeDepth_of_notMem,
    fun _ => decodeInterlace_of_lt, fun _ => decodeColor_of_notMem, fun _ _ _ => depthAllowed_of_notMem⟩

/-- Settles O4: each word is a closed value, which the decoder is run on. -/
theorem wordsOfTheTablesDecode : Obligations.WordsOfTheTablesDecode := by
  unfold Obligations.WordsOfTheTablesDecode
  decide

end Sys2Proof.Machine
end

section
/-! A step and the bits it fetches (rules R60, R90, R91, R105): what the decoder gives at a place is what the stage or the
host's transaction there runs; and obligation O34. -/

namespace Sys2Proof.Machine

/-- What decodes by way of a field's code decodes its code. -/
theorem exists_ok_of_map_eq_ok {α β ε : Type} {f : α → β} {code : Except ε α} {i : β} (h : code.map f = .ok i) :
    ∃ x, code = .ok x ∧ i = f x := by
  cases code with
  | error r => cases h
  | ok x => cases h; exact ⟨x, rfl, rfl⟩

/-- Inside a DECODE a step runs the operation its stage fetches, as the instruction it is. -/
theorem step_of_fetchStage_run {s u : State} {op : DatapathOp} (hbusy : s.pipe.stage ≠ .idle)
    (h : fetchStage s = .run op u) : step s = onNext (exec op.instr u) settle := by
  simp only [step_of_busy hbusy, stageStep, h, exec_instr]

theorem fetchStage_passes {s : State} {m : InterlaceMode} (hg : s.pipe.stage = .passes)
    (hm : decodeInterlace s.pipe.latch.il = .ok m) : fetchStage s = .run (.interlace m) s := by
  simp only [fetchStage, hg, hm]

theorem fetchStage_unpack {s : State} {d : Depth} (hg : s.pipe.stage = .unpack)
    (hd : decodeDepth s.pipe.latch.bd = .ok d) : fetchStage s = .run (.unpack d) s := by
  simp only [fetchStage, hg, hd]

/-- A record that stands whole below `SLEN` is fetched once `ROW` is set (rule R105). -/
theorem fetchStage_record {s : State} {t : FilterType} (hg : s.pipe.stage = .record)
    (hwhole : s.regs.spos.toNat + 1 + rowStride s ≤ s.pipe.latch.n.toNat)
    (hft : decodeFilter (readByte s.src s.regs.spos.toNat) = .ok t) :
    fetchStage s = .run (.filter t (recordData s)) (beginRecord s) := by
  have hend : ¬ s.pipe.latch.n.toNat ≤ s.regs.spos.toNat := by omega
  have hdata : ¬ s.pipe.latch.n.toNat - s.regs.spos.toNat - 1 < rowStride s := by omega
  simp only [fetchStage, hg, fetchRecord]
  exact fetchAt_of_whole (s := beginRecord s) hend hft hdata

/-- Settles O34, place by place. -/
theorem stepRunsTheDecodedInstruction : Obligations.StepRunsTheDecodedInstruction := by
  refine ⟨fun s v rest i hg hp h => step_of_command hg hp h, fun s i hg hwhole h => ?record,
    fun s fmt i hg hfmt h => ?depth, fun s fmt i hg hfmt h => ?interlace⟩
  case record =>
    rw [Nat.add_comm 1, readBytes, decode_record_cons] at h
    obtain ⟨t, hft, rfl⟩ := exists_ok_of_map_eq_ok h
    exact step_of_fetchStage_run (by simp [hg]) (fetchStage_record hg hwhole hft)
  case depth =>
    obtain ⟨d, hd, rfl⟩ := exists_ok_of_map_eq_ok h
    exact step_of_fetchStage_run (by simp [hg]) (fetchStage_unpack hg (hfmt ▸ hd))
  case interlace =>
    obtain ⟨m, hm, rfl⟩ := exists_ok_of_map_eq_ok h
    exact step_of_fetchStage_run (by simp [hg]) (fetchStage_passes hg (hfmt ▸ hm))

end Sys2Proof.Machine
end

section
/-! CRCCHK on an encoded chunk (rules R65, R71, R84, R86): the four fields of the record stand at their offsets, so the
check reads what the encoder wrote; and obligation O22. -/

namespace Sys2Proof.Machine

/-- Bytes read in two parts. -/
theorem readBytes_add (m : Memory) (a n k : Nat) :
    readBytes m a (n + k) = readBytes m a n ++ readBytes m (a + n) k := by
  induction n generalizing a with
  | zero => simp [readBytes]
  | succ n ih => simp [Nat.add_right_comm n 1 k, readBytes, ih, Nat.add_assoc, Nat.add_comm 1 n]

/-- A list that stands in memory stands there part by part. -/
theorem readBytes_eq_append {m : Memory} {a n k : Nat} {front back : List Byte} (hn : front.length = n)
    (h : readBytes m a (n + k) = front ++ back) : readBytes m a n = front ∧ readBytes m (a + n) k = back := by
  rw [readBytes_add] at h
  exact List.append_inj h (by rw [readBytes_length, hn])

@[simp] theorem be32Bytes_length (v : Word) : (be32Bytes v).length = 4 := rfl

/-- `be32` undoes `be32Bytes` on exactly four bytes (rule R8). -/
theorem be32List_of_eq_be32Bytes {bytes : List Byte} {v : Word} (h : bytes = be32Bytes v) : be32List bytes = v := by
  rw [h, ← List.append_nil (be32Bytes v), be32List_be32Bytes]

/-- The fields of a chunk record stand at their offsets from address `p` (rules R65, R71). -/
structure ChunkAt (m : Memory) (p : Nat) (type : Word) (payload : List Byte) : Prop where
  lengthField : readBytes m p 4 = be32Bytes (BitVec.ofNat 32 payload.length)
  typeField : readBytes m (p + 4) 4 = be32Bytes type
  covered : readBytes m (p + 4) (4 + payload.length) = be32Bytes type ++ payload
  crcField : readBytes m (p + 8 + payload.length) 4 = be32Bytes (crc32 (be32Bytes type ++ payload))

/-- An encoded chunk that stands at an address stands there field by field. -/
theorem chunkAt_of_encodeChunk {m : Memory} {p : Nat} {type : Word} {payload : List Byte}
    (h : readBytes m p (12 + payload.length) = encodeChunk type payload) : ChunkAt m p type payload := by
  have hsize : 12 + payload.length = 4 + ((4 + payload.length) + 4) := by omega
  have hcrcAt : p + 4 + (4 + payload.length) = p + 8 + payload.length := by omega
  have hcovered : (be32Bytes type ++ payload).length = 4 + payload.length := by simp
  rw [hsize, encodeChunk, List.append_assoc, List.append_assoc, ← List.append_assoc (be32Bytes type)] at h
  obtain ⟨hlength, hrest⟩ := readBytes_eq_append (be32Bytes_length _) h
  obtain ⟨hbody, hcrc⟩ := readBytes_eq_append hcovered hrest
  exact ⟨hlength, (readBytes_eq_append (be32Bytes_length _) hbody).1, hbody, hcrcAt ▸ hcrc⟩

/-- A record that fits and whose CRC agrees is accepted (rule R86). -/
theorem checkChunk_of_good {s : State} (hfits : chunkFits s = true)
    (hcrc : (captureChunk s).regs.ccrc = (captureChunk s).regs.cstored) :
    checkChunk s = acceptChunk (captureChunk s) := by
  simp only [checkChunk, hfits, judgeChunk, hcrc, if_true]

section Encoded

variable {s : State} {type : Word} {payload : List Byte} (h : ChunkAt s.chk s.regs.cpos.toNat type payload)

include h

theorem chunkLength_of_chunkAt : chunkLength s = BitVec.ofNat 32 payload.length :=
  be32List_of_eq_be32Bytes h.lengthField

theorem captureChunk_ctype_of_chunkAt : (captureChunk s).regs.ctype = type := be32List_of_eq_be32Bytes h.typeField

variable (hroom : s.regs.cpos.toNat + 12 + payload.length ≤ s.regs.clen.toNat)

include hroom

/-- A chunk that stands whole below `CLEN` has a length that its field can hold. -/
theorem chunkLength_toNat_of_chunkAt : (chunkLength s).toNat = payload.length := by
  rw [chunkLength_of_chunkAt h, BitVec.toNat_ofNat, Nat.mod_eq_of_lt (by omega)]

/-- Both CRC latches take the encoder's CRC (rules R81, R85). -/
theorem captureChunk_crcs_of_chunkAt :
    (captureChunk s).regs.ccrc = crc32 (be32Bytes type ++ payload) ∧
      (captureChunk s).regs.cstored = crc32 (be32Bytes type ++ payload) := by
  have hlength := chunkLength_toNat_of_chunkAt h hroom
  refine ⟨?_, ?_⟩
  · rw [captureChunk_regs, crc32, ← h.covered, chunkAcc, hlength]
  · rw [captureChunk_regs, hlength]
    exact be32List_of_eq_be32Bytes h.crcField

/-- The check of an encoded chunk accepts it (rule R86). -/
theorem checkChunk_of_chunkAt : checkChunk s = acceptChunk (captureChunk s) := by
  have hlength := chunkLength_toNat_of_chunkAt h hroom
  obtain ⟨hccrc, hcstored⟩ := captureChunk_crcs_of_chunkAt h hroom
  exact checkChunk_of_good ((chunkFits_iff s).mpr (by omega)) (hccrc.trans hcstored.symm)

/-- The cursor steps over the record without wrapping (rule R86). -/
theorem acceptChunk_cpos_of_chunkAt :
    (acceptChunk (captureChunk s)).regs.cpos.toNat = s.regs.cpos.toNat + 12 + payload.length := by
  have hlength := chunkLength_toNat_of_chunkAt h hroom
  simp only [acceptChunk_regs, captureChunk_regs]
  bv_omega

end Encoded

/-- Settles O22: the record's fields are those the encoder wrote, so the check goes to its accepting case. -/
theorem crcchkAcceptsEncodedChunks : Obligations.CrcchkAcceptsEncodedChunks := by
  intro s type payload hf hbytes hroom
  have hchunk : ChunkAt (startCrcchk s).chk (startCrcchk s).regs.cpos.toNat type payload :=
    chunkAt_of_encodeChunk hbytes
  have hrun : exec .crcchk s = .next (acceptChunk (captureChunk (startCrcchk s))) := by
    rw [← checkChunk_of_chunkAt hchunk hroom]
    simp only [exec, execCrcchk, hf, Bool.false_eq_true, if_false]
  exact ⟨_, hrun, rfl, hf, captureChunk_ctype_of_chunkAt hchunk, chunkLength_toNat_of_chunkAt hchunk hroom,
    acceptChunk_cpos_of_chunkAt hchunk hroom⟩

end Sys2Proof.Machine
end

section
/-! The table form of the CRC (rule R81): the bit steps are linear, and a word whose low bits are clear is only shifted;
and obligation O17. -/

namespace Sys2Proof.Machine

/-- As long as the bits shifted out are 0 the polynomial does not come in. -/
theorem crcBits_of_low_clear (k : Nat) (x : Word) (h : ∀ i < k, x.getLsbD i = false) : crcBits k x = x >>> k := by
  induction k generalizing x with
  | zero => rfl
  | succ k ih =>
    have hbit : crcBit x = x >>> 1 := by simp only [crcBit, h 0 (by omega), Bool.false_eq_true, if_false]
    have hlow : ∀ i < k, (x >>> 1).getLsbD i = false := fun i hi => by
      rw [BitVec.getLsbD_ushiftRight]
      exact h (1 + i) (by omega)
    rw [crcBits, hbit, ih _ hlow, ← BitVec.shiftRight_add, Nat.add_comm 1 k]

theorem byteMask_getLsbD (i : Nat) : (0xFF#32).getLsbD i = decide (i < 8) := by
  rw [BitVec.getLsbD_ofNat, Nat.testBit_two_pow_sub_one 8 i]
  by_cases hi : i < 8
  · simp [hi, show i < 32 by omega]
  · simp [hi]

/-- A word is its low byte and the rest. -/
theorem xor_low_high (x : Word) : (x &&& 0xFF#32) ^^^ (x >>> 8 <<< 8) = x := by
  apply BitVec.eq_of_getLsbD_eq
  intro i hi
  rw [BitVec.getLsbD_xor, BitVec.getLsbD_and, byteMask_getLsbD, BitVec.getLsbD_shiftLeft, BitVec.getLsbD_ushiftRight]
  by_cases h8 : i < 8
  · simp [h8]
  · simp [h8, hi, show 8 + (i - 8) = i by omega]

theorem high_shiftRight (x : Word) : x >>> 8 <<< 8 >>> 8 = x >>> 8 := by
  apply BitVec.eq_of_getLsbD_eq
  intro i _
  simp only [BitVec.getLsbD_ushiftRight, BitVec.getLsbD_shiftLeft]
  by_cases h32 : 8 + i < 32
  · simp [h32]
  · simp [h32, BitVec.getLsbD_of_ge x (8 + i) (by omega)]

/-- Eight bit steps by the table: `T` of the low byte, xor the rest shifted down (rule R81). -/
theorem crcBits_eight (x : Word) : crcBits 8 x = crcBits 8 (x &&& 0xFF#32) ^^^ (x >>> 8) := by
  have hclear : ∀ i < 8, (x >>> 8 <<< 8).getLsbD i = false := fun i hi => by
    simp only [BitVec.getLsbD_shiftLeft, hi, decide_true, Bool.not_true, Bool.and_false, Bool.false_and]
  calc crcBits 8 x
      = crcBits 8 (x &&& 0xFF#32) ^^^ crcBits 8 (x >>> 8 <<< 8) := by rw [← crcBits_xor, xor_low_high]
    _ = crcBits 8 (x &&& 0xFF#32) ^^^ (x >>> 8) := by rw [crcBits_of_low_clear 8 _ hclear, high_shiftRight]

/-- A data byte reaches the low eight bits only. -/
theorem xor_byte_shiftRight (acc : Word) (d : Byte) : (acc ^^^ d.setWidth 32) >>> 8 = acc >>> 8 := by
  rw [BitVec.ushiftRight_xor_distrib]
  ext i hi
  simp

/-- Settles O17: the table form by linearity of the bit steps, the check values by running the function. -/
theorem crcHasItsTableForm : Obligations.CrcHasItsTableForm := by
  refine ⟨fun acc d => ?_, ?_, ?_, ?_, ?_, ?_, ?_⟩
  · rw [crcByte, crcBits_eight, xor_byte_shiftRight]
  all_goals decide +kernel

end Sys2Proof.Machine
end

section
/-! CRCCHK (rules R82 to R86): the command's run in each case of the check, and its frame; and obligations O18, O19, O20
and O21. -/

namespace Sys2Proof.Machine

open Sys2Proof.Safety

section Runs

variable {s : State}

theorem execCrcchk_of_ready (hf : s.regs.fault = false) : execCrcchk s = .next (checkChunk (startCrcchk s)) := by
  simp only [execCrcchk, hf, Bool.false_eq_true, if_false]

/-- A CRCCHK does nothing in the faulted state, else the check of the record (rule R82). -/
theorem execCrcchk_cases {t : State} (h : execCrcchk s = .next t) :
    (s.regs.fault = true ∧ t = s) ∨ (s.regs.fault = false ∧ t = checkChunk (startCrcchk s)) := by
  cases hf : s.regs.fault with
  | true =>
    simp only [execCrcchk, hf, if_true] at h
    cases h
    exact .inl ⟨rfl, rfl⟩
  | false =>
    cases (execCrcchk_of_ready hf).symm.trans h
    exact .inr ⟨rfl, rfl⟩

/-- CRCCHK leaves everything outside the block as it was (rule R82). -/
theorem execCrcchk_outsideKept {t : State} (h : execCrcchk s = .next t) : OutsideKept s t := by
  rcases execCrcchk_cases h with ⟨-, rfl⟩ | ⟨-, rfl⟩
  · exact ⟨rfl, rfl, rfl, rfl, rfl, rfl, rfl⟩
  · rcases checkChunk_cases (startCrcchk s) with ⟨-, he⟩ | ⟨-, -, he⟩ | ⟨-, -, he⟩ <;> rw [he] <;>
      exact ⟨rfl, rfl, rfl, rfl, rfl, rfl, rfl⟩

section Ready

variable (hf : s.regs.fault = false)

include hf

/-- A record that does not fit ends the command by `TruncatedChunk` (rule R83). -/
theorem execCrcchk_of_truncated (hfits : chunkFits (startCrcchk s) = false) :
    execCrcchk s = .next (raise .truncatedChunk s.regs.cpos (startCrcchk s)) := by
  rw [execCrcchk_of_ready hf, checkChunk, hfits, if_neg Bool.false_ne_true]
  rfl

/-- A record that fits and whose CRC differs ends it by `CrcMismatch` (rule R85). -/
theorem execCrcchk_of_mismatch (hfits : chunkFits (startCrcchk s) = true)
    (hcrc : (captureChunk (startCrcchk s)).regs.ccrc ≠ (captureChunk (startCrcchk s)).regs.cstored) :
    execCrcchk s = .next (raise .crcMismatch (captureChunk (startCrcchk s)).regs.ccrc
      (captureChunk (startCrcchk s))) := by
  rw [execCrcchk_of_ready hf, checkChunk, hfits, if_pos rfl, judgeChunk, if_neg hcrc]

/-- A record that fits and whose CRC agrees is accepted (rule R86). -/
theorem execCrcchk_of_good (hfits : chunkFits (startCrcchk s) = true)
    (hcrc : (captureChunk (startCrcchk s)).regs.ccrc = (captureChunk (startCrcchk s)).regs.cstored) :
    execCrcchk s = .next (acceptChunk (captureChunk (startCrcchk s))) := by
  rw [execCrcchk_of_ready hf, checkChunk_of_good hfits hcrc]

end Ready

end Runs

/-- Settles O18: the naturals of the statement are those of the truncation test, so the check ends by its first fault. -/
theorem crcchkFaultsOnTruncation : Obligations.CrcchkFaultsOnTruncation := by
  intro s hf p n hshort
  have hfits : chunkFits (startCrcchk s) = false := by
    rw [Bool.eq_false_iff, Ne, chunkFits_iff]
    show ¬ p + 12 + (be32List (readBytes s.chk p 4)).toNat ≤ n
    omega
  have hrun := execCrcchk_of_truncated hf hfits
  exact ⟨_, hrun, rfl, execCrcchk_outsideKept hrun, rfl⟩

/-- Settles O19: the check captures the fields, and ends by its second fault. -/
theorem crcchkFaultsOnMismatch : Obligations.CrcchkFaultsOnMismatch := by
  intro s hf p len crc stored hroom hcrc
  have hfits : chunkFits (startCrcchk s) = true := (chunkFits_iff _).mpr hroom
  have hrun := execCrcchk_of_mismatch hf hfits hcrc
  exact ⟨_, hrun, rfl, execCrcchk_outsideKept hrun, rfl⟩

/-- Settles O20: the check accepts the record, and the cursor ends at most at `CLEN`, which a word holds. -/
theorem crcchkStepsOverAGoodRecord : Obligations.CrcchkStepsOverAGoodRecord := by
  intro s hf p len crc stored hroom hcrc
  have hfits : chunkFits (startCrcchk s) = true := (chunkFits_iff _).mpr hroom
  have hrun := execCrcchk_of_good hf hfits hcrc
  have hcpos : s.regs.cpos + 12#32 + len = BitVec.ofNat 32 (p + 12 + len.toNat) := by
    simp only [p, BitVec.ofNat_add, BitVec.ofNat_toNat, BitVec.setWidth_eq]
  have hbound : p + 12 + len.toNat < 2 ^ 32 := hroom.trans_lt s.regs.clen.isLt
  refine ⟨_, hrun, ?_, ?_, execCrcchk_outsideKept hrun, rfl⟩
  · rw [← hcpos]
    rfl
  · show (s.regs.cpos + 12#32 + len).toNat = _
    rw [hcpos, BitVec.toNat_ofNat, Nat.mod_eq_of_lt hbound]

/-- Settles O21: each end of the command, against the registers it writes. -/
theorem crcchkWritesItsOwnRegistersOnly : Obligations.CrcchkWritesItsOwnRegistersOnly := by
  intro s t h
  refine ⟨execCrcchk_outsideKept h, ?_⟩
  rcases execCrcchk_cases h with ⟨-, rfl⟩ | ⟨hf, rfl⟩
  · exact ⟨rfl, fun _ => ⟨rfl, rfl⟩, rfl⟩
  · have hraised : true ≠ s.regs.fault := by simp [hf]
    rcases checkChunk_cases (startCrcchk s) with ⟨-, he⟩ | ⟨-, -, he⟩ | ⟨-, -, he⟩ <;> rw [he]
    · exact ⟨rfl, fun hkept => absurd hkept hraised, rfl⟩
    · exact ⟨rfl, fun hkept => absurd hkept hraised, rfl⟩
    · exact ⟨rfl, fun _ => ⟨rfl, rfl⟩, rfl⟩

end Sys2Proof.Machine
end

section
/-! The stages of a DECODE in progress, as one inversion (rules R91, R105), and the passes that have no record (rule
R133); and obligation O36. -/

namespace Sys2Proof.Machine

open Sys2Proof.Safety

/-- The tests of a record that fail, in their order, each with its cause and info word (rules R105, R117). -/
inductive RecordFault (s : State) : Cause → Word → Prop where
  | noType (ended : s.pipe.latch.n.toNat ≤ s.regs.spos.toNat) : RecordFault s .streamUnderrun s.regs.spos
  | badType {r : Reject} (more : ¬ s.pipe.latch.n.toNat ≤ s.regs.spos.toNat)
    (type : decodeFilter (readByte s.src s.regs.spos.toNat) = .error r) :
    RecordFault s .unsupportedFilterType ((readByte s.src s.regs.spos.toNat).setWidth 32)
  | shortData {t : FilterType} (more : ¬ s.pipe.latch.n.toNat ≤ s.regs.spos.toNat)
    (type : decodeFilter (readByte s.src s.regs.spos.toNat) = .ok t)
    (short : s.pipe.latch.n.toNat - s.regs.spos.toNat - 1 < rowStride s) :
    RecordFault s .streamUnderrun s.regs.spos

/-- What a stage of a sound DECODE does, stage by stage (rules R91, R105). -/
inductive StageMove (s : State) : State → Prop where
  | loadsPasses {m : InterlaceMode} (stage : s.pipe.stage = .passes)
    (mode : decodeInterlace s.pipe.latch.il = .ok m) : StageMove s (nextPass (passList m) (loadPasses m s))
  | recordFaults {cause : Cause} {v : Word} (stage : s.pipe.stage = .record) (fault : RecordFault s cause v) :
    StageMove s (raiseInRecord cause v (beginRecord s))
  | reconstructs {t : FilterType} (stage : s.pipe.stage = .record) (whole : RecordFits s)
    (type : decodeFilter (readByte s.src s.regs.spos.toNat) = .ok t) :
    StageMove s
      { s with
        regs := { s.regs with row := BitVec.ofNat 32 s.pipe.py }
        pipe :=
          { s.pipe with
            bitCursor := ⟨0, 0⟩
            cur := unfilter t (pixelBytes s) s.pipe.prev (recordData s)
            stage := .unpack } }
  | paletteFaults {d : Depth} {v : Sample} (stage : s.pipe.stage = .unpack)
    (depth : decodeDepth s.pipe.latch.bd = .ok d)
    (offender : paletteOffender s (unpackLine d.bits (rowSamples s) s.pipe.cur) = some v) :
    StageMove s (raiseInRecord .paletteIndexOutOfRange (v.setWidth 32) s)
  | unpacks {d : Depth} (stage : s.pipe.stage = .unpack) (depth : decodeDepth s.pipe.latch.bd = .ok d)
    (inside : paletteOffender s (unpackLine d.bits (rowSamples s) s.pipe.cur) = none) :
    StageMove s
      { s with
        pipe :=
          { s.pipe with
            samples := unpackLine d.bits (rowSamples s) s.pipe.cur
            bitCursor := cursorAt d.bits (rowSamples s)
            stage := .place } }
  | places (stage : s.pipe.stage = .place) : StageMove s (placeRecord s)

/-- A DECODE in progress has a legal configuration, and neither flag of its end is set (rules R91, R94). -/
theorem stageSound_of_busy {s : State} (hi : s.pipe.stage ≠ .idle) (hs : StageSound s) :
    s.regs.done = false ∧ s.regs.fault = false ∧ Configured s := by
  cases hg : s.pipe.stage <;> simp only [StageSound, hg] at hs
  case idle => exact absurd hg hi
  all_goals exact ⟨hs.1, hs.2.1, hs.2.2.1⟩

/-- A record is fetched whole, or one of its tests fails (rule R105). -/
theorem stageMove_of_record {s t : State} (hg : s.pipe.stage = .record) (hf : s.regs.fault = false)
    (h : stageStep s = .next t) : StageMove s t := by
  have hfetch : fetchStage s = fetchAt (beginRecord s) := by simp only [fetchStage, hg, fetchRecord]
  simp only [stageStep, hfetch] at h
  by_cases hend : s.pipe.latch.n.toNat ≤ s.regs.spos.toNat
  · rw [fetchAt_of_end (s := beginRecord s) hend] at h
    cases h
    exact .recordFaults hg (.noType hend)
  cases hft : decodeFilter (readByte s.src s.regs.spos.toNat) with
  | error r =>
    rw [fetchAt_of_illegal (s := beginRecord s) hend hft] at h
    cases h
    exact .recordFaults hg (.badType hend hft)
  | ok ft =>
    by_cases hshort : s.pipe.latch.n.toNat - s.regs.spos.toNat - 1 < rowStride s
    · rw [fetchAt_of_short (s := beginRecord s) hend hft hshort] at h
      cases h
      exact .recordFaults hg (.shortData hend hft hshort)
    · rw [fetchAt_of_whole (s := beginRecord s) hend hft hshort] at h
      simp only [runOp_filter, onNext] at h
      rw [settle_record (by exact hf) (by exact hg)] at h
      cases h
      exact .reconstructs hg (by unfold RecordFits; omega) hft

/-- Everything a stage of a sound DECODE can do (rules R91, R105). -/
theorem stageMove_of_sound {s t : State} (hi : s.pipe.stage ≠ .idle) (hs : StageSound s)
    (h : stageStep s = .next t) : StageMove s t := by
  obtain ⟨-, hf, hconf⟩ := stageSound_of_busy hi hs
  cases hg : s.pipe.stage with
  | idle => exact absurd hg hi
  | passes =>
    obtain ⟨m, hm⟩ := decodeInterlace_of_configCheck hconf
    cases (stageStep_passes hg hm).symm.trans h
    rw [settle_passes (by exact hf) (by exact hg)]
    exact .loadsPasses hg hm
  | record => exact stageMove_of_record hg hf h
  | unpack =>
    obtain ⟨d, hd⟩ := decodeDepth_of_configCheck hconf
    cases (stageStep_unpack hg hd).symm.trans h
    rcases unpackRow_cases d s with ⟨v, hv, he⟩ | ⟨hv, he⟩ <;> rw [he]
    · rw [settle_of_fault rfl]
      exact .paletteFaults hg hd hv
    · rw [settle_unpack (by exact hf) (by exact hg)]
      exact .unpacks hg hd hv
  | place =>
    cases (stageStep_place hg).symm.trans h
    exact .places hg

/-! ## Skipped passes -/

theorem skipped_eq_true {s : State} {p : Pass} :
    skipped s p = true ↔ passWidth s.pipe.latch.w.toNat p = 0 ∨ passHeight s.pipe.latch.h.toNat p = 0 := by
  simp [skipped]

/-- The move to the next pass goes over skipped passes (rule R133). -/
theorem nextPass_append_of_skipped {s : State} {before : List Pass} (h : ∀ q ∈ before, skipped s q = true)
    (ps : List Pass) : nextPass (before ++ ps) s = nextPass ps s := by
  induction before with
  | nil => rfl
  | cons q before ih =>
    obtain ⟨hq, hbefore⟩ := List.forall_mem_cons.mp h
    rw [List.cons_append, nextPass, if_pos hq, ih hbefore]

theorem nextPass_cons_of_entered {s : State} {p : Pass} (h : skipped s p = false) (rest : List Pass) :
    nextPass (p :: rest) s = enterPass p rest s := by rw [nextPass, if_neg (by simp [h])]

/-- Settles O36: the skipped passes drop out; then the DECODE ends, or the pass is entered. -/
theorem emptyPassesAreSkipped : Obligations.EmptyPassesAreSkipped := by
  intro s before p rest hbefore
  have hskip : ∀ q ∈ before, skipped s q = true := fun q hq => skipped_eq_true.mpr (hbefore q hq)
  refine ⟨⟨(finishDecode s).pipe, (finishDecode s).unspec, ?_, rfl⟩, fun hw hh => ?_⟩
  · rw [← List.append_nil before, nextPass_append_of_skipped hskip]
    rfl
  · rw [nextPass_append_of_skipped hskip, nextPass_cons_of_entered (skipped_eq_false.mpr ⟨hw, hh⟩)]
    rfl

end Sys2Proof.Machine
end

section
/-! How a DECODE ends (rules R97, R101, R182), the dispatch of a command word (rule R90), RESET and NOP (rules R98,
R99); and obligations O25, O13, O59, O9 and O12. -/

namespace Sys2Proof.Machine

open Sys2Proof.Safety

/-! ## The end of a DECODE -/

/-- A DECODE has ended, with `DONE` or with a fault of its own (rules R97, R141, R182). -/
def DecodeEnded (r : Regs) : Prop :=
  (r.done = true ∧ r.fault = false) ∨
    (r.done = false ∧ r.fault = true ∧ 3 ≤ r.fcode.toNat ∧ r.fcode.toNat ≤ 11)

/-- A cause that a DECODE can raise (rule R141). -/
abbrev Cause.OfDecode (c : Cause) : Prop := 3 ≤ (causeCode c).toNat ∧ (causeCode c).toNat ≤ 11

theorem decodeEnded_raise {c : Cause} {v : Word} {s : State} (hc : c.OfDecode) (hd : s.regs.done = false) :
    DecodeEnded (raise c v s).regs := .inr ⟨hd, rfl, hc⟩

/-- The causes of the configuration check (rules R94, R95). -/
theorem ofDecode_of_configCheck {p : Params} {l : Latch} {c : Cause} {v : Word}
    (h : configCheck p l = .error (c, v)) : c.OfDecode := by
  unfold configCheck at h
  split at h
  · cases h
    decide
  · iterate 7
      split at h
      · cases h
        decide
    cases h

theorem RecordFault.ofDecode {s : State} {c : Cause} {v : Word} (h : RecordFault s c v) : c.OfDecode := by
  cases h <;> decide

theorem nextPass_ended {l : List Pass} {s : State} (hf : s.regs.fault = false)
    (hi : (nextPass l s).pipe.stage = .idle) : DecodeEnded (nextPass l s).regs := by
  rcases nextPass_cases l s with ⟨_, p, rest, -, -, -, he⟩ | ⟨-, he⟩ <;> rw [he] at hi ⊢
  · cases hi
  · exact .inl ⟨rfl, hf⟩

theorem placeRecord_ended {s : State} (hf : s.regs.fault = false) (hi : (placeRecord s).pipe.stage = .idle) :
    DecodeEnded (placeRecord s).regs := by
  unfold placeRecord nextRow at hi ⊢
  split at hi
  · cases hi
  · rename_i hlast
    rw [if_neg hlast]
    exact nextPass_ended (by simpa using hf) hi

/-- A stage after which no command is in progress has ended the DECODE in one of its two ways. -/
theorem stageStep_ended {s t : State} (hi : s.pipe.stage ≠ .idle) (hs : StageSound s) (h : stageStep s = .next t)
    (ht : t.pipe.stage = .idle) : DecodeEnded t.regs := by
  obtain ⟨hd, hf, -⟩ := stageSound_of_busy hi hs
  cases stageMove_of_sound hi hs h with
  | loadsPasses => exact nextPass_ended hf ht
  | recordFaults _ hfault => exact decodeEnded_raise hfault.ofDecode hd
  | reconstructs => cases ht
  | paletteFaults => exact decodeEnded_raise (c := .paletteIndexOutOfRange) (by decide) hd
  | unpacks => cases ht
  | places => exact placeRecord_ended hf ht

/-- A DECODE whose configuration fails the check ends there (rule R94). -/
theorem execDecode_of_rejected {s : State} {c : Cause} {v : Word} (hf : s.regs.fault = false)
    (hc : configCheck s.params (latchOf s.regs) = .error (c, v)) :
    execDecode s = .next (raise c v (latchOperands s)) := by
  rw [execDecode_of_ready hf]
  simp only [startDecode, hc]
  rfl

theorem execDecode_of_fault {s : State} (hf : s.regs.fault = true) : execDecode s = .next s := by
  simp only [execDecode, hf, if_true]

/-- A DECODE that is not ignored ends, and the block is idle again (rules R97, R101). -/
theorem execDecode_ended {s : State} (hf : s.regs.fault = false) :
    ∃ t, execDecode s = .next t ∧ t.pipe.stage = .idle ∧ DecodeEnded t.regs := by
  cases hc : configCheck s.params (latchOf s.regs) with
  | error e =>
    exact ⟨_, execDecode_of_rejected hf hc, rfl, decodeEnded_raise (ofDecode_of_configCheck hc) rfl⟩
  | ok c =>
    have hstart := startDecode_of_ok hc
    obtain ⟨t, ht⟩ := execDecode_next s
    obtain ⟨hended, -, hidle⟩ := execDecode_keeps (P := fun u => u.pipe.stage = .idle → DecodeEnded u.regs)
      (fun _ _ hi hs _ hstep => stageStep_ended hi hs hstep) hf (hstart ▸ initCursors_sound hf hc)
      (by rw [hstart]; exact fun hidle => by cases hidle) ht
    exact ⟨t, ht, hidle, hended hidle⟩

/-- Settles O25: an ignored DECODE changes nothing, any other ends in one of the two ways. -/
theorem decodeAlwaysEnds : Obligations.DecodeAlwaysEnds := by
  intro s
  cases hf : s.regs.fault with
  | true => exact ⟨s, execDecode_of_fault hf, .inl ⟨rfl, rfl⟩⟩
  | false =>
    obtain ⟨t, ht, hidle, hended⟩ := execDecode_ended hf
    exact ⟨t, ht, .inr ⟨rfl, hidle, hended⟩⟩

/-! ## The dispatch of a command word -/

/-- Every command ends with the block idle and takes none of the host's actions (rules R90, R101). -/
theorem exec_of_command {v : Word} {i : Instr} {s : State} (hv : decodeCommand v = .ok i)
    (hi : s.pipe.stage = .idle) : ∃ t, exec i s = .next t ∧ t.pipe.stage = .idle ∧ t.pending = s.pending := by
  rcases decodeCommand_ok hv with ⟨-, rfl⟩ | ⟨-, rfl⟩ | ⟨-, rfl⟩ | ⟨-, rfl⟩
  · exact ⟨s, rfl, hi, rfl⟩
  · exact ⟨resetBlock s, rfl, rfl, rfl⟩
  · obtain ⟨t, ht⟩ := execCrcchk_next s
    refine ⟨t, ht, ?_, (execCrcchk_outsideKept ht).pending⟩
    rcases execCrcchk_cases ht with ⟨-, rfl⟩ | ⟨-, rfl⟩
    · exact hi
    · obtain ⟨-, -, -, hidle⟩ := checkChunk_flags (startCrcchk s)
      exact hidle hi
  · cases hf : s.regs.fault with
    | true => exact ⟨s, execDecode_of_fault hf, hi, rfl⟩
    | false =>
      obtain ⟨t, ht, hidle, -⟩ := execDecode_ended hf
      exact ⟨t, ht, hidle, (execDecode_decodeKeeps ht).pending⟩

/-- The write of a command word is the command, for nothing is left of it to do after it (rule R90). -/
theorem step_eq_exec {s : State} {v : Word} {rest : List HostAction} {i : Instr} (hi : s.pipe.stage = .idle)
    (hp : s.pending = .regWrite 1 v :: rest) (hv : decodeCommand v = .ok i) :
    step s = exec i { s with pending := rest } := by
  obtain ⟨t, ht, hidle, -⟩ := exec_of_command (s := { s with pending := rest }) hv hi
  rw [step_of_command hi hp hv, ht, onNext, settle_idle hidle]

/-- In the faulted state a command other than RESET changes nothing (rules R90, R144). -/
theorem exec_of_fault {v : Word} {i : Instr} {s : State} (hv : decodeCommand v = .ok i) (hreset : v ≠ 1)
    (hf : s.regs.fault = true) : exec i s = .next s := by
  rcases decodeCommand_ok hv with ⟨-, rfl⟩ | ⟨rfl, -⟩ | ⟨-, rfl⟩ | ⟨-, rfl⟩
  · rfl
  · exact absurd rfl hreset
  · show execCrcchk s = _
    rw [execCrcchk, if_pos hf]
  · exact execDecode_of_fault hf

/-- A write of `CMD` answers, and leaves the block idle with the write taken (rules R11, R90). -/
theorem step_of_cmdWrite {s : State} {v : Word} {rest : List HostAction} (hi : s.pipe.stage = .idle)
    (hp : s.pending = .regWrite 1 v :: rest) :
    ∃ t, step s = .next t ∧ t.pipe.stage = .idle ∧ t.pending = rest := by
  cases hv : decodeCommand v with
  | ok i =>
    rw [step_eq_exec hi hp hv]
    exact exec_of_command (s := { s with pending := rest }) hv hi
  | error r =>
    refine ⟨_, step_of_illegal hi hp hv, ?_⟩
    unfold illegalCommand
    split
    · exact ⟨hi, rfl⟩
    · exact ⟨rfl, rfl⟩

/-- Settles O13: a word of the table runs its command, any other is the illegal command. -/
theorem commandWordsDispatch : Obligations.CommandWordsDispatch := by
  intro s v rest hi hp
  refine ⟨?_, step_of_cmdWrite hi hp⟩
  cases hv : decodeCommand v with
  | ok i =>
    rw [step_eq_exec hi hp hv]
    by_cases hreset : v = 1
    · subst hreset
      cases hv
      rfl
    rw [if_neg hreset]
    by_cases hf : s.regs.fault = true
    · rw [if_pos hf, exec_of_fault (s := { s with pending := rest }) hv hreset hf]
    rw [if_neg hf]
    rcases decodeCommand_ok hv with ⟨rfl, rfl⟩ | ⟨rfl, -⟩ | ⟨rfl, rfl⟩ | ⟨rfl, rfl⟩
    case inr.inl => exact absurd rfl hreset
    all_goals rfl
  | error r =>
    have hlarge := decodeCommand_error hv
    rw [step_of_illegal hi hp hv, illegalCommand, if_neg (by bv_omega : v ≠ 1), if_neg (by bv_omega : v ≠ 0),
      if_neg (by bv_omega : v ≠ 2), if_neg (by bv_omega : v ≠ 3)]
    exact apply_ite Host.Outcome.next _ _ _

/-! ## No stop -/

/-- Between commands a step always answers (rules R11, R90). -/
theorem step_of_idle_next {s : State} (hi : s.pipe.stage = .idle) : ∃ t, step s = .next t := by
  cases hp : s.pending with
  | nil => exact ⟨s, step_of_nothing_pending hi hp⟩
  | cons act rest =>
    rw [step_of_action hi hp]
    cases act with
    | regWrite n v =>
      by_cases hn : n = 1
      · subst hn
        rw [← step_of_action hi hp]
        obtain ⟨t, ht, -⟩ := step_of_cmdWrite hi hp
        exact ⟨t, ht⟩
      · exact ⟨_, by rw [hostAct, if_neg hn, execFetched]⟩
    | regRead n => exact ⟨_, rfl⟩
    | srcWrite a b => exact ⟨_, rfl⟩
    | chkWrite a b => exact ⟨_, rfl⟩
    | dstWrite idx v => exact ⟨_, rfl⟩
    | dstRead idx => exact ⟨_, rfl⟩
    | powerOn => exact ⟨_, rfl⟩

/-- Settles O59: the host's actions always answer, and so does each stage of a sound DECODE. -/
theorem soundStatesNeverStop : Obligations.SoundStatesNeverStop := by
  intro s hs
  by_cases hi : s.pipe.stage = .idle
  · exact step_of_idle_next hi
  · obtain ⟨t, ht, -⟩ := stageStep_sound hi hs.stage
    exact ⟨t, (step_of_busy hi).trans ht⟩

/-! ## RESET and NOP -/

/-- What each number reads when the registers hold their reset values (rules R12, R38). -/
theorem regRead_of_reset {s : State} (h : s.regs = Regs.reset) (n : Nat) :
    regRead s n = if n = 0 then 0x504E4701#32 else 0 := by
  unfold regRead
  rw [h]
  split
  case h_19 h0 _ _ _ _ _ _ _ _ _ _ _ _ _ _ _ _ _ => rw [if_neg h0]
  all_goals rfl

/-- Settles O9: the state of a reset, number by number. -/
theorem resetRestoresRegisters : Obligations.ResetRestoresRegisters :=
  ⟨by decide, fun s => ⟨resetBlock s, rfl, regRead_of_reset rfl, rfl, rfl, rfl, rfl,
    ⟨rfl, rfl, rfl, rfl, rfl, rfl, rfl⟩⟩⟩

/-- Settles O12: the word of NOP decodes to it, and its meaning is the state itself. -/
theorem nopChangesNothing : Obligations.NopChangesNothing := ⟨by decide, fun _ => rfl⟩

end Sys2Proof.Machine
end

section
/-! The stages of a DECODE against the loops of rules R91 and R105: what the loops still leave, from a state in the
middle of a DECODE on, is the same before and after a stage; and obligation O27. -/

namespace Sys2Proof.Machine

open Sys2Proof.Safety

/-! ## The scanline of the loops, in the parts of a record's stages -/

/-- The first sample of an unpacked row that is no index of the palette, for a latch (rule R124). -/
def rowOffender (l : Latch) (samples : List Sample) : Option Sample :=
  if l.ct = 3#8 then firstOutside l.ps.toNat samples else none

/-- A reconstructed row scattered and committed, as rule R105 ends. -/
def committedRow (l : Latch) (c : Nat) (p : Pass) (py : Nat) (row : List Byte) (samples : List Sample) (s : State) :
    State :=
  let placed := dstPutAll (scatterWrites l.w.toNat c (l.bd.toNat == 16) p (passWidth l.w.toNat p) py samples) s
  { placed with
    regs :=
      { placed.regs with
        spos := placed.regs.spos + BitVec.ofNat 32 (1 + stride c l.bd.toNat (passWidth l.w.toNat p)) }
    pipe := { placed.pipe with prev := row } }

/-- A scanline from its reconstructed row on: the unpacking with its check, the scatter and the commit (rule R105). -/
def scanlineFromRow (l : Latch) (c : Nat) (p : Pass) (py : Nat) (row : List Byte) (s : State) : Except State State :=
  let samples := unpackLine l.bd.toNat (passWidth l.w.toNat p * c) row
  match rowOffender l samples with
  | some v => .error (raise .paletteIndexOutOfRange (v.setWidth 32) s)
  | none => .ok (committedRow l c p py row samples s)

/-- `ROW` takes the row in hand (rule R105). -/
def withRow (py : Nat) (s : State) : State := { s with regs := { s.regs with row := BitVec.ofNat 32 py } }

section Scanline

variable {l : Latch} {c : Nat} {p : Pass} {py : Nat} {s : State}

/-- A scanline whose tests pass goes on from its reconstructed row. -/
theorem scanlineLoop_of_whole {t : FilterType} (hend : ¬ l.n.toNat ≤ s.regs.spos.toNat)
    (hft : decodeFilter (readByte s.src s.regs.spos.toNat) = .ok t)
    (hwhole : ¬ l.n.toNat - s.regs.spos.toNat - 1 < stride c l.bd.toNat (passWidth l.w.toNat p)) :
    scanlineLoop l c p py s =
      scanlineFromRow l c p py
        (unfilter t (bpp c l.bd.toNat) s.pipe.prev
          (readBytes s.src (s.regs.spos.toNat + 1) (stride c l.bd.toNat (passWidth l.w.toNat p))))
        (withRow py s) := by
  simp only [scanlineLoop, hend, hft, hwhole, if_false]
  rfl

theorem scanlineLoop_of_end (hend : l.n.toNat ≤ s.regs.spos.toNat) :
    scanlineLoop l c p py s = .error (raise .streamUnderrun s.regs.spos (withRow py s)) := by
  simp only [scanlineLoop, hend, if_true]
  rfl

theorem scanlineLoop_of_illegal {r : Reject} (hend : ¬ l.n.toNat ≤ s.regs.spos.toNat)
    (hft : decodeFilter (readByte s.src s.regs.spos.toNat) = .error r) :
    scanlineLoop l c p py s =
      .error
        (raise .unsupportedFilterType ((readByte s.src s.regs.spos.toNat).setWidth 32) (withRow py s)) := by
  simp only [scanlineLoop, hend, hft, if_false]
  rfl

theorem scanlineLoop_of_short {t : FilterType} (hend : ¬ l.n.toNat ≤ s.regs.spos.toNat)
    (hft : decodeFilter (readByte s.src s.regs.spos.toNat) = .ok t)
    (hshort : l.n.toNat - s.regs.spos.toNat - 1 < stride c l.bd.toNat (passWidth l.w.toNat p)) :
    scanlineLoop l c p py s = .error (raise .streamUnderrun s.regs.spos (withRow py s)) := by
  simp only [scanlineLoop, hend, hft, hshort, if_true, if_false]
  rfl

end Scanline

/-! ## What the loops still leave -/

/-- The end of a DECODE after its loops: `DONE`, when nothing was raised (rule R97). -/
def loopEnd : Except State State → State
  | .error t => t
  | .ok t => setDone true t

/-- The rest of a pass, `k` rows from row `py` on, and the passes after it. -/
def rowsThenPasses (l : Latch) (c : Nat) (p : Pass) (rest : List Pass) (py : Nat) (s : State) : Except State State :=
  rowsLoop l c p (passHeight l.h.toNat p - py) py s >>= passesLoop l c rest

/-- The state the loops of a DECODE that started in `s` work on, for a state in the middle of the same DECODE: of the
hidden state it has `PREV` only. -/
def loopState (s u : State) : State :=
  { s with regs := u.regs, pipe := { s.pipe with prev := u.pipe.prev }, dst := u.dst, dstLog := u.dstLog }

/-- What the loops leave from the place at which a DECODE that started in `s` stands. -/
def loopsLeave (s u : State) : State :=
  let l := u.pipe.latch
  let c := u.pipe.chan
  let p := u.pipe.geo
  let py := u.pipe.py
  let rows := rowsThenPasses l c p u.pipe.later
  match u.pipe.stage with
  | .idle => loopState s u
  | .passes => loopEnd (passesLoop l c (latchPasses l) (loopState s u))
  | .record => loopEnd (rows py (loopState s u))
  | .unpack => loopEnd (scanlineFromRow l c p py u.pipe.cur (loopState s u) >>= rows (py + 1))
  | .place => loopEnd (rows (py + 1) (committedRow l c p py u.pipe.cur u.pipe.samples (loopState s u)))

/-- What obligation O27 compares: the registers, DST and the DST port. -/
def shown (s : State) : Regs × DstMem × List DstWrite := (s.regs, s.dst, s.dstLog)

/-! ## The loops, step by step -/

theorem passesLoop_cons_of_skipped {u : State} {p : Pass} (h : skipped u p = true) (c : Nat) (rest : List Pass)
    (v : State) : passesLoop u.pipe.latch c (p :: rest) v = passesLoop u.pipe.latch c rest v := by
  rw [passesLoop, if_pos (skipped_eq_true.mp h)]

theorem passesLoop_cons_of_entered {s u : State} {p : Pass} (h : skipped u p = false) (rest : List Pass) :
    passesLoop u.pipe.latch u.pipe.chan (p :: rest) (loopState s u) =
      rowsThenPasses u.pipe.latch u.pipe.chan p rest 0 (loopState s (enterPass p rest u)) := by
  rw [passesLoop, if_neg (by simp [← skipped_eq_true, h]), rowsThenPasses, Nat.sub_zero]
  show (match rowsLoop u.pipe.latch u.pipe.chan p (passHeight u.pipe.latch.h.toNat p) 0
      (loopState s (enterPass p rest u)) with
    | .error t => Except.error t
    | .ok t => passesLoop u.pipe.latch u.pipe.chan rest t) = _
  cases rowsLoop u.pipe.latch u.pipe.chan p (passHeight u.pipe.latch.h.toNat p) 0
    (loopState s (enterPass p rest u)) <;> rfl

theorem rowsThenPasses_of_lt {l : Latch} {p : Pass} {py : Nat} (h : py < passHeight l.h.toNat p) (c : Nat)
    (rest : List Pass) (s : State) :
    rowsThenPasses l c p rest py s = scanlineLoop l c p py s >>= rowsThenPasses l c p rest (py + 1) := by
  obtain ⟨k, hk⟩ : ∃ k, passHeight l.h.toNat p - py = k + 1 := ⟨passHeight l.h.toNat p - py - 1, by omega⟩
  have hk' : passHeight l.h.toNat p - (py + 1) = k := by omega
  rw [rowsThenPasses, hk, rowsLoop]
  cases scanlineLoop l c p py s with
  | error t => rfl
  | ok t =>
    show rowsLoop l c p k (py + 1) t >>= passesLoop l c rest = rowsThenPasses l c p rest (py + 1) t
    rw [rowsThenPasses, hk']

theorem rowsThenPasses_of_le {l : Latch} {p : Pass} {py : Nat} (h : passHeight l.h.toNat p ≤ py) (c : Nat)
    (rest : List Pass) (s : State) : rowsThenPasses l c p rest py s = passesLoop l c rest s := by
  rw [rowsThenPasses, Nat.sub_eq_zero_of_le h]
  rfl

theorem dstPutAll_loopState (s : State) (ws : List DstWrite) (u : State) :
    dstPutAll ws (loopState s u) = loopState s (dstPutAll ws u) := by
  induction ws generalizing u with
  | nil => rfl
  | cons w ws ih => exact ih (dstPut w u)

/-- The commit of a record is that of the loops (rule R105). -/
theorem committedRow_loopState (s u : State) :
    committedRow u.pipe.latch u.pipe.chan u.pipe.geo u.pipe.py u.pipe.cur u.pipe.samples (loopState s u) =
      loopState s (commitRecord (scatterRow u)) := by
  have hwide : (u.pipe.latch.bd.toNat == 16) = (u.pipe.latch.bd == 16#8) := by
    rw [Bool.eq_iff_iff, beq_iff_eq, beq_iff_eq, BitVec.toNat_eq]
    rfl
  obtain ⟨hpipe, hregs, -⟩ := commitRecord_keeps u
  simp only [committedRow, hwide, dstPutAll_loopState]
  simp only [loopState, hpipe, hregs, dstPutAll_regs]
  rfl

/-! ## The stages -/

/-- The move to the next pass, against the pass loop (rules R91, R133, R134). -/
theorem nextPass_loopsLeave (s : State) (ps : List Pass) (u : State) :
    shown (loopsLeave s (nextPass ps u)) =
      shown (loopEnd (passesLoop u.pipe.latch u.pipe.chan ps (loopState s u))) := by
  induction ps with
  | nil => rfl
  | cons p rest ih =>
    cases hp : skipped u p with
    | true => rw [nextPass, if_pos hp, ih, passesLoop_cons_of_skipped hp]
    | false =>
      rw [nextPass_cons_of_entered hp, passesLoop_cons_of_entered hp]
      rfl

/-- The placing of a record, against the rest of the row loop (rules R91, R105). -/
theorem placeRecord_loopsLeave (s u : State) (hg : u.pipe.stage = .place) :
    shown (loopsLeave s (placeRecord u)) = shown (loopsLeave s u) := by
  have hleft : loopsLeave s u =
      loopEnd (rowsThenPasses u.pipe.latch u.pipe.chan u.pipe.geo u.pipe.later (u.pipe.py + 1)
        (loopState s (commitRecord (scatterRow u)))) := by
    simp only [loopsLeave, hg, committedRow_loopState]
  obtain ⟨hpipe, -, -⟩ := commitRecord_keeps u
  rw [hleft, placeRecord]
  generalize commitRecord (scatterRow u) = v at hpipe
  by_cases hrow : v.pipe.py + 1 < passHeight v.pipe.latch.h.toNat v.pipe.geo
  · rw [nextRow_of_lt hrow]
    simp only [loopsLeave, loopState, hpipe]
  · rw [nextRow_of_last hrow, nextPass_loopsLeave]
    simp only [hpipe] at hrow ⊢
    rw [rowsThenPasses_of_le (not_lt.mp hrow)]

/-- A record that fails one of its tests, against the scanline (rule R105). -/
theorem RecordFault.scanlineLoop_eq {s u : State} {cause : Cause} {v : Word} (hsrc : u.src = s.src)
    (h : RecordFault u cause v) :
    scanlineLoop u.pipe.latch u.pipe.chan u.pipe.geo u.pipe.py (loopState s u) =
      .error (raise cause v (withRow u.pipe.py (loopState s u))) := by
  cases h with
  | noType hend => exact scanlineLoop_of_end hend
  | badType hend hft =>
    rw [hsrc] at hft ⊢
    exact scanlineLoop_of_illegal hend hft
  | shortData hend hft hshort =>
    rw [hsrc] at hft
    exact scanlineLoop_of_short hend hft hshort

/-- A stage leaves to the loops what they would leave before it (rules R91, R105). -/
theorem stageStep_loopsLeave {s u t : State} (hsrc : u.src = s.src) (hi : u.pipe.stage ≠ .idle) (hs : StageSound u)
    (h : stageStep u = .next t) : shown (loopsLeave s t) = shown (loopsLeave s u) := by
  cases stageMove_of_sound hi hs h with
  | @loadsPasses m hg hm =>
    have hpasses : latchPasses u.pipe.latch = passList m := by simp only [latchPasses, hm]
    rw [nextPass_loopsLeave]
    simp only [loopsLeave, hg, hpasses]
    rfl
  | recordFaults hg hfault =>
    simp only [StageSound, hg] at hs
    obtain ⟨-, -, -, hpass, -⟩ := hs
    simp only [loopsLeave, hg, rowsThenPasses_of_lt hpass.rowInPass, hfault.scanlineLoop_eq hsrc]
    rfl
  | @reconstructs ft hg hwhole hft =>
    simp only [StageSound, hg] at hs
    obtain ⟨-, -, -, hpass, -⟩ := hs
    unfold RecordFits at hwhole
    have hend : ¬ u.pipe.latch.n.toNat ≤ u.regs.spos.toNat := by omega
    have hdata : ¬ u.pipe.latch.n.toNat - u.regs.spos.toNat - 1 < rowStride u := by omega
    have hscan := scanlineLoop_of_whole (s := loopState s u) (c := u.pipe.chan) (p := u.pipe.geo) (py := u.pipe.py)
      hend (hsrc ▸ hft) hdata
    simp only [loopsLeave, hg, rowsThenPasses_of_lt hpass.rowInPass, hscan, recordData, hsrc]
    rfl
  | @paletteFaults d v hg hd hv =>
    have hrow : rowOffender u.pipe.latch
        (unpackLine u.pipe.latch.bd.toNat (passWidth u.pipe.latch.w.toNat u.pipe.geo * u.pipe.chan) u.pipe.cur) =
          some v := by
      rw [← decodeDepth_bits hd]
      exact hv
    simp only [loopsLeave, hg, scanlineFromRow, hrow]
    rfl
  | @unpacks d hg hd hv =>
    have hrow : rowOffender u.pipe.latch
        (unpackLine u.pipe.latch.bd.toNat (passWidth u.pipe.latch.w.toNat u.pipe.geo * u.pipe.chan) u.pipe.cur) =
          none := by
      rw [← decodeDepth_bits hd]
      exact hv
    simp only [loopsLeave, hg, scanlineFromRow, hrow, decodeDepth_bits hd]
    rfl
  | places hg => exact placeRecord_loopsLeave s u hg

/-- From the start of a DECODE whose configuration is accepted, the loops leave what rule R91 says. -/
theorem loopsLeave_startDecode {s : State} {c : Nat} (hc : configCheck s.params (latchOf s.regs) = .ok c) :
    loopsLeave s (startDecode s) = decodeLoop s := by
  have hloop : decodeLoop s = loopEnd (passesLoop (latchOf s.regs) c (latchPasses (latchOf s.regs))
      { s with regs := { s.regs with done := false, spos := 0, pass := 0, row := 0 } }) := by
    simp only [decodeLoop, hc]
    rfl
  rw [hloop, startDecode_of_ok hc]
  rfl

/-- Settles O27: a rejected configuration ends both at once; else no stage changes what the loops still leave, and at
the end of the command nothing is left to them. -/
theorem decodeIsThePassAndRowLoops : Obligations.DecodeIsThePassAndRowLoops := by
  intro s hf
  cases hc : configCheck s.params (latchOf s.regs) with
  | error e =>
    have hloop : decodeLoop s = raise e.1 e.2 (setDone false s) := by simp only [decodeLoop, hc]
    rw [hloop]
    exact ⟨_, execDecode_of_rejected hf hc, rfl, rfl, rfl⟩
  | ok c =>
    have hstart := startDecode_of_ok hc
    obtain ⟨t, ht⟩ := execDecode_next s
    obtain ⟨⟨-, hshown⟩, -, hidle⟩ := execDecode_keeps
      (P := fun u => SameInputs s u ∧ shown (loopsLeave s u) = shown (decodeLoop s))
      (fun u v hi hu ⟨hinputs, hleave⟩ hstep => ⟨hinputs.trans (stageStep_sameInputs hstep),
        (stageStep_loopsLeave hinputs.src hi hu hstep).trans hleave⟩)
      hf (hstart ▸ initCursors_sound hf hc)
      ⟨(startDecode_sameSpaces s).toSameInputs, by rw [loopsLeave_startDecode hc]⟩ ht
    simp only [loopsLeave, hidle, shown, loopState, Prod.mk.injEq] at hshown
    exact ⟨t, ht, hshown⟩

end Sys2Proof.Machine
end

section
/-! The configuration check in plain numbers (rules R92 to R96): each test of the latch is the test of the table on the
fields of `FMT`, in the same order; and obligation O24. -/

namespace Sys2Proof.Machine

open Sys2Proof.Safety

/-! ## The fields of `FMT` as numbers (rule R19) -/

theorem fmtBD_toNat (fmt : BitVec 25) : (fmtBD fmt).toNat = fmt.toNat % 256 := by
  simp [fmtBD, BitVec.extractLsb'_toNat]

theorem fmtCT_toNat (fmt : BitVec 25) : (fmtCT fmt).toNat = fmt.toNat / 256 % 256 := by
  simp [fmtCT, BitVec.extractLsb'_toNat, Nat.shiftRight_eq_div_pow]

theorem fmtIL_toNat (fmt : BitVec 25) : (fmtIL fmt).toNat = fmt.toNat / 65536 % 256 := by
  simp [fmtIL, BitVec.extractLsb'_toNat, Nat.shiftRight_eq_div_pow]

theorem fmtPALP_toNat (fmt : BitVec 25) : (fmtPALP fmt).toNat = fmt.toNat / 16777216 := by
  have hlt := fmt.isLt
  rw [fmtPALP, BitVec.getLsbD, Nat.testBit_eq_decide_div_mod_eq]
  by_cases hbit : fmt.toNat / 2 ^ 24 % 2 = 1
  · simp only [hbit, decide_true, Bool.toNat_true]
    omega
  · simp only [hbit, decide_false, Bool.toNat_false]
    omega

/-! ## The tests, one by one -/

/-- The verdict of rules R94 and R95 on a latch. -/
def latchVerdict (p : Params) (l : Latch) : Option (Nat × Nat) → Prop :=
  ConfigVerdict p l.bd.toNat l.ct.toNat l.il.toNat l.palp.toNat l.w.toNat l.h.toNat

theorem verdictOf_eq_latchVerdict (s : State) : verdictOf s = latchVerdict s.params (latchOf s.regs) := by
  simp only [verdictOf, latchVerdict, latchOf, fmtBD_toNat, fmtCT_toNat, fmtIL_toNat, fmtPALP_toNat]

theorem exists_color_of_mem {ct : Byte} (h : ct.toNat ∈ [0, 2, 3, 4, 6]) : ∃ c, decodeColor ct = some c := by
  simp only [List.mem_cons, List.not_mem_nil, or_false] at h
  rcases h with h | h | h | h | h
  · exact ⟨.grayscale, by rw [BitVec.eq_of_toNat_eq (y := 0#8) h]; rfl⟩
  · exact ⟨.rgb, by rw [BitVec.eq_of_toNat_eq (y := 2#8) h]; rfl⟩
  · exact ⟨.palette, by rw [BitVec.eq_of_toNat_eq (y := 3#8) h]; rfl⟩
  · exact ⟨.grayscaleAlpha, by rw [BitVec.eq_of_toNat_eq (y := 4#8) h]; rfl⟩
  · exact ⟨.rgba, by rw [BitVec.eq_of_toNat_eq (y := 6#8) h]; rfl⟩

theorem channels_eq_channelsByCode {ct : Byte} {c : ColorType} (h : decodeColor ct = some c) :
    channels c = channelsByCode ct.toNat := by
  rw [decodeColor_eq_some h]
  cases c <;> rfl

theorem eq_palette_iff {ct : Byte} {c : ColorType} (h : decodeColor ct = some c) : c = .palette ↔ ct.toNat = 3 := by
  rw [decodeColor_eq_some h]
  cases c <;> decide

theorem exists_depth_of_mem {bd : Byte} {ct : Nat} (h : bd.toNat ∈ allowedByCode ct) :
    ∃ d, decodeDepth bd = .ok d := by
  have hmem : bd.toNat ∈ [1, 2, 4, 8, 16] := by
    unfold allowedByCode at h
    split_ifs at h
    · exact h
    · exact (by decide : [1, 2, 4, 8] ⊆ [1, 2, 4, 8, 16]) h
    · exact (by decide : [8, 16] ⊆ [1, 2, 4, 8, 16]) h
  simp only [List.mem_cons, List.not_mem_nil, or_false] at hmem
  rcases hmem with h | h | h | h | h
  · exact ⟨.d1, by rw [BitVec.eq_of_toNat_eq (y := 1#8) h]; rfl⟩
  · exact ⟨.d2, by rw [BitVec.eq_of_toNat_eq (y := 2#8) h]; rfl⟩
  · exact ⟨.d4, by rw [BitVec.eq_of_toNat_eq (y := 4#8) h]; rfl⟩
  · exact ⟨.d8, by rw [BitVec.eq_of_toNat_eq (y := 8#8) h]; rfl⟩
  · exact ⟨.d16, by rw [BitVec.eq_of_toNat_eq (y := 16#8) h]; rfl⟩

/-- The depths allowed for a colour type are those the table lists for its code (rule R93). -/
theorem depthAllowed_iff {ct bd : Byte} {c : ColorType} (hct : decodeColor ct = some c) :
    depthAllowed c bd = true ↔ bd.toNat ∈ allowedByCode ct.toNat := by
  refine ⟨fun h => ?_, fun h => ?_⟩
  · by_contra hno
    simp [depthAllowed_of_notMem hct hno] at h
  · obtain ⟨d, hd⟩ := exists_depth_of_mem h
    rw [decodeColor_eq_some hct, ← decodeDepth_bits hd, ← mem_allowedDepths_iff] at h
    simp only [depthAllowed, hd, h, decide_true]

theorem interlaceRejected_iff (il : Byte) : (il ≠ 0#8 ∧ il ≠ 1#8) ↔ il.toNat ∉ [0, 1] := by
  simp [BitVec.toNat_eq]

theorem word_eq_zero_iff (v : Word) : v = 0#32 ↔ v.toNat = 0 := BitVec.toNat_eq

theorem noPalette_iff {l : Latch} {c : ColorType} (h : decodeColor l.ct = some c) :
    (c = .palette ∧ l.palp = false) ↔ (l.ct.toNat = 3 ∧ l.palp.toNat = 0) := by
  rw [eq_palette_iff h, Bool.toNat_eq_zero]

theorem exceeds_iff_beyond (x : Nat) (capacity : Option Capacity) :
    exceeds x capacity = true ↔ beyond x capacity := by
  cases capacity <;> simp [exceeds, beyond]

/-! ## The whole check -/

section

variable {p : Params} {l : Latch}

open Classical in
/-- The check of a latch whose colour type is in the table, in plain numbers (rules R94, R95). -/
theorem configCheck_of_color {color : ColorType} (hcolor : decodeColor l.ct = some color) :
    configCheck p l =
      if l.bd.toNat ∉ allowedByCode l.ct.toNat then .error (.invalidBitDepth, BitVec.ofNat 32 l.bd.toNat)
      else if l.il.toNat ∉ [0, 1] then .error (.unsupportedInterlaceMethod, BitVec.ofNat 32 l.il.toNat)
      else if l.w.toNat = 0 then .error (.invalidDimensions, 0#32)
      else if l.h.toNat = 0 then .error (.invalidDimensions, 1#32)
      else if l.ct.toNat = 3 ∧ l.palp.toNat = 0 then .error (.missingRequiredChunk, 0#32)
      else if beyond ((l.w.toNat * channelsByCode l.ct.toNat * l.bd.toNat + 7) / 8) p.maxStride then
        .error (.capacityExceeded, 0#32)
      else if beyond (l.w.toNat * l.h.toNat * channelsByCode l.ct.toNat) p.maxSamples then
        .error (.capacityExceeded, 1#32)
      else .ok (channelsByCode l.ct.toNat) := by
  have hdepth : (!depthAllowed color l.bd) = true ↔ l.bd.toNat ∉ allowedByCode l.ct.toNat := by
    rw [← depthAllowed_iff hcolor, Bool.not_eq_true', Bool.not_eq_true]
  simp only [configCheck, hcolor, hdepth, interlaceRejected_iff, BitVec.ofNat_eq_ofNat, word_eq_zero_iff,
    noPalette_iff hcolor, exceeds_iff_beyond, channels_eq_channelsByCode hcolor, stride, BitVec.ofNat_toNat]

/-- The first test that fails is the one the verdict names (rules R94, R95). -/
theorem configCheck_of_fault {code info : Nat} (h : latchVerdict p l (some (code, info))) :
    ∃ cause, configCheck p l = .error (cause, BitVec.ofNat 32 info) ∧ causeCode cause = BitVec.ofNat 8 code := by
  by_cases hct : l.ct.toNat ∈ [0, 2, 3, 4, 6]
  · obtain ⟨color, hcolor⟩ := exists_color_of_mem hct
    rw [configCheck_of_color hcolor]
    cases h with
    | color hno => exact absurd hct hno
    | depth _ hbd => exact ⟨.invalidBitDepth, if_pos hbd, rfl⟩
    | interlace _ hbd hil =>
      exact ⟨.unsupportedInterlaceMethod, by rw [if_neg (not_not.mpr hbd), if_pos hil], rfl⟩
    | width _ hbd hil hw =>
      exact ⟨.invalidDimensions, by simp only [hbd, hil, hw, not_true, if_true, if_false], rfl⟩
    | height _ hbd hil hw hh =>
      exact ⟨.invalidDimensions, by simp only [hbd, hil, hw, hh, not_true, if_true, if_false], rfl⟩
    | noPalette h3 hbd hil hw hh hp =>
      exact ⟨.missingRequiredChunk, by
        rw [if_neg (not_not.mpr hbd), if_neg (not_not.mpr hil), if_neg hw, if_neg hh, if_pos ⟨h3, hp⟩], rfl⟩
    | strideTooLong _ hbd hil hw hh hp hst =>
      exact ⟨.capacityExceeded, by simp only [hbd, hil, hw, hh, hp, hst, not_true, if_true, if_false], rfl⟩
    | tooManySamples _ hbd hil hw hh hp hst hmax =>
      exact ⟨.capacityExceeded, by simp only [hbd, hil, hw, hh, hp, hst, hmax, not_true, if_true, if_false], rfl⟩
  · cases h with
    | color hno =>
      exact ⟨.unsupportedColorType, by simp only [configCheck, decodeColor_of_notMem hno, BitVec.ofNat_toNat], rfl⟩
    | noPalette h3 => exact absurd (by rw [h3]; decide) hct
    | depth hmem | interlace hmem | width hmem | height hmem | strideTooLong hmem | tooManySamples hmem =>
      exact absurd hmem hct

theorem configCheck_of_legal (h : latchVerdict p l none) : configCheck p l = .ok (channelsByCode l.ct.toNat) := by
  cases h with
  | legal hct hbd hil hw hh hp hst hmax =>
    obtain ⟨color, hcolor⟩ := exists_color_of_mem hct
    rw [configCheck_of_color hcolor]
    simp only [hbd, hil, hw, hh, hp, hst, hmax, not_true, if_false]

/-- Every configuration has a verdict. -/
theorem exists_latchVerdict (p : Params) (l : Latch) : ∃ verdict, latchVerdict p l verdict := by
  unfold latchVerdict
  by_cases hct : l.ct.toNat ∈ [0, 2, 3, 4, 6]
  case neg => exact ⟨_, .color hct⟩
  by_cases hbd : l.bd.toNat ∈ allowedByCode l.ct.toNat
  case neg => exact ⟨_, .depth hct hbd⟩
  by_cases hil : l.il.toNat ∈ [0, 1]
  case neg => exact ⟨_, .interlace hct hbd hil⟩
  by_cases hw : l.w.toNat = 0
  case pos => exact ⟨_, .width hct hbd hil hw⟩
  by_cases hh : l.h.toNat = 0
  case pos => exact ⟨_, .height hct hbd hil hw hh⟩
  by_cases hp : l.ct.toNat = 3 ∧ l.palp.toNat = 0
  case pos =>
    obtain ⟨h3, hp0⟩ := hp
    exact ⟨_, .noPalette h3 hbd hil hw hh hp0⟩
  by_cases hst : beyond ((l.w.toNat * channelsByCode l.ct.toNat * l.bd.toNat + 7) / 8) p.maxStride
  case pos => exact ⟨_, .strideTooLong hct hbd hil hw hh hp hst⟩
  by_cases hmax : beyond (l.w.toNat * l.h.toNat * channelsByCode l.ct.toNat) p.maxSamples
  case pos => exact ⟨_, .tooManySamples hct hbd hil hw hh hp hst hmax⟩
  exact ⟨_, .legal hct hbd hil hw hh hp hst hmax⟩

end

/-- Settles O24: the check answers as the verdict says, and a DECODE ends there or starts with its latch and cursors. -/
theorem configurationIsCheckedInOrder : Obligations.ConfigurationIsCheckedInOrder := by
  intro s hf
  rw [verdictOf_eq_latchVerdict]
  refine ⟨fun code info h => ?_, fun h => ?_, exists_latchVerdict _ _⟩
  · obtain ⟨cause, hcheck, hcode⟩ := configCheck_of_fault h
    refine ⟨_, execDecode_of_rejected hf hcheck, ?_, ⟨rfl, rfl, rfl, rfl, rfl, rfl, rfl⟩, rfl⟩
    rw [← hcode]
    rfl
  · rw [startDecode_of_ok (configCheck_of_legal h)]
    have hchan : channelsByCode (latchOf s.regs).ct.toNat = channelsByCode (s.regs.fmt.toNat / 256 % 256) := by
      rw [← fmtCT_toNat]
      rfl
    exact ⟨rfl, rfl, hchan, fmtBD_toNat _, fmtCT_toNat _, fmtIL_toNat _, fmtPALP_toNat _, rfl, rfl, rfl, rfl,
      ⟨rfl, rfl, rfl, rfl, rfl, rfl, rfl⟩⟩

end Sys2Proof.Machine
end

section
/-! A DECODE of a legal stream (rules R97, R105, R120, R124, R139): what is still to be read is legal at every stage, so
no stage faults, and every write of the command has filled its cell; and obligation O28. -/

namespace Sys2Proof.Machine

open Sys2Proof.Safety

/-! ## Legal records -/

/-- Every sample of a reconstructed row is an index of the palette, when the image has one (rule R124). -/
def RowInPalette (l : Latch) (c : Nat) (q : Pass × List Byte) : Prop :=
  l.ct = 3 → ∀ k < passWidth l.w.toNat q.1 * c, sample l.bd.toNat q.2 k < l.ps.toNat

/-- The records `todo`, the first at `o` and behind the row `prev`, are legal: they fit, their type bytes are in the
table, and their rows are in the palette (rules R105, R117, R124). -/
structure LegalFrom (l : Latch) (c : Nat) (src : Memory) (o : Nat) (prev : List Byte) (todo : List (Pass × Nat)) :
    Prop where
  room : o + (todo.map (recordSize c l)).sum ≤ l.n.toNat
  types : ∀ a ∈ recordStarts c l o todo, (readByte src a).toNat ≤ 4
  rows : ∀ q ∈ reconstructedRows c l src o prev todo, RowInPalette l c q

theorem decodeFilter_of_le {ft : Byte} (h : ft.toNat ≤ 4) : ∃ t, decodeFilter ft = .ok t := by
  obtain h | h | h | h | h :
      ft.toNat = 0 ∨ ft.toNat = 1 ∨ ft.toNat = 2 ∨ ft.toNat = 3 ∨ ft.toNat = 4 := by omega
  · exact ⟨.none, by rw [BitVec.eq_of_toNat_eq (y := 0#8) h]; rfl⟩
  · exact ⟨.sub, by rw [BitVec.eq_of_toNat_eq (y := 1#8) h]; rfl⟩
  · exact ⟨.up, by rw [BitVec.eq_of_toNat_eq (y := 2#8) h]; rfl⟩
  · exact ⟨.avg, by rw [BitVec.eq_of_toNat_eq (y := 3#8) h]; rfl⟩
  · exact ⟨.paeth, by rw [BitVec.eq_of_toNat_eq (y := 4#8) h]; rfl⟩

section LegalRecords

variable {l : Latch} {c o : Nat} {src : Memory} {prev : List Byte} {q : Pass × Nat} {todo : List (Pass × Nat)}

theorem LegalFrom.head_fits (h : LegalFrom l c src o prev (q :: todo)) : o + recordSize c l q ≤ l.n.toNat := by
  have hroom := h.room
  rw [List.map_cons, List.sum_cons] at hroom
  omega

theorem LegalFrom.head_type (h : LegalFrom l c src o prev (q :: todo)) : ∃ t, decodeFilter (readByte src o) = .ok t :=
  decodeFilter_of_le (h.types o (by simp [recordStarts]))

/-- The rows of a list of records are the first one's, then those of the records behind it (rules R105, R134). -/
theorem reconstructedRows_cons {t : FilterType} (hft : decodeFilter (readByte src o) = .ok t)
    (hfirst : q.2 = 0 → prev = List.replicate (stride c l.bd.toNat (passWidth l.w.toNat q.1)) 0) {row : List Byte}
    (hrow : row = unfilter t (bpp c l.bd.toNat) prev
      (readBytes src (o + 1) (stride c l.bd.toNat (passWidth l.w.toNat q.1)))) :
    reconstructedRows c l src o prev (q :: todo) =
      (q.1, row) :: reconstructedRows c l src (o + recordSize c l q) row todo := by
  have habove :
      (if q.2 = 0 then List.replicate (stride c l.bd.toNat (passWidth l.w.toNat q.1)) 0 else prev) = prev := by
    split
    · exact (hfirst ‹_›).symm
    · rfl
  simp only [reconstructedRows, hft, habove, ← hrow]

/-- Behind a legal record that has been reconstructed the stream is legal again. -/
theorem LegalFrom.tail {t : FilterType} (h : LegalFrom l c src o prev (q :: todo))
    (hft : decodeFilter (readByte src o) = .ok t)
    (hfirst : q.2 = 0 → prev = List.replicate (stride c l.bd.toNat (passWidth l.w.toNat q.1)) 0) {row : List Byte}
    (hrow : row = unfilter t (bpp c l.bd.toNat) prev
      (readBytes src (o + 1) (stride c l.bd.toNat (passWidth l.w.toNat q.1)))) :
    RowInPalette l c (q.1, row) ∧ LegalFrom l c src (o + recordSize c l q) row todo := by
  obtain ⟨hroom, htypes, hrows⟩ := h
  rw [List.map_cons, List.sum_cons] at hroom
  rw [recordStarts, List.forall_mem_cons] at htypes
  rw [reconstructedRows_cons hft hfirst hrow, List.forall_mem_cons] at hrows
  obtain ⟨-, htypes⟩ := htypes
  obtain ⟨hinside, hrows⟩ := hrows
  exact ⟨hinside, by omega, htypes, hrows⟩

/-- What the row before the first row of a pass holds does not matter (rule R134). -/
theorem LegalFrom.of_first_row {p : Pass} (h : LegalFrom l c src o prev ((p, 0) :: todo)) (prev' : List Byte) :
    LegalFrom l c src o prev' ((p, 0) :: todo) := ⟨h.room, h.types, h.rows⟩

end LegalRecords

/-- A row in the palette passes the unpacker's check (rules R120, R124). -/
theorem paletteOffender_of_inPalette {s : State} {d : Depth} (hd : decodeDepth s.pipe.latch.bd = .ok d)
    (h : RowInPalette s.pipe.latch s.pipe.chan (s.pipe.geo, s.pipe.cur)) :
    paletteOffender s (unpackLine d.bits (rowSamples s) s.pipe.cur) = none := by
  unfold paletteOffender
  split
  · rename_i hct
    refine (firstOutside_eq_none _ _).mpr fun v hv => ?_
    obtain ⟨k, hk, rfl⟩ := List.mem_map.mp hv
    have hsample := h hct k (List.mem_range.mp hk)
    rw [← decodeDepth_bits hd] at hsample
    exact lt_of_le_of_lt (by rw [BitVec.toNat_ofNat]; exact Nat.mod_le _ _) hsample
  · rfl

/-! ## The stages -/

/-- The records behind the one in hand. -/
def recordsBehind (l : Latch) (g : Pipe) : List (Pass × Nat) := rowsFrom l g.geo (g.py + 1) ++ passesPlan l g.later

/-- The stream behind the record in hand is legal. -/
def LegalBehind (u : State) : Prop :=
  LegalFrom u.pipe.latch u.pipe.chan u.src (u.regs.spos.toNat + (1 + rowStride u)) u.pipe.cur
    (recordsBehind u.pipe.latch u.pipe)

/-- What a DECODE still has to read is legal, stage by stage; and once it has ended, it has ended with `DONE`. -/
def LegalAhead (u : State) : Prop :=
  match u.pipe.stage with
  | .idle => u.regs.done = true ∧ u.regs.fault = false
  | .passes => LegalFrom u.pipe.latch u.pipe.chan u.src 0 [] (recordPlan u.pipe.latch)
  | .record =>
    (u.pipe.py = 0 → u.pipe.prev = List.replicate (rowStride u) 0) ∧
      LegalFrom u.pipe.latch u.pipe.chan u.src u.regs.spos.toNat u.pipe.prev (recordsLeft u.pipe.latch u.pipe)
  | .unpack => RowInPalette u.pipe.latch u.pipe.chan (u.pipe.geo, u.pipe.cur) ∧ LegalBehind u
  | .place => LegalBehind u

theorem recordsLeft_eq_cons {s : State} (h : PassSound s) :
    recordsLeft s.pipe.latch s.pipe = (s.pipe.geo, s.pipe.py) :: recordsBehind s.pipe.latch s.pipe := by
  rw [recordsLeft, rowsFrom_of_lt h.rowInPass, List.cons_append, recordsBehind]

/-- The move to the next pass reads nothing (rules R133, R134). -/
theorem nextPass_legalAhead {s : State} {ps : List Pass} {prev : List Byte} (hf : s.regs.fault = false)
    (h : LegalFrom s.pipe.latch s.pipe.chan s.src s.regs.spos.toNat prev (passesPlan s.pipe.latch ps)) :
    LegalAhead (nextPass ps s) := by
  rcases nextPass_cases ps s with ⟨before, p, rest, rfl, hskip, hp, he⟩ | ⟨-, he⟩ <;> rw [he]
  · obtain ⟨-, hheight⟩ := skipped_eq_false.mp hp
    rw [passesPlan_append, passesPlan_of_skipped hskip, List.nil_append, passesPlan_cons_of_entered hp,
      rowsFrom_of_lt hheight] at h
    refine ⟨fun _ => rfl, ?_⟩
    have hleft : recordsLeft s.pipe.latch (enterPass p rest s).pipe =
        (p, 0) :: (rowsFrom s.pipe.latch p (0 + 1) ++ passesPlan s.pipe.latch rest) := by
      rw [← List.cons_append, ← rowsFrom_of_lt hheight]
      rfl
    exact hleft ▸ h.of_first_row _
  · exact ⟨rfl, hf⟩

theorem placeRecord_legalAhead {s : State} (hf : s.regs.fault = false) (hfit : RecordFits s) (h : LegalBehind s) :
    LegalAhead (placeRecord s) := by
  obtain ⟨hpipe, hregs, -⟩ := commitRecord_keeps s
  have hspos := commitRecord_spos hfit
  have hsrc : (commitRecord (scatterRow s)).src = s.src := by rw [commitRecord_src, scatterRow_src]
  unfold LegalBehind at h
  unfold placeRecord
  generalize commitRecord (scatterRow s) = u at hpipe hregs hspos hsrc
  rw [← hspos, ← hsrc] at h
  have hfault : u.regs.fault = false := by rw [hregs]; exact hf
  by_cases hrow : u.pipe.py + 1 < passHeight u.pipe.latch.h.toNat u.pipe.geo
  · rw [nextRow_of_lt hrow]
    refine ⟨fun h0 => absurd h0 (Nat.succ_ne_zero _), ?_⟩
    simpa only [recordsLeft, recordsBehind, hpipe] using h
  · rw [nextRow_of_last hrow]
    rw [hpipe] at hrow
    rw [recordsBehind, rowsFrom_of_le (not_lt.mp hrow), List.nil_append] at h
    exact nextPass_legalAhead hfault (by simpa only [hpipe] using h)

/-- No test of a legal record fails (rules R105, R117). -/
theorem LegalFrom.no_recordFault {s : State} {prev : List Byte} {todo : List (Pass × Nat)} {cause : Cause} {v : Word}
    (h : LegalFrom s.pipe.latch s.pipe.chan s.src s.regs.spos.toNat prev ((s.pipe.geo, s.pipe.py) :: todo)) :
    ¬ RecordFault s cause v := by
  have hfits : s.regs.spos.toNat + (1 + rowStride s) ≤ s.pipe.latch.n.toNat := h.head_fits
  obtain ⟨t, ht⟩ := h.head_type
  intro hfault
  cases hfault with
  | noType hend => omega
  | badType _ hft => cases ht.symm.trans hft
  | shortData _ _ hshort => omega

/-- Every stage of a DECODE of a legal stream leaves a legal stream ahead (rules R91, R105). -/
theorem stageStep_legalAhead {s t : State} (hi : s.pipe.stage ≠ .idle) (hs : StageSound s) (hlegal : LegalAhead s)
    (h : stageStep s = .next t) : LegalAhead t := by
  obtain ⟨-, hf, -⟩ := stageSound_of_busy hi hs
  cases stageMove_of_sound hi hs h with
  | @loadsPasses m hg hm =>
    simp only [StageSound, hg] at hs
    simp only [LegalAhead, hg] at hlegal
    obtain ⟨-, -, -, h0⟩ := hs
    have hpasses : latchPasses s.pipe.latch = passList m := by simp only [latchPasses, hm]
    rw [recordPlan_eq_passesPlan, hpasses] at hlegal
    refine nextPass_legalAhead (s := loadPasses m s) (prev := []) hf ?_
    rw [loadPasses_regs, h0]
    exact hlegal
  | recordFaults hg hfault =>
    simp only [StageSound, hg] at hs
    simp only [LegalAhead, hg] at hlegal
    obtain ⟨-, -, -, hpass, -⟩ := hs
    obtain ⟨-, hstream⟩ := hlegal
    rw [recordsLeft_eq_cons hpass] at hstream
    exact absurd hfault hstream.no_recordFault
  | reconstructs hg _ hft =>
    simp only [StageSound, hg] at hs
    simp only [LegalAhead, hg] at hlegal
    obtain ⟨-, -, -, hpass, -⟩ := hs
    obtain ⟨hfirst, hstream⟩ := hlegal
    rw [recordsLeft_eq_cons hpass] at hstream
    exact hstream.tail hft hfirst rfl
  | paletteFaults hg hd hv =>
    simp only [LegalAhead, hg] at hlegal
    obtain ⟨hrow, -⟩ := hlegal
    cases (paletteOffender_of_inPalette hd hrow).symm.trans hv
  | unpacks hg =>
    simp only [LegalAhead, hg] at hlegal
    obtain ⟨-, hbehind⟩ := hlegal
    exact hbehind
  | places hg =>
    simp only [StageSound, hg] at hs
    simp only [LegalAhead, hg] at hlegal
    obtain ⟨-, -, -, -, hfit, -⟩ := hs
    exact placeRecord_legalAhead hf hfit hlegal

/-! ## The cells a DECODE has filled -/

/-- The cells that the writes since the port held `log` name are written. -/
def LoggedCellsWritten (log : List DstWrite) (s : State) : Prop :=
  ∃ writes, s.dstLog = writes ++ log ∧ ∀ w ∈ writes, (dstCell s.dst w.idx).isSome = true

theorem dstCell_dstPutAll_isSome (ws : List DstWrite) (s : State) (idx : Nat)
    (h : (∃ w ∈ ws, w.idx = idx) ∨ (dstCell s.dst idx).isSome = true) :
    (dstCell (dstPutAll ws s).dst idx).isSome = true := by
  induction ws generalizing s with
  | nil => simpa using h
  | cons w ws ih =>
    refine ih (dstPut w s) ?_
    have hput : dstCell (dstPut w s).dst idx = if w.idx = idx then some (storedSample w) else dstCell s.dst idx :=
      cellAt_putCell _ _ _ _
    by_cases hw : w.idx = idx
    · exact .inr (by rw [hput, if_pos hw]; rfl)
    · rw [hput, if_neg hw]
      exact h.imp_left fun ⟨w', hmem, hidx⟩ =>
        ⟨w', (List.mem_cons.mp hmem).resolve_left fun he => hw (he ▸ hidx), hidx⟩

theorem stageStep_loggedCellsWritten {log : List DstWrite} {s t : State} (hw : LoggedCellsWritten log s)
    (h : stageStep s = .next t) : LoggedCellsWritten log t := by
  obtain ⟨writes, hlog, hcells⟩ := hw
  by_cases hg : s.pipe.stage = .place
  · cases (stageStep_place hg).symm.trans h
    refine ⟨(rowWrites s).reverse ++ writes, by rw [placeRecord_dstLog, hlog, List.append_assoc], fun w hw => ?_⟩
    rw [placeRecord_dst]
    refine dstCell_dstPutAll_isSome (rowWrites s) s w.idx ?_
    rcases List.mem_append.mp hw with hrow | hold
    · exact .inl ⟨w, List.mem_reverse.mp hrow, rfl⟩
    · exact .inr (hcells w hold)
  · have hsame := stageStep_sameSpaces hg h
    exact ⟨writes, hsame.dstLog.trans hlog, by rw [hsame.dst]; exact hcells⟩

/-- Settles O28: with a legal stream ahead no stage faults; what `SPOS` holds at the end and which
cells are written is known of every DECODE that ends with `DONE`. -/
theorem decodeCompletesOnALegalStream : Obligations.DecodeCompletesOnALegalStream := by
  intro s c hf hc hroom htypes hindices
  have hstart := startDecode_of_ok hc
  have hlegal : LegalFrom (latchOf s.regs) c s.src 0 [] (recordPlan (latchOf s.regs)) :=
    ⟨by rw [Nat.zero_add]; exact hroom, htypes, fun q hq hct => hindices hct q hq⟩
  obtain ⟨t, ht⟩ := execDecode_next s
  obtain ⟨⟨hahead, writes, hlog, hcells⟩, -, hidle⟩ := execDecode_keeps
    (P := fun u => LegalAhead u ∧ LoggedCellsWritten s.dstLog u)
    (fun u v hi hu ⟨hlegal, hwritten⟩ hstep =>
      ⟨stageStep_legalAhead hi hu hlegal hstep, stageStep_loggedCellsWritten hwritten hstep⟩)
    hf (hstart ▸ initCursors_sound hf hc) (hstart ▸ ⟨hlegal, [], rfl, by simp⟩) ht
  simp only [LegalAhead, hidle] at hahead
  obtain ⟨hdone, hfault⟩ := hahead
  obtain ⟨hspos, -⟩ := doneLeavesTheCursorsAtTheEnd s t c hf hc ht hdone
  obtain ⟨writes', hlog', hcount⟩ := doneMeansEveryCellWrittenOnce s t c hf hc ht hdone
  refine ⟨t, ht, hdone, hfault, hidle, hspos, fun idx hidx => ?_⟩
  cases List.append_cancel_right (hlog.symm.trans hlog')
  have hmem : idx ∈ writes.map DstWrite.idx := by
    rw [← List.count_pos_iff, hcount idx, if_pos hidx]
    exact Nat.one_pos
  obtain ⟨w, hw, rfl⟩ := List.mem_map.mp hmem
  exact hcells w hw

end Sys2Proof.Machine
end

section
/-! The tests of a scanline record (rules R105, R117, R145): a test that fails ends the command with its own code and info
word and leaves everything outside the block; and obligation O35. -/

namespace Sys2Proof.Machine

open Sys2Proof.Safety

section FailingRecord

variable {s : State} {cause : Cause} {v : Word}

/-- A record that fails one of its tests is not run: the step is the fault (rules R105, R142). -/
theorem RecordFault.step_eq (h : RecordFault s cause v) (hg : s.pipe.stage = .record) :
    step s = .next (raiseInRecord cause v (beginRecord s)) := by
  have hfetch : fetchStage s = .quiet (raiseInRecord cause v (beginRecord s)) := by
    simp only [fetchStage, hg, fetchRecord]
    cases h with
    | noType ended => exact fetchAt_of_end (s := beginRecord s) ended
    | badType more type => exact fetchAt_of_illegal (s := beginRecord s) more type
    | shortData more type short => exact fetchAt_of_short (s := beginRecord s) more type short
  simp only [step_of_busy (show s.pipe.stage ≠ .idle by simp [hg]), stageStep, hfetch]

/-- What the step of a failing record leaves in the registers and outside the block (rules R142, R145). -/
theorem RecordFault.step_leaves (h : RecordFault s cause v) (hg : s.pipe.stage = .record) :
    ∃ t, step s = .next t ∧
      t.regs =
        { s.regs with row := BitVec.ofNat 32 s.pipe.py, fault := true, fcode := causeCode cause, finfo := v } ∧
      OutsideKept s t ∧ t.pipe.stage = .idle :=
  ⟨_, h.step_eq hg, rfl, ⟨rfl, rfl, rfl, rfl, rfl, rfl, rfl⟩, rfl⟩

end FailingRecord

/-- Settles O35: each clause is one of the tests of `RecordFault`. -/
theorem recordFaultsArePrecise : Obligations.RecordFaultsArePrecise := by
  refine fun s hg => ⟨fun hend => ?noType, fun hmore htype => ?badType, fun hmore htype hshort => ?shortData⟩
  case noType => exact (RecordFault.noType hend).step_leaves hg
  case badType => exact (RecordFault.badType (by omega) (decodeFilter_of_lt htype)).step_leaves hg
  case shortData =>
    obtain ⟨t, ht⟩ := decodeFilter_of_le htype
    exact (RecordFault.shortData (by omega) ht hshort).step_leaves hg

end Sys2Proof.Machine
end

section
/-! The Scanline Reconstructor in plain numbers (rules R105 to R119): what a record leaves in `CUR`, that the forward filter
is undone, the Paeth predictor, and the filters on a first row and a first pixel; and obligations O38 to O45. -/

namespace Sys2Proof.Machine

open Sys2Proof.Safety

/-! ## Predictors and their sums as numbers (rules R105, R108, R115) -/

theorem leftOf_toNat (d : Nat) (line : List Byte) (x : Nat) : (leftOf d line x).toNat = byteLeft d line x := by
  unfold leftOf byteLeft
  by_cases hx : x < d
  · rw [if_neg (by omega), if_pos hx]
    rfl
  · rw [if_pos (by omega), if_neg hx]
    rfl

theorem predictAt_eq_predict (t : FilterType) (d : Nat) (prev cur : List Byte) (x : Nat) :
    predictAt t d prev cur x = predict t (byteLeft d cur x) (byteAt prev x) (byteLeft d prev x) := by
  simp only [predictAt, neighbours, leftOf_toNat, byteAt]

theorem addPredictor_toNat (f : Byte) (q : Nat) : (addPredictor f q).toNat = (f.toNat + q) % 256 :=
  BitVec.toNat_ofNat _ _

@[simp] theorem addPredictor_zero (f : Byte) : addPredictor f 0 = f := by simp [addPredictor]

/-- Adding the predictor that was subtracted gives the byte back (rule R116). -/
theorem addPredictor_sub (b : Byte) (q : Nat) : addPredictor (b - BitVec.ofNat 8 q) q = b := by
  rw [addPredictor, BitVec.ofNat_add, BitVec.ofNat_toNat, BitVec.setWidth_eq, BitVec.sub_add_cancel]

/-! ## The forward filter (rule R116) -/

@[simp] theorem filterForward_length (t : FilterType) (d : Nat) (prev raw : List Byte) :
    (filterForward t d prev raw).length = raw.length := by simp [filterForward]

theorem filterForward_getD (t : FilterType) (d : Nat) (prev raw : List Byte) {x : Nat} (hx : x < raw.length) :
    (filterForward t d prev raw).getD x 0 = raw.getD x 0 - BitVec.ofNat 8 (predictAt t d prev raw x) := by
  rw [List.getD_eq_getElem _ _ (by rwa [filterForward_length])]
  simp [filterForward]

/-! ## A reconstructed row (rule R105) -/

section Reconstruction

variable {d : Nat} (hd : 1 ≤ d) (t : FilterType) (prev filt : List Byte)

include hd

/-- The recurrence of rules R105 and R108 in numbers. -/
theorem byteAt_unfilter {x : Nat} (hx : x < filt.length) :
    byteAt (unfilter t d prev filt) x =
      (byteAt filt x +
        predict t (byteLeft d (unfilter t d prev filt) x) (byteAt prev x) (byteLeft d prev x)) % 256 := by
  have hbyte := congrArg BitVec.toNat (unfilter_getD t d prev hd filt x hx)
  rwa [addPredictor_toNat, predictAt_eq_predict] at hbyte

/-- Filters whose predictors agree on every row reconstruct the same row. -/
theorem unfilter_congr {t' : FilterType} {prev' : List Byte}
    (h : ∀ cur x, predictAt t d prev cur x = predictAt t' d prev' cur x) :
    unfilter t d prev filt = unfilter t' d prev' filt :=
  eq_unfilter t' d prev' hd filt _ (unfilter_length t d prev filt) fun x hx =>
    (unfilter_getD t d prev hd filt x hx).trans (by rw [h])

/-- NONE hands the filtered bytes on (rule R109). -/
theorem unfilter_none : unfilter .none d prev filt = filt :=
  (eq_unfilter .none d prev hd filt filt rfl fun _ _ => (addPredictor_zero _).symm).symm

/-- A row satisfies the recurrence of its own forward filter (rule R116). -/
theorem unfilter_filterForward (raw : List Byte) : unfilter t d prev (filterForward t d prev raw) = raw := by
  refine (eq_unfilter t d prev hd _ raw (filterForward_length t d prev raw).symm fun x hx => ?_).symm
  rw [filterForward_length] at hx
  rw [filterForward_getD t d prev raw hx, addPredictor_sub]

end Reconstruction

/-! ## The five record types (rules R109 to R114) -/

/-- A record of type `t` puts the reconstructed row into `CUR`. -/
theorem exec_record (t : FilterType) (filt : List Byte) (s : State) :
    exec (t.record filt) s = .next (filterRow t filt s) := by
  cases t <;> rfl

/-- What a record of type `t` leaves in `CUR`, byte by byte, and that it changes nothing else (rules R105, R107, R108). -/
theorem record_reconstructs (t : FilterType) (filt : List Byte) (s : State) :
    Reconstructs filt
      (fun cur x =>
        predict t (byteLeft (pixelDistance s) cur x) (byteAt s.pipe.prev x) (byteLeft (pixelDistance s) s.pipe.prev x))
      s (exec (t.record filt) s) :=
  ⟨filterRow t filt s, exec_record t filt s, rfl, unfilter_length _ _ _ _, fun _ hx =>
    byteAt_unfilter (pixelBytes_pos s) t s.pipe.prev filt hx⟩

/-- Settles O38: NONE's predictor is 0. -/
theorem noneCopiesTheRow : Obligations.NoneCopiesTheRow := by
  refine ⟨decodeFilter_code .none, fun filt s => ⟨record_reconstructs .none filt s, ?_⟩⟩
  rw [show Instr.recNone filt = FilterType.none.record filt from rfl, exec_record, filterRow,
    unfilter_none (pixelBytes_pos s)]

/-- Settles O39. -/
theorem subAddsTheByteToTheLeft : Obligations.SubAddsTheByteToTheLeft :=
  ⟨decodeFilter_code .sub, record_reconstructs .sub⟩

/-- Settles O40. -/
theorem upAddsTheByteAbove : Obligations.UpAddsTheByteAbove :=
  ⟨decodeFilter_code .up, record_reconstructs .up⟩

/-- Settles O41. -/
theorem avgAddsTheFlooredMean : Obligations.AvgAddsTheFlooredMean :=
  ⟨decodeFilter_code .avg, record_reconstructs .avg⟩

/-- Settles O42. -/
theorem paethAddsItsPredictor : Obligations.PaethAddsItsPredictor :=
  ⟨decodeFilter_code .paeth, record_reconstructs .paeth⟩

/-! ## The Paeth predictor (rule R112) -/

/-- Settles O43, along the two tests of the predictor. -/
theorem paethIsTheNearestNeighbour : Obligations.PaethIsTheNearestNeighbour := by
  intro a b c
  simp only [paeth]
  split
  case isTrue hleft => exact ⟨.inl rfl, le_rfl, hleft.1, hleft.2, fun _ => rfl, fun hne => absurd rfl hne⟩
  case isFalse hleft =>
    split
    case isTrue habove => exact ⟨.inr (.inl rfl), by omega, le_rfl, habove, by omega, fun _ _ => rfl⟩
    case isFalse habove => exact ⟨.inr (.inr rfl), by omega, by omega, le_rfl, by omega, by omega⟩

/-- With nothing above the nearest neighbour is the left one. -/
theorem paeth_left (a : Nat) : paeth a 0 0 = a := by simp [paeth]

/-- With nothing to the left the nearest neighbour is the one above. -/
theorem paeth_above (b : Nat) : paeth 0 b 0 = b := by
  simp only [paeth]
  split
  case isTrue hleft => omega
  case isFalse hleft => exact if_pos (by omega)

/-! ## The round trip (rule R116) -/

/-- Settles O44. -/
theorem unfilterUndoesFilter : Obligations.UnfilterUndoesFilter :=
  fun t _ prev raw hd => unfilter_filterForward hd t prev raw

/-! ## First row and first pixel (rule R119) -/

/-- On a first row only the byte to the left is left of a predictor. -/
theorem predictAt_first_row {zeros : List Byte} (hz : ∀ b ∈ zeros, b = 0) (t : FilterType) (d : Nat) (cur : List Byte)
    (x : Nat) : predictAt t d zeros cur x = predict t (byteLeft d cur x) 0 0 := by
  simp only [predictAt, neighbours_first_row d zeros cur x hz, leftOf_toNat]
  rfl

/-- On a first pixel only the byte above is left of a predictor. -/
theorem byteAt_unfilter_first_pixel {d x : Nat} (hd : 1 ≤ d) (t : FilterType) (prev filt : List Byte)
    (hx : x < filt.length) (hfirst : x < d) :
    byteAt (unfilter t d prev filt) x = (byteAt filt x + predict t 0 (byteAt prev x) 0) % 256 := by
  rw [byteAt_unfilter hd t prev filt hx, byteLeft, if_pos hfirst, byteLeft, if_pos hfirst]

section FirstRow

variable {d : Nat} (hd : 1 ≤ d) (filt : List Byte) {zeros : List Byte} (hz : ∀ b ∈ zeros, b = 0)

include hd hz

theorem unfilter_up_first_row : unfilter .up d zeros filt = unfilter .none d zeros filt :=
  unfilter_congr hd .up zeros filt fun cur x => predictAt_first_row hz .up d cur x

theorem unfilter_paeth_first_row : unfilter .paeth d zeros filt = unfilter .sub d zeros filt :=
  unfilter_congr hd .paeth zeros filt fun cur x => by
    rw [predictAt_first_row hz, predictAt_first_row hz]
    exact paeth_left _

theorem byteAt_unfilter_avg_first_row {x : Nat} (hx : x < filt.length) :
    byteAt (unfilter .avg d zeros filt) x =
      (byteAt filt x + byteLeft d (unfilter .avg d zeros filt) x / 2) % 256 := by
  rw [byteAt_unfilter hd .avg zeros filt hx, ← predictAt_eq_predict, predictAt_first_row hz]
  rfl

end FirstRow

/-- Settles O45: on a first row NONE and SUB look at no byte above; the rest are the laws of the predictors whose
neighbours outside the row are 0. -/
theorem firstRowAndFirstPixelLaws : Obligations.FirstRowAndFirstPixelLaws := by
  refine fun d filt hd => ⟨fun zeros hz => ⟨fun prev => ?none, fun prev => ?sub, unfilter_up_first_row hd filt hz,
    unfilter_paeth_first_row hd filt hz, fun x hx => byteAt_unfilter_avg_first_row hd filt hz hx⟩,
    fun prev x hx hfirst => ?pixel⟩
  case none => exact unfilter_congr hd .none zeros filt fun _ _ => rfl
  case sub => exact unfilter_congr hd .sub zeros filt fun _ _ => rfl
  case pixel =>
    have hbyte := fun t => byteAt_unfilter_first_pixel hd t prev filt hx hfirst
    refine ⟨by rw [hbyte, hbyte]; rfl, ?paeth, ?avg⟩
    case paeth =>
      rw [hbyte, hbyte]
      simp only [predict, paeth_above]
    case avg =>
      rw [hbyte]
      simp only [predict, Nat.zero_add]

end Sys2Proof.Machine
end

section
/-! The Sample Unpacker in plain numbers (rules R120 to R129): the formula of each depth, what an unpack mode does when
every sample is an index of the palette and when one is not, a sample bit by bit; and obligations O46 to O53. -/

namespace Sys2Proof.Machine

open Sys2Proof.Safety

/-! ## A sample as its depth's formula gives it (rules R121, R125 to R129) -/

theorem bits_le_8 {d : Depth} (hd : d ≠ .d16) : d.bits ≤ 8 := by
  revert hd
  cases d <;> decide

/-- Below depth 16 a sample is a field of one byte (rule R121). -/
theorem sample_of_narrow {d : Depth} (hd : d ≠ .d16) (line : List Byte) (k : Nat) :
    sample d.bits line k =
      (byteAt line (k * d.bits / 8) >>> (8 - d.bits - k * d.bits % 8)) % 2 ^ d.bits := by
  cases d with
  | d1 | d2 | d4 => rfl
  | d8 =>
    have hbyte : byteAt line (k * 8 / 8) < 2 ^ 8 := byte_lt _
    simp only [Depth.bits, Nat.sub_self, Nat.zero_sub, Nat.shiftRight_zero, Nat.mod_eq_of_lt hbyte]
    rfl
  | d16 => exact absurd rfl hd

theorem sample_d1 (line : List Byte) (k : Nat) :
    sample Depth.d1.bits line k = (byteAt line (k / 8) >>> (7 - k % 8)) % 2 := by
  rw [sample_of_narrow (by decide), Depth.bits, Nat.mul_one]
  rfl

theorem sample_d2 (line : List Byte) (k : Nat) :
    sample Depth.d2.bits line k = (byteAt line (k / 4) >>> (6 - 2 * (k % 4))) % 4 := by
  have hbyte : k * 2 / 8 = k / 4 := by omega
  have hshift : 8 - 2 - k * 2 % 8 = 6 - 2 * (k % 4) := by omega
  rw [sample_of_narrow (by decide), Depth.bits, hbyte, hshift]
  rfl

theorem sample_d4 (line : List Byte) (k : Nat) :
    sample Depth.d4.bits line k = if k % 2 = 0 then byteAt line (k / 2) >>> 4 else byteAt line (k / 2) % 16 := by
  have hbyte : k * 4 / 8 = k / 2 := by omega
  rw [sample_of_narrow (by decide), Depth.bits, hbyte]
  split
  case isTrue heven =>
    have hnibble : byteAt line (k / 2) >>> 4 < 2 ^ 4 := by
      have := byte_lt (line.getD (k / 2) 0)
      rw [byteAt, Nat.shiftRight_eq_div_pow]
      omega
    rw [show 8 - 4 - k * 4 % 8 = 4 by omega, Nat.mod_eq_of_lt hnibble]
  case isFalse hodd =>
    rw [show 8 - 4 - k * 4 % 8 = 0 by omega, Nat.shiftRight_zero]
    rfl

theorem sample_d8 (line : List Byte) (k : Nat) : sample Depth.d8.bits line k = byteAt line k := by
  rw [show byteAt line k = byteAt line (k * 8 / 8) by rw [Nat.mul_div_cancel k (by decide)]]
  rfl

theorem sample_d16 (line : List Byte) (k : Nat) :
    sample Depth.d16.bits line k = byteAt line (2 * k) * 256 + byteAt line (2 * k + 1) := by
  rw [show 2 * k = k * 16 / 8 by omega]
  rfl

/-! ## The row handed on and the palette bound check (rules R120, R122, R124) -/

/-- A sample fits the 16 bits of the port (rules R6, R122). -/
theorem toNat_ofNat_sample (d : Depth) (line : List Byte) (k : Nat) :
    (BitVec.ofNat 16 (sample d.bits line k)).toNat = sample d.bits line k := by
  have hfits : 2 ^ d.bits ≤ 2 ^ 16 := by cases d <;> decide
  rw [BitVec.toNat_ofNat, Nat.mod_eq_of_lt ((sample_lt d line k).trans_le hfits)]

theorem exec_mode (d : Depth) (s : State) : exec d.mode s = .next (unpackRow d s) := by cases d <;> rfl

section Row

variable {d : Depth} {s : State} {ps n k : Nat} {line : List Byte}

theorem firstOutside_unpackLine_eq_none (h : ∀ k < n, sample d.bits line k < ps) :
    firstOutside ps (unpackLine d.bits n line) = none := by
  refine (firstOutside_eq_none _ _).mpr fun v hv => ?_
  obtain ⟨k, hk, rfl⟩ := List.mem_map.mp hv
  rw [toNat_ofNat_sample]
  exact h k (List.mem_range.mp hk)

theorem firstOutside_unpackLine_eq_some (hk : k < n) (hout : ps ≤ sample d.bits line k)
    (hbefore : ∀ j < k, sample d.bits line j < ps) :
    firstOutside ps (unpackLine d.bits n line) = some (BitVec.ofNat 16 (sample d.bits line k)) := by
  have hfind : (List.range n).find? (fun j => decide (ps ≤ sample d.bits line j)) = some k := by
    simpa [List.find?_range_eq_some] using ⟨hout, hk, hbefore⟩
  simp only [firstOutside, unpackLine, List.find?_map, Function.comp_def, toNat_ofNat_sample, hfind, Option.map_some]

/-- Without an offender the row is handed on (rule R120). -/
theorem unpacks_of_inside (h : paletteOffender s (unpackLine d.bits (rowSamples s) s.pipe.cur) = none) :
    Unpacks (sample d.bits s.pipe.cur) s (.next (unpackRow d s)) := by
  simp only [unpackRow, h]
  refine ⟨_, rfl, rfl, unpackLine_length _ _ _, fun k hk => ?_⟩
  rw [unpackLine_getD _ _ _ _ hk, toNat_ofNat_sample]

/-- An offender is the info word of the fault, and the row is not handed on (rules R124, R142). -/
theorem paletteFaults_of_offender
    (h : paletteOffender s (unpackLine d.bits (rowSamples s) s.pipe.cur) =
      some (BitVec.ofNat 16 (sample d.bits s.pipe.cur k))) :
    PaletteFaults (sample d.bits s.pipe.cur k) s (.next (unpackRow d s)) := by
  have hinfo : (BitVec.ofNat 16 (sample d.bits s.pipe.cur k)).setWidth 32 =
      BitVec.ofNat 32 (sample d.bits s.pipe.cur k) := by
    rw [← BitVec.ofNat_toNat, toNat_ofNat_sample]
  simp only [unpackRow, h, hinfo]
  exact ⟨_, rfl, rfl, rfl, rfl, rfl, rfl, rfl, rfl, rfl, rfl⟩

end Row

/-- An unpack mode whose samples are those of a formula is the mode of that formula (rules R120, R124). -/
theorem unpackMode_of_sample_eq {d : Depth} {f : List Byte → Nat → Nat}
    (hf : ∀ line k, sample d.bits line k = f line k) (s : State) : UnpackMode f d.mode s := by
  obtain rfl : sample d.bits = f := funext₂ hf
  rw [UnpackMode, exec_mode]
  refine ⟨fun hinside => unpacks_of_inside ?_, fun k hk hct hout hbefore => paletteFaults_of_offender ?_⟩
  · rw [paletteOffender]
    split
    case isTrue hct => exact firstOutside_unpackLine_eq_none (hinside hct)
    case isFalse => rfl
  · refine (if_pos hct).trans ?_
    exact firstOutside_unpackLine_eq_some hk hout hbefore

/-! ## The depths a colour type may have (rule R93) -/

theorem depthAllowed_ofNat_bits (c : ColorType) (d : Depth) :
    depthAllowed c (BitVec.ofNat 8 d.bits) = true ↔ d ∈ allowedDepths c := by
  rw [depthAllowed, decodeDepth_ofNat_bits, decide_eq_true_iff]

/-- Only grayscale and palette images have fewer than eight bits a sample. -/
theorem depthAllowed_below_8 {d : Depth} (hd : d.bits < 8) (c : ColorType) :
    depthAllowed c (BitVec.ofNat 8 d.bits) = true ↔ c = .grayscale ∨ c = .palette := by
  rw [depthAllowed_ofNat_bits]
  revert hd
  cases c <;> cases d <;> decide

theorem depthAllowed_8 (c : ColorType) : depthAllowed c 8 = true := by cases c <;> rfl

theorem depthAllowed_16 (c : ColorType) : depthAllowed c 16 = true ↔ c ≠ .palette := by cases c <;> decide

/-- No configured palette image has depth 16 (rules R94, R129). -/
theorem ct_ne_palette_of_depth_16 {s : State} (hconf : Configured s) (hbd : s.pipe.latch.bd = 16) :
    s.pipe.latch.ct ≠ 3 := by
  obtain ⟨color, hcolor, -, hallowed, -⟩ := configCheck_ok hconf
  rw [hbd, depthAllowed_16] at hallowed
  exact fun hct => hallowed ((eq_palette_iff hcolor).mpr (by rw [hct]; rfl))

/-! ## The bytes of a row (rule R106) -/

/-- The bytes of a row are just enough for its bits. -/
theorem stride_bounds (c bd w : Nat) : w * c * bd ≤ 8 * stride c bd w ∧ 8 * stride c bd w < w * c * bd + 8 := by
  unfold stride
  omega

theorem stride_8 (c w : Nat) : stride c 8 w = w * c := by
  unfold stride
  omega

theorem stride_16 (c w : Nat) : stride c 16 w = 2 * (w * c) := by
  unfold stride
  omega

/-! ## The five modes -/

/-- Settles O46. -/
theorem unpk1TakesOneBit : Obligations.Unpk1TakesOneBit :=
  ⟨decodeDepth_ofNat_bits .d1, depthAllowed_below_8 (d := .d1) (by decide), unpackMode_of_sample_eq sample_d1⟩

/-- Settles O47. -/
theorem unpk2TakesTwoBits : Obligations.Unpk2TakesTwoBits :=
  ⟨decodeDepth_ofNat_bits .d2, depthAllowed_below_8 (d := .d2) (by decide), unpackMode_of_sample_eq sample_d2⟩

/-- Settles O48. -/
theorem unpk4TakesANibble : Obligations.Unpk4TakesANibble :=
  ⟨decodeDepth_ofNat_bits .d4, depthAllowed_below_8 (d := .d4) (by decide), unpackMode_of_sample_eq sample_d4⟩

/-- Settles O49. -/
theorem unpk8TakesAByte : Obligations.Unpk8TakesAByte :=
  ⟨decodeDepth_ofNat_bits .d8, depthAllowed_8, stride_8, unpackMode_of_sample_eq sample_d8⟩

/-- Settles O50: without a palette there is no bound to check. -/
theorem unpk16TakesTwoBytes : Obligations.Unpk16TakesTwoBytes :=
  ⟨decodeDepth_ofNat_bits .d16, depthAllowed_16, stride_16,
    fun s hct => (unpackMode_of_sample_eq sample_d16 s).1 fun hpalette => absurd hpalette hct,
    fun _ => ct_ne_palette_of_depth_16⟩

/-! ## A sample in its DST cell (rules R44, R122) -/

theorem storedSample_toNat (w : DstWrite) :
    (storedSample w).toNat = if w.wide then w.value.toNat else w.value.toNat % 2 ^ 8 := by
  unfold storedSample
  split
  · rfl
  · rw [BitVec.toNat_setWidth_of_le (by decide), BitVec.toNat_setWidth]

/-- Settles O51: a cell is 16 bits wide at depth 16, and at the other depths a sample fits in 8. -/
theorem samplesAreStoredAsTheyAre : Obligations.SamplesAreStoredAsTheyAre := by
  refine fun d line k idx => ⟨Nat.le_sub_one_of_lt (sample_lt d line k), ?_⟩
  rw [storedSample_toNat, toNat_ofNat_sample]
  split
  case isTrue => rfl
  case isFalse hnarrow =>
    have hfits : 2 ^ d.bits ≤ 2 ^ 8 := Nat.pow_le_pow_right (by decide) (bits_le_8 fun h => hnarrow (by rw [h]; rfl))
    exact Nat.mod_eq_of_lt ((sample_lt d line k).trans_le hfits)

/-! ## A sample bit by bit (rules R121, R123) -/

theorem rowBit_eq_testBit (line : List Byte) (o : Nat) : rowBit line o = (byteAt line (o / 8)).testBit (7 - o % 8) :=
  rfl

/-- Below depth 16 the bits of a sample stand in one byte. -/
theorem narrow_bit_index {d : Depth} (hd : d ≠ .d16) (k : Nat) {i : Nat} (hi : i < d.bits) :
    (k * d.bits + (d.bits - 1 - i)) / 8 = k * d.bits / 8 ∧
      7 - (k * d.bits + (d.bits - 1 - i)) % 8 = 8 - d.bits - k * d.bits % 8 + i := by
  cases d with
  | d16 => exact absurd rfl hd
  | d1 | d2 | d4 | d8 =>
    simp only [Depth.bits] at hi ⊢
    omega

theorem sample_testBit_of_narrow {d : Depth} (hd : d ≠ .d16) (line : List Byte) (k : Nat) {i : Nat}
    (hi : i < d.bits) : (sample d.bits line k).testBit i = rowBit line (k * d.bits + (d.bits - 1 - i)) := by
  obtain ⟨hbyte, hbit⟩ := narrow_bit_index hd k hi
  rw [rowBit_eq_testBit, hbyte, hbit, sample_of_narrow hd, Nat.testBit_mod_two_pow, Nat.testBit_shiftRight,
    decide_eq_true hi, Bool.true_and]

/-- At depth 16 the low eight bits of a sample are those of its second byte, the high eight those of its first. -/
theorem sample_testBit_d16 (line : List Byte) (k : Nat) {i : Nat} (hi : i < 16) :
    (sample Depth.d16.bits line k).testBit i = rowBit line (k * 16 + (15 - i)) := by
  have hlow : byteAt line (2 * k + 1) < 2 ^ 8 := byte_lt _
  rw [rowBit_eq_testBit, sample_d16, Nat.mul_comm, Nat.testBit_two_pow_mul_add (i := 8) _ hlow]
  split
  case isTrue =>
    have hbyte : (k * 16 + (15 - i)) / 8 = 2 * k + 1 := by omega
    have hbit : 7 - (k * 16 + (15 - i)) % 8 = i := by omega
    rw [hbyte, hbit]
  case isFalse =>
    have hbyte : (k * 16 + (15 - i)) / 8 = 2 * k := by omega
    have hbit : 7 - (k * 16 + (15 - i)) % 8 = i - 8 := by omega
    rw [hbyte, hbit]

/-- Sample `k` is bits `k * BD` to `k * BD + BD - 1` of the row, the first one most significant (rule R121). -/
theorem sample_testBit (d : Depth) (line : List Byte) (k : Nat) {i : Nat} (hi : i < d.bits) :
    (sample d.bits line k).testBit i = rowBit line (k * d.bits + (d.bits - 1 - i)) := by
  by_cases hd : d = .d16
  · subst hd
    exact sample_testBit_d16 line k hi
  · exact sample_testBit_of_narrow hd line k hi

/-- A number of `BD` bits that are those of the row is the sample. -/
theorem sample_eq_of_rowBit {d : Depth} {line : List Byte} {k v : Nat} (hv : v < 2 ^ d.bits)
    (h : ∀ i < d.bits, rowBit line (k * d.bits + (d.bits - 1 - i)) = v.testBit i) : sample d.bits line k = v := by
  refine Nat.eq_of_testBit_eq fun i => ?_
  by_cases hi : i < d.bits
  · rw [sample_testBit d line k hi, h i hi]
  · have hpow : 2 ^ d.bits ≤ 2 ^ i := Nat.pow_le_pow_right (by decide) (by omega)
    rw [Nat.testBit_lt_two_pow ((sample_lt d line k).trans_le hpow), Nat.testBit_lt_two_pow (hv.trans_le hpow)]

/-- The bits of sample `k` of `n` lie among the first `n * BD` bits of the row. -/
theorem sampleBit_lt {k n bd i : Nat} (hk : k < n) (hi : i < bd) : k * bd + (bd - 1 - i) < n * bd := by
  have := Nat.mul_le_mul_right bd (Nat.succ_le_of_lt hk)
  rw [Nat.succ_mul] at this
  omega

theorem unpackLine_congr {bd n : Nat} {line line' : List Byte} (h : ∀ k < n, sample bd line k = sample bd line' k) :
    unpackLine bd n line = unpackLine bd n line' :=
  List.map_congr_left fun k hk => by rw [h k (List.mem_range.mp hk)]

/-- Settles O53. -/
theorem paddingBitsAreIgnored : Obligations.PaddingBitsAreIgnored := by
  refine fun d n line line' h => unpackLine_congr fun k hk => sample_eq_of_rowBit (sample_lt d line' k) fun i hi => ?_
  rw [sample_testBit d line' k hi, h _ (sampleBit_lt hk hi)]

/-! ## Rows of one value (rule R123) -/

theorem unpackLine_eq_replicate {bd n v : Nat} {line : List Byte} (h : ∀ k < n, sample bd line k = v) :
    unpackLine bd n line = List.replicate n (BitVec.ofNat 16 v) := by
  rw [unpackLine, List.map_congr_left fun k hk => by rw [h k (List.mem_range.mp hk)], List.map_const',
    List.length_range]

theorem rowBit_replicate (b : Byte) {m o : Nat} (ho : o < 8 * m) :
    rowBit (List.replicate m b) o = b.getLsbD (7 - o % 8) := by
  rw [rowBit, List.getD_replicate b (by omega)]

/-- A row whose bytes hold one bit throughout unpacks to the numbers of that bit throughout. -/
theorem unpackLine_replicate {d : Depth} {m n v : Nat} {b : Byte} (hroom : n * d.bits ≤ 8 * m) (hv : v < 2 ^ d.bits)
    (h : ∀ i < d.bits, ∀ j < 8, b.getLsbD j = v.testBit i) :
    unpackLine d.bits n (List.replicate m b) = List.replicate n (BitVec.ofNat 16 v) := by
  refine unpackLine_eq_replicate fun k hk => sample_eq_of_rowBit hv fun i hi => ?_
  rw [rowBit_replicate b ((sampleBit_lt hk hi).trans_le hroom), h i hi _ (by omega)]

/-- Settles O52: all bits of a zero byte are those of 0, and all bits of 0xFF those of `2 ^ BD - 1`. -/
theorem extremeRowsUnpackToExtremes : Obligations.ExtremeRowsUnpackToExtremes := by
  intro d c w _ _
  obtain ⟨hroom, htight⟩ := stride_bounds c d.bits w
  have hpos : 0 < 2 ^ d.bits := Nat.two_pow_pos _
  refine ⟨unpackLine_replicate hroom hpos fun i _ j _ => ?zeros,
    unpackLine_replicate hroom (by omega) fun i hi j hj => ?ones, hroom, htight⟩
  case zeros => rw [Nat.zero_testBit, BitVec.getLsbD_zero]
  case ones =>
    rw [show 0xFF#8 = BitVec.allOnes 8 from rfl, BitVec.getLsbD_allOnes, Nat.testBit_two_pow_sub_one, decide_eq_true hi,
      decide_eq_true hj]

end Sys2Proof.Machine
end

section
/-! The two pass lists (rules R131, R132, R135 to R138): a place in a pass is the quotient of its image coordinates, so
the pass of a pixel determines the rest; and the tuple of the whole image changes no coordinate. -/

namespace Sys2Proof.Machine

/-- The local coordinate of an image coordinate in a pass is the quotient by the stride, where the remainder is the
offset (rule R135). -/
theorem offset_add_mul_eq_iff {o d : Nat} (h : o < d) (k x : Nat) : o + k * d = x ↔ x % d = o ∧ x / d = k := by
  rw [and_comm, Nat.div_mod_unique (by omega), Nat.mul_comm d k, and_iff_left h]

/-- A pass has a pixel of an image at one place only: the quotients by its strides (rules R132, R135). -/
theorem scattersTo_iff {m : InterlaceMode} {p : Pass} (hp : p ∈ passList m) {w h x y : Nat} (hx : x < w) (hy : y < h)
    (px py : Nat) :
    (px < passWidth w p ∧ py < passHeight h p ∧ p.xo + px * p.xs = x ∧ p.yo + py * p.ys = y) ↔
      HasPixel p x y ∧ px = x / p.xs ∧ py = y / p.ys := by
  obtain ⟨hxs, hys⟩ := passList_offsets hp
  rw [lt_passWidth_iff hxs, lt_passHeight_iff hys]
  constructor
  · rintro ⟨-, -, hcol, hrow⟩
    obtain ⟨hxo, hpx⟩ := (offset_add_mul_eq_iff hxs px x).mp hcol
    obtain ⟨hyo, hpy⟩ := (offset_add_mul_eq_iff hys py y).mp hrow
    exact ⟨⟨hxo, hyo⟩, hpx.symm, hpy.symm⟩
  · rintro ⟨⟨hxo, hyo⟩, hpx, hpy⟩
    have hcol : p.xo + px * p.xs = x := (offset_add_mul_eq_iff hxs px x).mpr ⟨hxo, hpx.symm⟩
    have hrow : p.yo + py * p.ys = y := (offset_add_mul_eq_iff hys py y).mpr ⟨hyo, hpy.symm⟩
    exact ⟨hcol ▸ hx, hrow ▸ hy, hcol, hrow⟩

/-- Settles O56: exactly one pass has a pixel, and it has it at the place of the quotients. -/
theorem passesPartitionTheImage : Obligations.PassesPartitionTheImage := by
  refine fun m w h => ⟨fun p hp px hpx py hpy => ?inside, fun x hx y hy => ?once⟩
  case inside =>
    obtain ⟨hxs, hys⟩ := passList_offsets hp
    exact ⟨(lt_passWidth_iff hxs w px).mp hpx, (lt_passHeight_iff hys h py).mp hpy⟩
  case once =>
    obtain ⟨p, hp, hpixel⟩ := exists_pass_hasPixel m x y
    refine ⟨(p, x / p.xs, y / p.ys), ⟨hp, (scattersTo_iff hp hx hy _ _).mpr ⟨hpixel, rfl, rfl⟩⟩, ?_⟩
    rintro ⟨q, px, py⟩ ⟨hq, hplace⟩
    obtain ⟨hpixel', hpx, hpy⟩ := (scattersTo_iff hq hx hy px py).mp hplace
    obtain rfl : q = p := pass_unique_of_hasPixel hq hp hpixel' hpixel
    rw [hpx, hpy]

/-! ## The two interlace modes -/

/-- The tuple of the whole image has the image's own size and coordinates (rules R132, R137). -/
theorem wholeImage_identity {p : Pass} (hp : p ∈ wholeImage) (w h x y : Nat) :
    passWidth w p = w ∧ passHeight h p = h ∧ p.xo + x * p.xs = x ∧ p.yo + y * p.ys = y := by
  cases List.mem_singleton.mp hp
  simp [passWidth, passHeight]

/-- The move into the whole image or past it sets no pass number but 0 (rule R137). -/
theorem nextPass_wholeImage_pass {s : State} (h : s.regs.pass = 0) : (nextPass wholeImage s).regs.pass = 0 := by
  rcases nextPass_cases wholeImage s with ⟨before, p, rest, hl, -, -, he⟩ | ⟨-, he⟩ <;> rw [he]
  · have hp : p ∈ wholeImage := hl ▸ List.mem_append_right before List.mem_cons_self
    cases List.mem_singleton.mp hp
    rfl
  · rw [finishDecode_regs, h]

/-- Settles O54. -/
theorem ilNoneIsOneWholePass : Obligations.IlNoneIsOneWholePass :=
  ⟨decodeInterlace_code .none, fun _ => rfl, fun _ hp => wholeImage_identity hp, fun _ => nextPass_wholeImage_pass⟩

/-- Settles O55: the arm of the instruction loads the table of rule R131. -/
theorem ilAdam7IsSevenPasses : Obligations.IlAdam7IsSevenPasses :=
  ⟨decodeInterlace_code .adam7, fun _ => rfl⟩

end Sys2Proof.Machine
end

section
/-! The exception entry (rules R141, R142) and the faulted state (rule R144): `raise` with its frame and the fault table,
what the host's actions do while a fault is recorded; and obligations O15 and O14. -/

namespace Sys2Proof.Machine

open Sys2Proof.Safety

/-! ## The faulted state -/

/-- A write of `CMD` in the faulted state, of any word but that of RESET, is taken and does nothing (rules R90, R144). -/
theorem step_of_cmdWrite_of_fault {s : State} {v : Word} {rest : List HostAction} (hi : s.pipe.stage = .idle)
    (hf : s.regs.fault = true) (hp : s.pending = .regWrite 1 v :: rest) (hreset : v ≠ 1) :
    step s = .next { s with pending := rest } := by
  obtain ⟨hdispatch, -⟩ := commandWordsDispatch s v rest hi hp
  rw [hdispatch, if_neg hreset, if_pos hf]

/-- Settles O15: the dispatch ignores the word, the steps of the register port do not look at the fault, and a write of a
register keeps the recorded fault. -/
theorem faultedBlockIgnoresCommands : Obligations.FaultedBlockIgnoresCommands := by
  intro s v n rest hi hf
  obtain ⟨hread, hwrite, -⟩ := hostActionsTakeOneStep s rest hi
  obtain ⟨hkept, -, -⟩ := regWrite_flags n v s
  exact ⟨step_of_cmdWrite_of_fault hi hf, hread n,
    fun hp hn => ⟨hwrite n v hp hn, hkept.fault.trans hf, hkept.fcode, hkept.finfo⟩⟩

/-! ## raise -/

/-- A fault touches nothing outside the block (rule R142). -/
theorem raise_outsideKept (c : Cause) (v : Word) (s : State) : OutsideKept s (raise c v s) where
  params := raise_params s c v
  src := raise_src s c v
  chk := raise_chk s c v
  dst := raise_dst s c v
  dstLog := raise_dstLog s c v
  pending := raise_pending s c v
  replies := raise_replies s c v

/-- Settles O14: the rules of `raise` for the registers, the hidden state and the outside, and the table of the codes. -/
theorem raiseRecordsAndEnds : Obligations.RaiseRecordsAndEnds :=
  ⟨fun c v s => ⟨raise_regs s c v, raise_pipe s c v, raise_outsideKept c v s⟩, rfl⟩

end Sys2Proof.Machine
end

section
/-! The reset event (rules R170, R171): what power-on reset is beside the command RESET, and how a DECODE and a CRCCHK end
on the reset values; and obligations O10 and O11. -/

namespace Sys2Proof.Machine

open Sys2Proof.Safety

/-! ## Power-on reset -/

/-- A reset of the block touches nothing outside it (rules R38, R99). -/
theorem resetBlock_outsideKept (s : State) : OutsideKept s (resetBlock s) where
  params := resetBlock_params s
  src := resetBlock_src s
  chk := resetBlock_chk s
  dst := resetBlock_dst s
  dstLog := resetBlock_dstLog s
  pending := resetBlock_pending s
  replies := resetBlock_replies s

/-- The host's power-on reset resets the block and does nothing else (rule R170, log 17). -/
theorem step_of_powerOn {s : State} {rest : List HostAction} (hi : s.pipe.stage = .idle)
    (hp : s.pending = .powerOn :: rest) : step s = .next (resetBlock { s with pending := rest }) :=
  step_of_action hi hp

/-- Settles O10: both are one reset of the block, which leaves the registers of the reset state. -/
theorem powerOnIsReset : Obligations.PowerOnIsReset := by
  intro s rest hi hp
  have hstep := step_of_powerOn hi hp
  have hregs := resetBlock_regs { s with pending := rest }
  exact ⟨hstep, _, hstep, fun n => (regRead_of_reset hregs n).trans (regRead_of_reset rfl n).symm, hregs,
    resetBlock_outsideKept _⟩

/-! ## Commands on the reset values -/

/-- A DECODE on the reset values ends by `InvalidBitDepth(0)`: colour type 0 is legal, depth 0 is not (rules R94, R171). -/
theorem execDecode_of_resetRegs {s : State} (h : s.regs = Regs.reset) :
    execDecode s = .next (raise .invalidBitDepth 0 (latchOperands s)) := by
  have hcheck : configCheck s.params (latchOf s.regs) = .error (.invalidBitDepth, 0) := by
    rw [h]
    rfl
  exact execDecode_of_rejected (by rw [h]; rfl) hcheck

/-- A CRCCHK on the reset values ends by `TruncatedChunk(0)`: `CLEN` is 0, so no record fits (rules R83, R171). -/
theorem execCrcchk_of_resetRegs {s : State} (h : s.regs = Regs.reset) :
    execCrcchk s = .next (raise .truncatedChunk 0 (startCrcchk s)) := by
  have hclen : (startCrcchk s).regs.clen.toNat = 0 := by
    rw [startCrcchk, setCrcOk_regs, h]
    rfl
  have hfits : chunkFits (startCrcchk s) = false := by
    rw [Bool.eq_false_iff, Ne, chunkFits_iff]
    omega
  rw [execCrcchk_of_truncated (by rw [h]; rfl) hfits, h]
  rfl

/-- Settles O11: the block waits for the host, and each command meets its fault on the reset values. -/
theorem idleAfterReset : Obligations.IdleAfterReset := by
  refine ⟨step_of_nothing_pending rfl rfl, regRead_of_reset rfl 2, ?_, ?_⟩
  · exact ⟨_, (step_eq_exec rfl rfl (i := .decode) rfl).trans (execDecode_of_resetRegs rfl), rfl, rfl, rfl⟩
  · exact ⟨_, (step_eq_exec rfl rfl (i := .crcchk) rfl).trans (execCrcchk_of_resetRegs rfl), rfl, rfl, rfl⟩

end Sys2Proof.Machine
end
